-- ==== Sys2Proof/Word.lean ====
section
/-! DEFINITION. Words, bytes and operand widths: the plainest arithmetic of the model. -/

namespace Sys2Proof

/-- An 8-bit byte of memory (rule R48). -/
abbrev Byte := BitVec 8

/-- A 64-bit register, offset or linear address (rules R20, R60). -/
abbrev Word := BitVec 64

/-- A general register number, 0 to 15 (rule R20): a REX bit and a 3-bit field (rules R102, R103). -/
abbrev RegNum := BitVec 4

/-- An operand width `w` (rule R8). -/
inductive Width where
  | w8 | w16 | w32 | w64
deriving DecidableEq, Repr

/-- The number of bits of a width. -/
def Width.bits : Width → Nat
  | .w8 => 8
  | .w16 => 16
  | .w32 => 32
  | .w64 => 64

/-- The number of bytes of a width, the `n = w / 8` of rules R178 and R208. -/
def Width.bytes : Width → Nat
  | .w8 => 1
  | .w16 => 2
  | .w32 => 4
  | .w64 => 8

/-- The low `n` bits of a word, zero-extended: the value modulo 2^n (rule R7). -/
def Word.low (n : Nat) (v : Word) : Word := (v.setWidth n).setWidth 64

end Sys2Proof
end

