-- ==== Sys2Proof/Config.lean ====
section
/-! DEFINITION. What the spec leaves to the launch of the machine (00_scope.md rule R6): the types of the parameters,
and the one source of free values, the spec's `draw` (rule R8). -/

namespace Sys2Proof

/-- `MODE` (rule R6): 64-bit mode, or the compatibility and legacy modes. -/
inductive Mode where
  | mode64 | modeNon64
deriving DecidableEq, Repr

/-- `CS_D` (rule R6): the default operand and address size outside 64-bit mode. -/
inductive DefaultSize where
  | d16 | d32
deriving DecidableEq, Repr

/-- What the decoder depends on besides the bytes (rules R96, R97): `MODE` and `CS_D`. -/
structure CodeSize where
  mode : Mode
  csD : DefaultSize
deriving DecidableEq, Repr

/-- The six segment names (rule R40). -/
inductive Seg where
  | es | cs | ss | ds | fs | gs
deriving DecidableEq, Repr

/-- `SegBase` (rules R6, R66) as plain data: one base for each segment name. -/
structure SegBases where
  es : Word
  cs : Word
  ss : Word
  ds : Word
  fs : Word
  gs : Word
deriving DecidableEq, Repr

/-- The kinds of access that `Admit` is asked about (rule R67). -/
inductive AccessKind where
  | read | write | rmw | fetch
deriving DecidableEq, Repr

/-- Exceptions by name: the two the source names (rule R250), the others rule R253 lists for memory accesses, and any
further vector that `Admit` may answer with (rule R67). -/
inductive Exc where
  | ud | ss | gp | pf | ac
  | vector (n : Byte)
deriving DecidableEq, Repr

/-- An exception with its error code: `none` where it carries none, as #UD (rule R252). Rules R67 and R253 give no width for a
code; 32 bits are the model's. DESIGN CHOICE, unsafe (log entry 51). -/
structure Raised where
  exc : Exc
  code : Option (BitVec 32)
deriving DecidableEq, Repr

/-- One rule of `Admit` (rule R67) as plain data: it matches an access whose kind and segment are listed and whose offset,
linear address and size lie in its ranges (ends included); `answer` is `none` for ok. -/
structure AdmitRule where
  kinds : List AccessKind
  segs : List Seg
  offLo : Nat
  offHi : Nat
  addrLo : Nat
  addrHi : Nat
  nLo : Nat
  nHi : Nat
  answer : Option Raised
deriving DecidableEq, Repr

/-- One range of `Translate` (rule R82) as plain data: linear addresses `lo` to `hi` map to `dst` and on. -/
structure Remap where
  lo : Nat
  hi : Nat
  dst : Nat
deriving DecidableEq, Repr

/-- A range of byte addresses, ends included: part of the program text (rule R83). -/
structure Extent where
  lo : Nat
  hi : Nat
deriving DecidableEq, Repr

/-- `CONSISTENCY` (rules R6, R80): the two memory consistency models that the spec describes (log entry 11). -/
inductive Consistency where
  /-- Sequential consistency over byte accesses, the spec's default. -/
  | sc
  /-- Total store order: a FIFO store buffer, loads that read the newest own buffered store, a locked instruction and a commit that
  drain the buffer (rules R80, R81, decision D33). -/
  | tso
deriving DecidableEq, Repr

/-- The launch parameters of rule R6 that a single logical processor depends on (log entries 4 and 5). -/
structure Params where
  /-- `MODE` and `CS_D`. -/
  code : CodeSize
  /-- `CPUID_HLE` (rule R38). -/
  cpuidHle : Bool
  /-- `CPUID_RTM` (rule R38). -/
  cpuidRtm : Bool
  /-- `OSXSAVE_ENABLED` (rule R233). -/
  osxsave : Bool
  /-- `MAX_RTM_NEST_COUNT` (rule R194). -/
  maxNest : Nat
  /-- `XCR0_IMPL_MASK` (rule R37). -/
  xcr0ImplMask : Word
  /-- `SegBase` (rule R66). -/
  segBase : SegBases
  /-- `Translate` (rule R82): the first range that holds the address maps it; no range, the identity. -/
  translate : List Remap
  /-- `Admit` (rule R67): the first rule that matches answers; no rule, ok. -/
  admitRules : List AdmitRule
  /-- `CONSISTENCY` (rule R80). -/
  consistency : Consistency
  /-- The program text, which no store may change (rule R83), by translated address. -/
  text : List Extent
  /-- `END` (rule R283). -/
  endPc : Option Word
deriving DecidableEq, Repr

/-- Mode and default size after reset. DESIGN CHOICE, unsafe (log entry 4): the convention of 95_test_vectors.md. -/
def Config.resetCode : CodeSize := { mode := .mode64, csD := .d32 }

/-- All six segment bases zero: the convention of 95_test_vectors.md (log entry 4). -/
def Config.resetSegBase : SegBases := { es := 0, cs := 0, ss := 0, ds := 0, fs := 0, gs := 0 }

/-- The launch parameters at `State.reset`. DESIGN CHOICE, unsafe (log entry 4): the conventions of 95_test_vectors.md. -/
def Config.resetParams : Params where
  code := Config.resetCode
  cpuidHle := true
  cpuidRtm := true
  osxsave := true
  maxNest := 7
  xcr0ImplMask := BitVec.allOnes 64
  segBase := Config.resetSegBase
  translate := []
  admitRules := []
  consistency := .sc
  text := []
  endPc := none

/-- The spec's `draw` (rule R8): "a value of type T chosen by no rule of this spec: the model must hold for every choice."
It has no body, so nothing constrains it; the argument is the model's count of draws (log entry 7, safe). -/
opaque Config.draw : Nat → Word

end Sys2Proof
end

