-- ==== Sys2Proof/Syntax.lean ====
section
/-! DEFINITION. The instructions: one constructor of `Instr` for each row of spec/opcode_table.json, with the prefixes,
the ModRM byte and the immediates as the bytes give them (30_encoding.md). -/

namespace Sys2Proof

/-- The legacy prefix bytes (rule R93). -/
inductive Legacy where
  | lock | repne | rep
  | es | cs | ss | ds | fs | gs
  | opSize | addrSize
deriving DecidableEq, Repr

/-- The four low bits of a REX prefix (rule R94). -/
structure Rex where
  w : Bool
  r : Bool
  x : Bool
  b : Bool
deriving DecidableEq, Repr

/-- Everything before the opcode: the legacy prefixes in the order written, then the REX prefix (rules R90, R98). -/
structure Pfx where
  legacy : List Legacy
  rex : Option Rex
deriving DecidableEq, Repr

/-- The SIB byte (rule R100). -/
structure Sib where
  scale : BitVec 2
  index : BitVec 3
  base : BitVec 3
deriving DecidableEq, Repr

/-- A displacement of 0, 1, 2 or 4 bytes (rules R104 to R106, R112). -/
inductive Disp where
  | none
  | d8 (v : BitVec 8)
  | d16 (v : BitVec 16)
  | d32 (v : BitVec 32)
deriving DecidableEq, Repr

/-- The ModRM byte and what it calls for (rules R99 to R106). -/
structure ModRM where
  mod : BitVec 2
  reg : BitVec 3
  rm : BitVec 3
  sib : Option Sib
  disp : Disp
deriving DecidableEq, Repr

/-- The operand-size attribute `OS` (rule R96). -/
inductive OpSize where
  | o16 | o32 | o64
deriving DecidableEq, Repr

/-- The address-size attribute `AS` (rule R97). -/
inductive AddrSize where
  | a16 | a32 | a64
deriving DecidableEq, Repr

/-- The instructions of the fragment on which a hint is recognised (rules R142, R143, R154), at an operand width. -/
inductive HintOp where
  | xadd (w : Width)
  | xchg (w : Width)
deriving DecidableEq, Repr

/-- The instruction that an XACQUIRE or XRELEASE prefix hints, with its whole prefix sequence (rule R141). -/
structure Hinted where
  op : HintOp
  p : Pfx
  m : ModRM
deriving DecidableEq, Repr

/-- The instructions of the fragment (rule R115), a constructor for each row of the opcode table. XACQUIRE and XRELEASE
are prefixes, not instructions (rule R141): their constructors hold the instruction they hint. -/
inductive Instr where
  | xacquire (h : Hinted)
  | xrelease (h : Hinted)
  | xabort (p : Pfx) (imm8 : BitVec 8)
  | xaddRm8 (p : Pfx) (m : ModRM)
  | xaddRm16 (p : Pfx) (m : ModRM)
  | xaddRm32 (p : Pfx) (m : ModRM)
  | xaddRm64 (p : Pfx) (m : ModRM)
  | xbeginRel16 (p : Pfx) (rel : BitVec 16)
  | xbeginRel32 (p : Pfx) (rel : BitVec 32)
  | xchgAcc16 (p : Pfx) (r : BitVec 3)
  | xchgAcc32 (p : Pfx) (r : BitVec 3)
  | xchgAcc64 (p : Pfx) (r : BitVec 3)
  | xchgRm8 (p : Pfx) (m : ModRM)
  | xchgRm16 (p : Pfx) (m : ModRM)
  | xchgRm32 (p : Pfx) (m : ModRM)
  | xchgRm64 (p : Pfx) (m : ModRM)
  | xend (p : Pfx)
  | xgetbv (p : Pfx)
  | xlat (p : Pfx)
deriving DecidableEq, Repr

/-- XADD at a width: the row of rule R115 that the width selects. -/
def Instr.xaddRm : Width → Pfx → ModRM → Instr
  | .w8 => .xaddRm8
  | .w16 => .xaddRm16
  | .w32 => .xaddRm32
  | .w64 => .xaddRm64

/-- XCHG with a ModRM byte at a width: the row of rule R115 that the width selects. -/
def Instr.xchgRm : Width → Pfx → ModRM → Instr
  | .w8 => .xchgRm8
  | .w16 => .xchgRm16
  | .w32 => .xchgRm32
  | .w64 => .xchgRm64

/-- XCHG with the accumulator at an operand size: the row of rule R115 that `OS` selects. -/
def Instr.xchgAcc : OpSize → Pfx → BitVec 3 → Instr
  | .o16 => .xchgAcc16
  | .o32 => .xchgAcc32
  | .o64 => .xchgAcc64

/-- The hinted instruction without its constructor for the hint: the same bytes (rule R148). -/
def Hinted.plain (h : Hinted) : Instr :=
  match h.op with
  | .xadd w => .xaddRm w h.p h.m
  | .xchg w => .xchgRm w h.p h.m

/-- The prefixes of an instruction. -/
def Instr.pfx : Instr → Pfx
  | .xacquire h | .xrelease h => h.p
  | .xabort p _ => p
  | .xaddRm8 p _ | .xaddRm16 p _ | .xaddRm32 p _ | .xaddRm64 p _ => p
  | .xbeginRel16 p _ | .xbeginRel32 p _ => p
  | .xchgAcc16 p _ | .xchgAcc32 p _ | .xchgAcc64 p _ => p
  | .xchgRm8 p _ | .xchgRm16 p _ | .xchgRm32 p _ | .xchgRm64 p _ => p
  | .xend p | .xgetbv p | .xlat p => p

end Sys2Proof
end

