-- ==== Sys2Proof/Machine/Attributes.lean ====
section
/-! DEFINITION. What an instruction's prefixes and ModRM byte say (30_encoding.md rules R92 to R106): the attributes `lock`,
`rep`, `seg`, `OS` and `AS`, the register numbers, what a ModRM byte calls for, and the length in bytes. -/

namespace Sys2Proof

/-- Which of the two hint bytes (rule R141). -/
inductive HintByte where
  | f2 | f3
deriving DecidableEq, Repr

/-- The hint byte that a legacy prefix is, if it is one (rule R141). -/
def Legacy.hint : Legacy → Option HintByte
  | .repne => some .f2
  | .rep => some .f3
  | _ => none

/-- The segment that a legacy prefix overrides to, if it is a segment override (rule R93). -/
def Legacy.seg : Legacy → Option Seg
  | .es => some .es
  | .cs => some .cs
  | .ss => some .ss
  | .ds => some .ds
  | .fs => some .fs
  | .gs => some .gs
  | _ => none

/-- The answer of `f` on the LAST prefix that has one (rules R93, R146). -/
def lastOf {α : Type} (f : Legacy → Option α) : List Legacy → Option α
  | [] => none
  | l :: ls => (lastOf f ls).orElse fun _ => f l

/-- Whether a legacy prefix is present. -/
def Pfx.has (p : Pfx) (l : Legacy) : Bool := p.legacy.contains l

/-- `lock`: any F0 present (rule R98). -/
def Pfx.lock (p : Pfx) : Bool := p.has .lock

/-- `rep`: the last of the F2 and F3 bytes present (rules R98, R146). -/
def Pfx.rep (p : Pfx) : Option HintByte := lastOf Legacy.hint p.legacy

/-- `seg`: the last segment override present (rules R93, R98). -/
def Pfx.seg (p : Pfx) : Option Seg := lastOf Legacy.seg p.legacy

/-- Whether any REX prefix is present: the `rex` argument of rules R22 to R24. -/
def Pfx.hasRex (p : Pfx) : Bool := p.rex.isSome

/-- REX.W, 0 when there is no REX prefix (rule R94). -/
def Pfx.rexW (p : Pfx) : Bool := p.rex.any (·.w)

/-- REX.R, 0 when there is no REX prefix (rule R102). -/
def Pfx.rexR (p : Pfx) : Bool := p.rex.any (·.r)

/-- REX.X, 0 when there is no REX prefix (rule R106). -/
def Pfx.rexX (p : Pfx) : Bool := p.rex.any (·.x)

/-- REX.B, 0 when there is no REX prefix (rule R103). -/
def Pfx.rexB (p : Pfx) : Bool := p.rex.any (·.b)

/-- The operand-size attribute `OS` (rule R96). -/
def CodeSize.opSize (c : CodeSize) (p : Pfx) : OpSize :=
  match c.mode with
  | .mode64 => if p.rexW then .o64 else if p.has .opSize then .o16 else .o32
  | .modeNon64 =>
    match c.csD with
    | .d16 => if p.has .opSize then .o32 else .o16
    | .d32 => if p.has .opSize then .o16 else .o32

/-- The address-size attribute `AS` (rule R97). -/
def CodeSize.addrSize (c : CodeSize) (p : Pfx) : AddrSize :=
  match c.mode with
  | .mode64 => if p.has .addrSize then .a32 else .a64
  | .modeNon64 =>
    match c.csD with
    | .d16 => if p.has .addrSize then .a32 else .a16
    | .d32 => if p.has .addrSize then .a16 else .a32

/-- The operand width that an operand size gives. -/
def OpSize.width : OpSize → Width
  | .o16 => .w16
  | .o32 => .w32
  | .o64 => .w64

/-- The number of bits of an address size. -/
def AddrSize.bits : AddrSize → Nat
  | .a16 => 16
  | .a32 => 32
  | .a64 => 64

/-- The width at which registers are read for an address of this size (rules R104 to R106). -/
def AddrSize.width : AddrSize → Width
  | .a16 => .w16
  | .a32 => .w32
  | .a64 => .w64

/-- A register number: a REX bit above a 3-bit field (rules R102, R103, R106). -/
def regNum (ext : Bool) (n : BitVec 3) : RegNum := BitVec.ofBool ext ++ n

/-- The register of ModRM:reg, `REX.R ++ reg` (rule R102). -/
def ModRM.regNum (m : ModRM) (p : Pfx) : RegNum := Sys2Proof.regNum p.rexR m.reg

/-- The register of ModRM:r/m when `mod = 3`, `REX.B ++ rm` (rule R103). -/
def ModRM.rmNum (m : ModRM) (p : Pfx) : RegNum := Sys2Proof.regNum p.rexB m.rm

/-- The r/m operand is memory: `mod != 3` (rule R99). -/
def ModRM.isMem (m : ModRM) : Bool := m.mod != 3#2

/-- The sizes a displacement can have. -/
inductive DispKind where
  | none | k8 | k16 | k32
deriving DecidableEq, Repr

/-- The size of a displacement. -/
def Disp.kind : Disp → DispKind
  | .none => .none
  | .d8 _ => .k8
  | .d16 _ => .k16
  | .d32 _ => .k32

/-- Whether a SIB byte follows: `AS` is 32 or 64, `mod != 3` and `rm = 4` (rule R100). -/
def needsSib (as : AddrSize) (mod : BitVec 2) (rm : BitVec 3) : Bool :=
  as != .a16 && mod != 3#2 && rm == 4#3

/-- The displacement that follows when `AS = 16` (rule R104). -/
def dispKind16 (mod : BitVec 2) (rm : BitVec 3) : DispKind :=
  if mod = 1#2 then .k8 else if mod = 2#2 then .k16 else if rm = 6#3 then .k16 else .none

/-- The displacement that follows when `AS` is 32 or 64 (rules R105, R106). -/
def dispKind32 (mod : BitVec 2) (rm : BitVec 3) (sib : Option Sib) : DispKind :=
  if mod = 1#2 then .k8
  else if mod = 2#2 then .k32
  else if (match sib with | some b => b.base == 5#3 | none => rm == 5#3) then .k32 else .none

/-- The displacement that a ModRM byte and its SIB byte call for (rules R104 to R106). -/
def dispKind (as : AddrSize) (mod : BitVec 2) (rm : BitVec 3) (sib : Option Sib) : DispKind :=
  if mod = 3#2 then .none
  else if as = .a16 then dispKind16 mod rm
  else dispKind32 mod rm sib

/-- The number of prefix bytes. -/
def Pfx.length (p : Pfx) : Nat := p.legacy.length + (if p.hasRex then 1 else 0)

/-- The number of displacement bytes. -/
def Disp.length : Disp → Nat
  | .none => 0
  | .d8 _ => 1
  | .d16 _ => 2
  | .d32 _ => 4

/-- The number of bytes of a ModRM byte with what it calls for. -/
def ModRM.length (m : ModRM) : Nat := 1 + (if m.sib.isSome then 1 else 0) + m.disp.length

/-- The opcode bytes of XADD are two, those of XCHG with ModRM one (rule R115). -/
def HintOp.opcodeLength : HintOp → Nat
  | .xadd _ => 2
  | .xchg _ => 1

/-- The length of an instruction in bytes (rule R92). -/
def Instr.length : Instr → Nat
  | .xacquire h | .xrelease h => h.p.length + h.op.opcodeLength + h.m.length
  | .xabort p _ => p.length + 3
  | .xaddRm8 p m | .xaddRm16 p m | .xaddRm32 p m | .xaddRm64 p m => p.length + 2 + m.length
  | .xbeginRel16 p _ => p.length + 4
  | .xbeginRel32 p _ => p.length + 6
  | .xchgAcc16 p _ | .xchgAcc32 p _ | .xchgAcc64 p _ => p.length + 1
  | .xchgRm8 p m | .xchgRm16 p m | .xchgRm32 p m | .xchgRm64 p m => p.length + 1 + m.length
  | .xend p | .xgetbv p => p.length + 3
  | .xlat p => p.length + 1

/-- The forms on which a LOCK prefix is accepted: XADD and XCHG with a memory operand (rule R121). -/
def Instr.lockable : Instr → Bool
  | .xacquire h | .xrelease h => h.m.isMem
  | .xaddRm8 _ m | .xaddRm16 _ m | .xaddRm32 _ m | .xaddRm64 _ m => m.isMem
  | .xchgRm8 _ m | .xchgRm16 _ m | .xchgRm32 _ m | .xchgRm64 _ m => m.isMem
  | .xabort .. | .xbeginRel16 .. | .xbeginRel32 .. => false
  | .xchgAcc16 .. | .xchgAcc32 .. | .xchgAcc64 .. => false
  | .xend .. | .xgetbv .. | .xlat .. => false

/-- A 66 prefix where it is #UD: before `0F 01 D5` (rule R224; log entry 52). -/
def Instr.opSizeIllegal : Instr → Bool
  | .xend p => p.has .opSize
  | .xacquire .. | .xrelease .. | .xabort .. | .xaddRm8 .. | .xaddRm16 .. | .xaddRm32 .. | .xaddRm64 .. => false
  | .xbeginRel16 .. | .xbeginRel32 .. | .xchgAcc16 .. | .xchgAcc32 .. | .xchgAcc64 .. => false
  | .xchgRm8 .. | .xchgRm16 .. | .xchgRm32 .. | .xchgRm64 .. | .xgetbv .. | .xlat .. => false

/-- Whether the operand and LOCK conditions for a hint hold (rules R142 to R144, R147): a memory operand, and for XADD a
LOCK prefix. -/
def Hinted.eligible (h : Hinted) : Bool :=
  h.m.isMem && (match h.op with | .xadd _ => h.p.lock | .xchg _ => true)

/-- An instruction as one that a hint may apply to, whatever its operands (rule R154). -/
def Instr.asHinted : Instr → Option Hinted
  | .xaddRm8 p m => some { op := .xadd .w8, p, m }
  | .xaddRm16 p m => some { op := .xadd .w16, p, m }
  | .xaddRm32 p m => some { op := .xadd .w32, p, m }
  | .xaddRm64 p m => some { op := .xadd .w64, p, m }
  | .xchgRm8 p m => some { op := .xchg .w8, p, m }
  | .xchgRm16 p m => some { op := .xchg .w16, p, m }
  | .xchgRm32 p m => some { op := .xchg .w32, p, m }
  | .xchgRm64 p m => some { op := .xchg .w64, p, m }
  | .xacquire _ | .xrelease _ | .xabort .. | .xbeginRel16 .. | .xbeginRel32 .. => none
  | .xchgAcc16 .. | .xchgAcc32 .. | .xchgAcc64 .. | .xend .. | .xgetbv .. | .xlat .. => none

/-- The instruction that a hint byte makes of a hinted instruction (rule R147). -/
def HintByte.wrap : HintByte → Hinted → Instr
  | .f2 => .xacquire
  | .f3 => .xrelease

end Sys2Proof
end

