-- ==== Sys2Proof/WellFormed.lean ====
section
/-! DEFINITION. Which terms of `Instr` are instructions: the checks that the decoder's output passes, for a given `MODE` and
`CS_D` (30_encoding.md). -/

namespace Sys2Proof

/-- A REX prefix exists only in 64-bit mode (rules R94, R122). -/
def Pfx.wf (c : CodeSize) (p : Pfx) : Bool := c.mode == .mode64 || !p.hasRex

/-- The SIB byte and the displacement are those the ModRM byte calls for (rules R100, R104 to R106). -/
def ModRM.wf (as : AddrSize) (m : ModRM) : Bool :=
  m.sib.isSome == needsSib as m.mod m.rm && m.disp.kind == dispKind as m.mod m.rm m.sib

/-- The operand width is the one that the attributes select: 8-bit rows at any `OS`, the others at theirs (rules R96, R115). -/
def widthOk (c : CodeSize) (p : Pfx) (w : Width) : Bool := w == .w8 || w == (c.opSize p).width

/-- The operands of XADD and XCHG with a ModRM byte. -/
def rmOk (c : CodeSize) (p : Pfx) (m : ModRM) (w : Width) : Bool :=
  m.wf (c.addrSize p) && widthOk c p w

/-- The operand width of a hinted instruction. -/
def HintOp.width : HintOp → Width
  | .xadd w => w
  | .xchg w => w

/-- The operands are ones that the encoding of the row can hold, at the attributes that the prefixes give (rule R115). -/
def Instr.operandsOk (c : CodeSize) (i : Instr) : Bool :=
  match i with
  | .xacquire h | .xrelease h => rmOk c h.p h.m h.op.width
  | .xabort .. | .xend .. | .xgetbv .. | .xlat .. => true
  | .xaddRm8 p m | .xchgRm8 p m => rmOk c p m .w8
  | .xaddRm16 p m | .xchgRm16 p m => rmOk c p m .w16
  | .xaddRm32 p m | .xchgRm32 p m => rmOk c p m .w32
  | .xaddRm64 p m | .xchgRm64 p m => rmOk c p m .w64
  | .xbeginRel16 p _ => c.opSize p == .o16
  | .xbeginRel32 p _ => c.opSize p != .o16
  | .xchgAcc16 p _ => c.opSize p == .o16
  | .xchgAcc32 p _ => c.opSize p == .o32
  | .xchgAcc64 p _ => c.opSize p == .o64

/-- Where LOCK, 66, F2 and F3 may stand: LOCK on the forms that accept it (rule R121); 66 on all but XEND (rule R224); F2 or F3 only as the hint that the
constructor names, on an instruction that meets the conditions of rule R147 (rule R153). -/
def Instr.prefixesOk (i : Instr) : Bool :=
  match i with
  | .xacquire h => h.eligible && h.p.rep == some .f2
  | .xrelease h => h.eligible && h.p.rep == some .f3
  | .xabort .. | .xaddRm8 .. | .xaddRm16 .. | .xaddRm32 .. | .xaddRm64 .. | .xbeginRel16 .. | .xbeginRel32 ..
  | .xchgAcc16 .. | .xchgAcc32 .. | .xchgAcc64 .. | .xchgRm8 .. | .xchgRm16 .. | .xchgRm32 .. | .xchgRm64 ..
  | .xend .. | .xgetbv .. | .xlat .. => (!i.pfx.lock || i.lockable) && !i.opSizeIllegal && i.pfx.rep == none

/-- A term of `Instr` that is an instruction in this mode: at most 15 bytes (rule R90). -/
def Instr.wf (c : CodeSize) (i : Instr) : Bool :=
  i.pfx.wf c && i.operandsOk c && i.prefixesOk && decide (i.length ≤ 15)

end Sys2Proof
end

