-- ==== Sys2Proof/Decode.lean ====
section
/-! DEFINITION. The decoder, total on any bytes (30_encoding.md), and after it the encoder, written from the same tables. -/

namespace Sys2Proof

/-- Why the decoder refuses bytes. Each is safe: the model declines to speak. -/
inductive DecodeRefusal where
  /-- Bytes that are no instruction of the fragment (rules R95, R116, R123). -/
  | notInFragment
  /-- A REX byte that does not stand immediately before the opcode (rule R94). -/
  | rexNotLast
  /-- An instruction longer than 15 bytes (rule R90). -/
  | tooLong
  /-- F2 or F3 before an instruction of the fragment on which it is no hint: "Undefined" (rules R120, R153). -/
  | hintUndefined
deriving DecidableEq, Repr

/-- What the decoder answers. -/
inductive Decoded where
  /-- An instruction. -/
  | ok (i : Instr)
  /-- The bytes end before the instruction does. -/
  | more
  /-- #UD at decode (rules R121, R224, R252). -/
  | ud
  /-- The bytes are refused by name. -/
  | refuse (r : DecodeRefusal)
deriving DecidableEq, Repr

/-- The legacy prefix that a byte is (rule R93). -/
def Legacy.ofByte (b : Byte) : Option Legacy :=
  if b = 0xF0#8 then some .lock
  else if b = 0xF2#8 then some .repne
  else if b = 0xF3#8 then some .rep
  else if b = 0x26#8 then some .es
  else if b = 0x2E#8 then some .cs
  else if b = 0x36#8 then some .ss
  else if b = 0x3E#8 then some .ds
  else if b = 0x64#8 then some .fs
  else if b = 0x65#8 then some .gs
  else if b = 0x66#8 then some .opSize
  else if b = 0x67#8 then some .addrSize
  else none

/-- The byte of a legacy prefix (rule R93). -/
def Legacy.byte : Legacy → Byte
  | .lock => 0xF0#8
  | .repne => 0xF2#8
  | .rep => 0xF3#8
  | .es => 0x26#8
  | .cs => 0x2E#8
  | .ss => 0x36#8
  | .ds => 0x3E#8
  | .fs => 0x64#8
  | .gs => 0x65#8
  | .opSize => 0x66#8
  | .addrSize => 0x67#8

/-- A byte that is a REX prefix in 64-bit mode: `0100 W R X B` (rule R94). -/
def isRexByte (b : Byte) : Bool := b.extractLsb' 4 4 == 0b0100#4

/-- The four bits of a REX byte (rule R94). -/
def Rex.ofByte (b : Byte) : Rex where
  w := b.getLsbD 3
  r := b.getLsbD 2
  x := b.getLsbD 1
  b := b.getLsbD 0

/-- The byte of a REX prefix (rule R94). -/
def Rex.byte (x : Rex) : Byte :=
  0b0100#4 ++ BitVec.ofBool x.w ++ BitVec.ofBool x.r ++ BitVec.ofBool x.x ++ BitVec.ofBool x.b

/-- Splits off the leading legacy prefixes (rule R93). -/
def takeLegacy : List Byte → List Legacy × List Byte
  | [] => ([], [])
  | b :: bs =>
    match Legacy.ofByte b with
    | some l => let (ls, rest) := takeLegacy bs; (l :: ls, rest)
    | none => ([], b :: bs)

/-- Splits off a REX prefix, which exists in 64-bit mode only (rule R94). -/
def takeRex (mode : Mode) : List Byte → Option Rex × List Byte
  | [] => (none, [])
  | b :: bs => if mode = .mode64 ∧ isRexByte b then (some (Rex.ofByte b), bs) else (none, b :: bs)

/-- Two bytes, the lower first (rule R62). -/
def join16 (b0 b1 : Byte) : BitVec 16 := b1 ++ b0

/-- Four bytes, the lowest first (rule R62). -/
def join32 (b0 b1 b2 b3 : Byte) : BitVec 32 := b3 ++ b2 ++ b1 ++ b0

/-- Reads a displacement of the given size, little-endian (rule R112); `none` when the bytes run out. -/
def takeDisp (k : DispKind) (bs : List Byte) : Option (Disp × List Byte) :=
  match k, bs with
  | .none, bs => some (.none, bs)
  | .k8, b :: bs => some (.d8 b, bs)
  | .k16, b0 :: b1 :: bs => some (.d16 (join16 b0 b1), bs)
  | .k32, b0 :: b1 :: b2 :: b3 :: bs => some (.d32 (join32 b0 b1 b2 b3), bs)
  | _, _ => none

/-- The fields of a SIB byte (rule R100). -/
def Sib.ofByte (b : Byte) : Sib where
  scale := b.extractLsb' 6 2
  index := b.extractLsb' 3 3
  base := b.extractLsb' 0 3

/-- Reads a SIB byte where the ModRM byte calls for one; `none` when the bytes run out. -/
def takeSib (need : Bool) (bs : List Byte) : Option (Option Sib × List Byte) :=
  match need, bs with
  | false, bs => some (none, bs)
  | true, b :: bs => some (some (Sib.ofByte b), bs)
  | true, [] => none

/-- Reads a ModRM byte, its SIB byte and its displacement (rules R99 to R106); `none` when the bytes run out. -/
def takeModRM (as : AddrSize) : List Byte → Option (ModRM × List Byte)
  | [] => none
  | b :: bs =>
    let mod := b.extractLsb' 6 2
    let reg := b.extractLsb' 3 3
    let rm := b.extractLsb' 0 3
    match takeSib (needsSib as mod rm) bs with
    | none => none
    | some (sib, bs1) =>
      match takeDisp (dispKind as mod rm sib) bs1 with
      | none => none
      | some (disp, bs2) => some ({ mod, reg, rm, sib, disp }, bs2)

/-- An instruction with a ModRM byte. -/
def withModRM (as : AddrSize) (bs : List Byte) (f : ModRM → Instr) : Decoded :=
  match takeModRM as bs with
  | some (m, _) => .ok (f m)
  | none => .more

/-- After C6: XABORT is `C6 F8 ib` (rules R115, R116). -/
def decodeC6 (p : Pfx) : List Byte → Decoded
  | [] => .more
  | b :: bs =>
    if b = 0xF8#8 then
      match bs with
      | [] => .more
      | imm :: _ => .ok (.xabort p imm)
    else .refuse .notInFragment

/-- After C7: XBEGIN is `C7 F8` with `rel16` when `OS = 16`, else `rel32` (rules R111, R115, R116). -/
def decodeC7 (c : CodeSize) (p : Pfx) : List Byte → Decoded
  | [] => .more
  | b :: bs =>
    if b = 0xF8#8 then
      match c.opSize p, bs with
      | .o16, b0 :: b1 :: _ => .ok (.xbeginRel16 p (join16 b0 b1))
      | .o32, b0 :: b1 :: b2 :: b3 :: _ => .ok (.xbeginRel32 p (join32 b0 b1 b2 b3))
      | .o64, b0 :: b1 :: b2 :: b3 :: _ => .ok (.xbeginRel32 p (join32 b0 b1 b2 b3))
      | _, _ => .more
    else .refuse .notInFragment

/-- After 0F 01: XGETBV is `0F 01 D0`, XEND `0F 01 D5` (rules R101, R115, R116). -/
def decode0F01 (p : Pfx) : List Byte → Decoded
  | [] => .more
  | b :: _ =>
    if b = 0xD0#8 then .ok (.xgetbv p)
    else if b = 0xD5#8 then .ok (.xend p)
    else .refuse .notInFragment

/-- After 0F: XADD is `0F C0 /r` and `0F C1 /r`; `0F 01` goes on (rule R115). -/
def decode0F (c : CodeSize) (p : Pfx) : List Byte → Decoded
  | [] => .more
  | b :: bs =>
    if b = 0xC0#8 then withModRM (c.addrSize p) bs (Instr.xaddRm .w8 p)
    else if b = 0xC1#8 then withModRM (c.addrSize p) bs (Instr.xaddRm (c.opSize p).width p)
    else if b = 0x01#8 then decode0F01 p bs
    else .refuse .notInFragment

/-- A VEX prefix (C4 or C5): #UD after F2, F3, 66, F0 or REX, else outside the fragment (rules R95, R252). Where it is the sixteenth
byte or a later one, the bytes are too long (rules R90, R256 step (1a)). -/
def decodeVex (p : Pfx) : Decoded :=
  if 15 ≤ p.length then .refuse .tooLong
  else if p.rep.isSome || p.has .opSize || p.lock || p.hasRex then .ud else .refuse .notInFragment

/-- The opcode map of the fragment (rule R115), after the prefixes `p`. -/
def decodeOp (c : CodeSize) (p : Pfx) : List Byte → Decoded
  | [] => .more
  | b :: bs =>
    if b = 0xC6#8 then decodeC6 p bs
    else if b = 0xC7#8 then decodeC7 c p bs
    else if b = 0x0F#8 then decode0F c p bs
    else if b = 0x86#8 then withModRM (c.addrSize p) bs (Instr.xchgRm .w8 p)
    else if b = 0x87#8 then withModRM (c.addrSize p) bs (Instr.xchgRm (c.opSize p).width p)
    else if b.extractLsb' 3 5 = 0b10010#5 then .ok (Instr.xchgAcc (c.opSize p) p (b.extractLsb' 0 3))
    else if b = 0xD7#8 then .ok (.xlat p)
    else if b = 0xC4#8 ∨ b = 0xC5#8 then decodeVex p
    else if p.hasRex ∧ ((Legacy.ofByte b).isSome ∨ isRexByte b) then .refuse .rexNotLast
    else .refuse .notInFragment

/-- The checks on a whole instruction, in the order of rule R256 step (1): its length, an illegal LOCK or an illegal 66, an F2 or
F3 that is no hint. A recognised hint makes the instruction XACQUIRE- or XRELEASE-enabled (rule R147). -/
def checkPrefixes (i : Instr) : Decoded :=
  if 15 < i.length then .refuse .tooLong
  else if (i.pfx.lock && !i.lockable) || i.opSizeIllegal then .ud
  else
    match i.pfx.rep with
    | none => .ok i
    | some b =>
      match i.asHinted with
      | some h => if h.eligible then .ok (b.wrap h) else .refuse .hintUndefined
      | none => .refuse .hintUndefined

/-- A further check on an instruction; the other answers stand. -/
def Decoded.checked (check : Instr → Decoded) : Decoded → Decoded
  | .ok i => check i
  | .more => .more
  | .ud => .ud
  | .refuse r => .refuse r

/-- The decoder (rules R90 to R98, R115): the instruction at the head of the bytes. -/
def decode (c : CodeSize) (bytes : List Byte) : Decoded :=
  let (ls, bs1) := takeLegacy bytes
  let (rex, bs2) := takeRex c.mode bs1
  (decodeOp c { legacy := ls, rex := rex } bs2).checked checkPrefixes

/-! The encoder. -/

/-- The prefix bytes (rules R90, R93, R94). -/
def Pfx.bytes (p : Pfx) : List Byte :=
  p.legacy.map Legacy.byte ++ p.rex.toList.map Rex.byte

/-- Two bytes of a 16-bit value, the lower first (rule R62). -/
def split16 (v : BitVec 16) : List Byte := [v.extractLsb' 0 8, v.extractLsb' 8 8]

/-- Four bytes of a 32-bit value, the lowest first (rule R62). -/
def split32 (v : BitVec 32) : List Byte :=
  [v.extractLsb' 0 8, v.extractLsb' 8 8, v.extractLsb' 16 8, v.extractLsb' 24 8]

/-- The SIB byte (rule R100). -/
def Sib.byte (s : Sib) : Byte := s.scale ++ s.index ++ s.base

/-- The displacement bytes, little-endian (rule R112). -/
def Disp.bytes : Disp → List Byte
  | .none => []
  | .d8 v => [v]
  | .d16 v => split16 v
  | .d32 v => split32 v

/-- The ModRM byte (rule R99). -/
def ModRM.byte (m : ModRM) : Byte := m.mod ++ m.reg ++ m.rm

/-- The ModRM byte, its SIB byte and its displacement (rule R90). -/
def ModRM.bytes (m : ModRM) : List Byte :=
  m.byte :: (m.sib.toList.map Sib.byte ++ m.disp.bytes)

/-- The opcode bytes of a hinted instruction (rule R115). -/
def HintOp.opcode : HintOp → List Byte
  | .xadd .w8 => [0x0F#8, 0xC0#8]
  | .xadd _ => [0x0F#8, 0xC1#8]
  | .xchg .w8 => [0x86#8]
  | .xchg _ => [0x87#8]

/-- The byte `90 + r` (rule R206). -/
def accByte (r : BitVec 3) : Byte := 0b10010#5 ++ r

/-- The bytes of an instruction (rule R115); for an XACQUIRE- or XRELEASE-enabled instruction its prefixes hold the hint byte. -/
def encode : Instr → List Byte
  | .xacquire h | .xrelease h => h.p.bytes ++ h.op.opcode ++ h.m.bytes
  | .xabort p imm8 => p.bytes ++ [0xC6#8, 0xF8#8, imm8]
  | .xaddRm8 p m => p.bytes ++ [0x0F#8, 0xC0#8] ++ m.bytes
  | .xaddRm16 p m | .xaddRm32 p m | .xaddRm64 p m => p.bytes ++ [0x0F#8, 0xC1#8] ++ m.bytes
  | .xbeginRel16 p rel => p.bytes ++ [0xC7#8, 0xF8#8] ++ split16 rel
  | .xbeginRel32 p rel => p.bytes ++ [0xC7#8, 0xF8#8] ++ split32 rel
  | .xchgAcc16 p r | .xchgAcc32 p r | .xchgAcc64 p r => p.bytes ++ [accByte r]
  | .xchgRm8 p m => p.bytes ++ [0x86#8] ++ m.bytes
  | .xchgRm16 p m | .xchgRm32 p m | .xchgRm64 p m => p.bytes ++ [0x87#8] ++ m.bytes
  | .xend p => p.bytes ++ [0x0F#8, 0x01#8, 0xD5#8]
  | .xgetbv p => p.bytes ++ [0x0F#8, 0x01#8, 0xD0#8]
  | .xlat p => p.bytes ++ [0xD7#8]

/-! Words numbered as the opcode table numbers them. -/

/-- The bytes of a number, the least significant first, at most `k` of them and none above the last that is not 0. -/
def lowBytes : Nat → Nat → List Byte
  | 0, _ => []
  | k + 1, w => if w = 0 then [] else BitVec.ofNat 8 w :: lowBytes k (w / 256)

/-- The longest instruction, in bytes (rule R90). -/
def maxLength : Nat := 15

/-- The bytes of an instruction given as a word of the opcode table. Rule R119: the table reads the opcode bytes as ONE number
"with the first opcode byte most significant", so the most significant byte that is not 0 comes first (no row's first byte
is 0); every byte after the word's last one is 0, up to the longest instruction (log entry 37). -/
def tableBytes (nbits w : Nat) : List Byte :=
  let opcode := (lowBytes ((nbits + 7) / 8) w).reverse
  opcode ++ List.replicate (maxLength - opcode.length) 0#8

/-- The instruction the decoder reads from a word of the opcode table, in the mode of `State.reset`. -/
def decodeTableWord (nbits w : Nat) : Option Instr :=
  match decode Config.resetCode (tableBytes nbits w) with
  | .ok i => some i
  | _ => none

end Sys2Proof
end

