-- ==== Sys2Proof/Machine/State.lean ====
section
/-! DEFINITION. The state of one logical processor and of what it shares (10_state.md), the reasons a step can stop, and the
state after reset. -/

namespace Sys2Proof.Machine

/-- The six status flags (rule R32). -/
structure Flags where
  cf : Bool
  pf : Bool
  af : Bool
  zf : Bool
  sf : Bool
  of : Bool
deriving DecidableEq, Repr

/-- The sixteen general registers, by number (rule R20). -/
abbrev RegFile := Vector Word 16

/-- Memory (rule R48): byte addresses with their bytes, addresses strictly rising, no byte listed that equals what an
unlisted address reads as (`Memory.wf`, log entry 6). -/
abbrev Memory := List Host.Cell

/-- `rtm_saved` (rule R45): the registers as the outermost XBEGIN found them. -/
structure Saved where
  regs : RegFile
  flags : Flags
  xcr0 : Word
deriving DecidableEq, Repr

/-- Where the spec's `draw` (rule R8) comes from: values already chosen, then `Config.draw` applied to the count of draws.
The MODEL's own (log entry 7). -/
structure Draws where
  given : List Word
  count : Nat
deriving DecidableEq, Repr

/-- The state of the machine: INVENTORY.md lists every field with the rule that names it. -/
structure State where
  /-- `x[0]` to `x[15]` (rule R20). -/
  regs : RegFile
  /-- RIP or EIP (rule R30). -/
  pc : Word
  /-- The status flags (rule R32). -/
  flags : Flags
  /-- XCR0 (rule R37). -/
  xcr0 : Word
  /-- `RTM_ACTIVE` (rule R42). -/
  rtmActive : Bool
  /-- `RTM_NEST_COUNT` (rule R43). -/
  rtmNest : Nat
  /-- `fallbackRIP` or `fallbackEIP` (rule R44); `none` is the spec's "no value". -/
  fallback : Option Word
  /-- `rtm_saved` (rule R45); `none` is the spec's "empty". -/
  rtmSaved : Option Saved
  /-- The write set (rules R46, R76): addresses strictly rising. -/
  writeSet : List Host.Cell
  /-- The read set (rules R46, R75): addresses strictly rising. -/
  readSet : List Host.Cell
  /-- `hle_elided` (rule R47). -/
  hleElided : Option Word
  /-- Memory, shared with the other logical processors (rule R48). -/
  mem : Memory
  /-- The store buffer of the total-store-order alternative (rule R80), the oldest byte first: the stores of this processor that
  have not reached shared memory (log entry 53). -/
  storeBuffer : List Host.Cell
  /-- The launch parameters (rule R6), which no step changes (log entry 5). -/
  params : Params
  /-- The stores of other logical processors that have not landed yet, in batches; the MODEL's own (log entry 10). -/
  bus : List (List Host.Cell)
  /-- The source of free values; the MODEL's own (log entry 7). -/
  draws : Draws
deriving DecidableEq, Repr

/-- Why a step stops with a fault. -/
inductive Fault where
  /-- An exception (rule R255): `raise E(code)` with the pc of the faulting instruction. Raised by decoding, by the fetch and
  by every instruction as rule R254 says. Terminal: the spec gives no handler entry (rule R257). Safe. -/
  | exception (exc : Exc) (code : Option (BitVec 32)) (pc : Word)
  /-- RTM abort processing without a saved register state or a fallback address. Raised by `rtmAbort` only, in states that
  no run from a launch state reaches (rule R164 has `RTM_ACTIVE = 1` as its precondition; log entry 36). Safe. -/
  | abortWithoutRecord
deriving DecidableEq, Repr

/-- Why the model refuses to go on. -/
inductive Refusal where
  /-- No meaning yet: raised by an arm of `exec` only. Safe. No arm of this model answers it. -/
  | notModelled (mnemonic : String)
  /-- Bytes that the decoder refuses (rules R90, R94, R120, R123). Raised by the fetch. Safe. -/
  | undecodable (r : DecodeRefusal)
  /-- An instruction whose bytes would cross the top of the address space (rule R31). Raised by the fetch. Safe. -/
  | fetchWraps
  /-- A store, this processor's or another's, to a byte of the program text (rule R83). Raised by XADD, XCHG and their hinted
  forms, and by the step for another processor's store. Safe. -/
  | storeToText
deriving DecidableEq, Repr

/-- The answer of an instruction or of a step. -/
abbrev Result := Host.Outcome State Fault Refusal

/-- The state at launch (rules R49, R280 to R282). The spec gives no reset value for the registers, the flags, the pc, XCR0
and memory: log entries 1, 2, 3, 4 and 6 name the model's (unsafe). -/
def State.reset : State where
  regs := Vector.replicate 16 0#64
  pc := 0x400000#64
  flags := { cf := false, pf := false, af := false, zf := false, sf := false, of := false }
  xcr0 := 1#64
  rtmActive := false
  rtmNest := 0
  fallback := none
  rtmSaved := none
  writeSet := []
  readSet := []
  hleElided := none
  mem := []
  storeBuffer := []
  params := Config.resetParams
  bus := []
  draws := { given := [], count := 0 }

end Sys2Proof.Machine
end

