-- ==== Sys2Proof/Machine/Updates.lean ====
section
/-! DEFINITION. One update per field of State: every operation and every meaning changes the state through these. -/

namespace Sys2Proof.Machine

variable (s : State)

/-- The state with `regs` replaced. -/
def State.setRegs (v : RegFile) : State := { s with regs := v }

/-- The state with `pc` replaced. -/
def State.setPc (v : Word) : State := { s with pc := v }

/-- The state with `flags` replaced. -/
def State.setFlags (v : Flags) : State := { s with flags := v }

/-- The state with `xcr0` replaced. -/
def State.setXcr0 (v : Word) : State := { s with xcr0 := v }

/-- The state with `rtmActive` replaced. -/
def State.setActive (v : Bool) : State := { s with rtmActive := v }

/-- The state with `rtmNest` replaced. -/
def State.setNest (v : Nat) : State := { s with rtmNest := v }

/-- The state with `fallback` replaced. -/
def State.setFallback (v : Option Word) : State := { s with fallback := v }

/-- The state with `rtmSaved` replaced. -/
def State.setSaved (v : Option Saved) : State := { s with rtmSaved := v }

/-- The state with `writeSet` replaced. -/
def State.setWriteSet (v : List Host.Cell) : State := { s with writeSet := v }

/-- The state with `readSet` replaced. -/
def State.setReadSet (v : List Host.Cell) : State := { s with readSet := v }

/-- The state with `hleElided` replaced. -/
def State.setElided (v : Option Word) : State := { s with hleElided := v }

/-- The state with `mem` replaced. -/
def State.setMem (v : Memory) : State := { s with mem := v }

/-- The state with `storeBuffer` replaced. -/
def State.setBuffer (v : List Host.Cell) : State := { s with storeBuffer := v }

/-- The state with `bus` replaced. -/
def State.setBus (v : List (List Host.Cell)) : State := { s with bus := v }

/-- The state with `draws` replaced. -/
def State.setDraws (v : Draws) : State := { s with draws := v }

end Sys2Proof.Machine
end

