-- ==== Sys2Proof/Machine/Memory.lean ====
section
/-! DEFINITION. Memory and the transactional sets as lists of cells in one canonical form (rules R46, R48), and the one place
where byte order is decided (rules R62, R63). -/

namespace Sys2Proof.Machine

/-- The byte listed at an address, if one is. -/
def Cells.lookup : List Host.Cell → Nat → Option Byte
  | [], _ => none
  | c :: cs, a => if c.1 = a then some c.2 else Cells.lookup cs a

/-- The byte last listed at an address, in a list of stores in the order made. -/
def Cells.newest : List Host.Cell → Nat → Option Byte
  | [], _ => none
  | c :: cs, a => (Cells.newest cs a).or (if c.1 = a then some c.2 else none)

/-- Lists a byte at an address, in its place in the rising order. -/
def Cells.put : List Host.Cell → Nat → Byte → List Host.Cell
  | [], a, b => [(a, b)]
  | c :: cs, a, b =>
    if a < c.1 then (a, b) :: c :: cs
    else if a = c.1 then (a, b) :: cs
    else c :: Cells.put cs a b

/-- Unlists an address. -/
def Cells.erase (cs : List Host.Cell) (a : Nat) : List Host.Cell := cs.filter (fun c => c.1 != a)

/-- Addresses strictly rising. -/
abbrev Cells.rising (cs : List Host.Cell) : Prop := cs.Pairwise (fun x y => x.1 < y.1)

/-- What a byte of memory that nothing has written reads as. DESIGN CHOICE, unsafe (log entry 6): rule R49 leaves memory to
the launch state. -/
def Memory.unlisted : Byte := 0#8

/-- The byte of memory at an address (rule R48). -/
def Memory.read (m : Memory) (a : Nat) : Byte := (Cells.lookup m a).getD Memory.unlisted

/-- Memory with a byte written, in canonical form. -/
def Memory.write (m : Memory) (a : Nat) (b : Byte) : Memory :=
  if b = Memory.unlisted then Cells.erase m a else Cells.put m a b

/-- Memory with every listed byte written, in the order listed. -/
def Memory.writeAll (m : Memory) (cs : List Host.Cell) : Memory :=
  cs.foldl (fun m c => m.write c.1 c.2) m

/-- The canonical form: addresses strictly rising, nothing listed that an unlisted address reads as. -/
abbrev Memory.wf (m : Memory) : Prop := Cells.rising m ∧ ∀ c ∈ m, c.2 ≠ Memory.unlisted

/-- The value of bytes, the one at the lowest address first and least significant (rule R62). -/
def joinBytes : List Byte → Word
  | [] => 0
  | b :: bs => (joinBytes bs <<< 8) ||| b.setWidth 64

/-- The low `n` bytes of a value, the least significant first (rule R63). -/
def splitBytes : Nat → Word → List Byte
  | 0, _ => []
  | n + 1, v => v.setWidth 8 :: splitBytes n (v >>> 8)

end Sys2Proof.Machine
end

