-- ==== Sys2Proof/Machine/Flags.lean ====
section
/-! DEFINITION. The flags of an addition (rule R33). -/

namespace Sys2Proof.Machine

/-- The sum modulo 2^w (rules R33, R178). -/
def addValue (w : Width) (a b : Word) : Word := (a + b).low w.bits

/-- An even number of 1 bits in the low byte (rule R33). -/
def evenParity (r : Word) : Bool :=
  !(r.getLsbD 0 ^^ r.getLsbD 1 ^^ r.getLsbD 2 ^^ r.getLsbD 3 ^^ r.getLsbD 4 ^^ r.getLsbD 5 ^^ r.getLsbD 6 ^^ r.getLsbD 7)

/-- The six flags of the addition of the `w`-bit values `a` and `b` (rule R33). -/
def addFlags (w : Width) (a b : Word) : Flags :=
  let r := addValue w a b
  { cf := decide (2 ^ w.bits ≤ a.toNat + b.toNat)
    pf := evenParity r
    af := decide (16 ≤ a.toNat % 16 + b.toNat % 16)
    zf := r == 0
    sf := r.getLsbD (w.bits - 1)
    of := a.getLsbD (w.bits - 1) == b.getLsbD (w.bits - 1) && r.getLsbD (w.bits - 1) != a.getLsbD (w.bits - 1) }

end Sys2Proof.Machine
end

