-- ==== Sys2Proof/Machine/Operands.lean ====
section
/-! DEFINITION. Register operands at every width (10_state.md rules R20 to R24) and memory operands in every form
(30_encoding.md rules R104 to R108, 20_memory.md rules R60, R65, R66, 47_xlat.md rule R241). -/

namespace Sys2Proof.Machine

/-! Registers. -/

/-- `x[n]` (rule R8). -/
def State.getReg (s : State) (n : RegNum) : Word := s.regs[n.toNat]'n.isLt

/-- `x[n] <- v` (rule R8). -/
def State.setReg (s : State) (n : RegNum) (v : Word) : State := s.setRegs (s.regs.set n.toNat v n.isLt)

/-- An 8-bit register number that selects AH, CH, DH or BH: 4 to 7 with no REX prefix (rule R22). -/
def isHighByte (n : RegNum) (rex : Bool) : Bool := !rex && decide (4 ≤ n.toNat) && decide (n.toNat ≤ 7)

/-- The general register that holds the operand `Reg(w, n, rex)`: registers 0 to 3 for AH, CH, DH and BH (rule R22). -/
def homeReg (w : Width) (n : RegNum) (rex : Bool) : RegNum := if w = .w8 ∧ isHighByte n rex then n - 4 else n

/-- The bits of a register that an operand of width `w` reads, zero-extended; `high` for AH, CH, DH, BH (rule R23). -/
def pickBits (w : Width) (high : Bool) (x : Word) : Word :=
  match w with
  | .w64 => x
  | .w32 => x.low 32
  | .w16 => x.low 16
  | .w8 => if high then Word.low 8 (x >>> 8) else x.low 8

/-- A word with its bits 15:0 replaced. -/
def withLow16 (old v : Word) : Word := old.extractLsb' 16 48 ++ v.extractLsb' 0 16

/-- A word with its bits 7:0 replaced. -/
def withLow8 (old v : Word) : Word := old.extractLsb' 8 56 ++ v.extractLsb' 0 8

/-- A word with its bits 15:8 replaced by the low byte of `v`. -/
def withHigh8 (old v : Word) : Word := old.extractLsb' 16 48 ++ v.extractLsb' 0 8 ++ old.extractLsb' 0 8

/-- A register after a write of `v` at width `w`: 32 bits clear the upper half, 16 and 8 bits keep the rest (rule R24). -/
def mergeBits (w : Width) (high : Bool) (old v : Word) : Word :=
  match w with
  | .w64 => v
  | .w32 => v.low 32
  | .w16 => withLow16 old v
  | .w8 => if high then withHigh8 old v else withLow8 old v

/-- `Reg(w, n, rex)`, zero-extended (rule R23). -/
def State.readReg (s : State) (w : Width) (n : RegNum) (rex : Bool) : Word :=
  pickBits w (isHighByte n rex) (s.getReg (homeReg w n rex))

/-- `Reg(w, n, rex) <- v` (rule R24). -/
def State.writeReg (s : State) (w : Width) (n : RegNum) (rex : Bool) (v : Word) : State :=
  s.setReg (homeReg w n rex) (mergeBits w (isHighByte n rex) (s.getReg (homeReg w n rex)) v)

/-! Addresses. -/

/-- The width of linear addresses and of the instruction pointer (rules R30, R60). -/
def Mode.linearBits : Mode → Nat
  | .mode64 => 64
  | .modeNon64 => 32

/-- `MODE`. -/
def State.mode (s : State) : Mode := s.params.code.mode

/-- A value modulo 2^L, L the linear-address width (rule R60). -/
def State.wrap (s : State) (v : Word) : Word := v.low (Mode.linearBits s.mode)

/-- `next_pc` of an instruction of `len` bytes (rule R31). -/
def State.nextPc (s : State) (len : Nat) : Word := s.wrap (s.pc + BitVec.ofNat 64 len)

/-- A segment's base as given. -/
def segBaseOf (b : SegBases) : Seg → Word
  | .es => b.es
  | .cs => b.cs
  | .ss => b.ss
  | .ds => b.ds
  | .fs => b.fs
  | .gs => b.gs

/-- The segments whose base is 0 in 64-bit mode (rule R66). -/
def Seg.flatIn64 : Seg → Bool
  | .es | .cs | .ss | .ds => true
  | .fs | .gs => false

/-- `SegBase(seg)` (rule R66). -/
def State.segBase (s : State) (seg : Seg) : Word :=
  if s.mode = .mode64 ∧ Seg.flatIn64 seg then 0 else segBaseOf s.params.segBase seg

/-- `Linear(seg, off)` (rule R66). -/
def State.linear (s : State) (seg : Seg) (off : Word) : Word := s.wrap (s.segBase seg + off)

/-- A memory operand: its segment, its offset and its linear address (rules R67, R108). -/
structure MemRef where
  seg : Seg
  off : Word
  addr : Word
deriving DecidableEq, Repr

/-- A displacement, sign-extended (rules R104 to R106, R112). -/
def dispValue : Disp → Word
  | .none => 0
  | .d8 v => v.signExtend 64
  | .d16 v => v.signExtend 64
  | .d32 v => v.signExtend 64

/-- The 16-bit register `n` of a 16-bit address (rule R104). -/
def State.reg16 (s : State) (n : RegNum) : Word := s.readReg .w16 n true

/-- The registers of a 16-bit address (rule R104): BX + SI, BX + DI, BP + SI, BP + DI, SI, DI, BP or none, BX. -/
def State.base16 (s : State) (m : ModRM) : Word :=
  if m.rm = 0#3 then s.reg16 3#4 + s.reg16 6#4
  else if m.rm = 1#3 then s.reg16 3#4 + s.reg16 7#4
  else if m.rm = 2#3 then s.reg16 5#4 + s.reg16 6#4
  else if m.rm = 3#3 then s.reg16 5#4 + s.reg16 7#4
  else if m.rm = 4#3 then s.reg16 6#4
  else if m.rm = 5#3 then s.reg16 7#4
  else if m.rm = 6#3 then (if m.mod = 0#2 then 0 else s.reg16 5#4)
  else s.reg16 3#4

/-- The default segment of a 16-bit address (rule R104): SS where BP is a base. -/
def defaultSeg16 (m : ModRM) : Seg :=
  if m.rm = 2#3 ∨ m.rm = 3#3 ∨ (m.rm = 6#3 ∧ m.mod ≠ 0#2) then .ss else .ds

/-- The base of a 32- or 64-bit address with no SIB byte (rule R105): the register `REX.B ++ rm`, or for `mod = 0`, `rm = 5` no
base outside 64-bit mode and `next_pc` in it. -/
def State.baseNoSib (s : State) (w : Width) (p : Pfx) (m : ModRM) (next : Word) : Word :=
  if m.mod = 0#2 ∧ m.rm = 5#3 then (if s.mode = .mode64 then next else 0)
  else s.readReg w (m.rmNum p) true

/-- The default segment with no SIB byte (rule R105). -/
def defaultSegNoSib (m : ModRM) : Seg := if m.mod ≠ 0#2 ∧ m.rm = 5#3 then .ss else .ds

/-- `index_term` (rule R106): index 4 is no index, R12 is one. -/
def State.indexTerm (s : State) (w : Width) (p : Pfx) (b : Sib) : Word :=
  let i := regNum p.rexX b.index
  if i = 4#4 then 0 else s.readReg w i true <<< b.scale.toNat

/-- The base register of a SIB address (rule R106): none for `base = 5` with `mod = 0`. -/
def State.sibBase (s : State) (w : Width) (p : Pfx) (m : ModRM) (b : Sib) : Word :=
  if b.base = 5#3 ∧ m.mod = 0#2 then 0 else s.readReg w (regNum p.rexB b.base) true

/-- The default segment of a SIB address (rule R106): SS for a base of ESP or RSP, and for EBP or RBP with `mod != 0`. -/
def defaultSegSib (p : Pfx) (m : ModRM) (b : Sib) : Seg :=
  let n := regNum p.rexB b.base
  if n = 4#4 ∨ (n = 5#4 ∧ m.mod ≠ 0#2) then .ss else .ds

/-- The offset of a memory operand modulo 2^AS (rules R65, R104 to R106); `next` is `next_pc`. -/
def State.memOffset (s : State) (p : Pfx) (m : ModRM) (next : Word) : Word :=
  let as := s.params.code.addrSize p
  let base :=
    if as = .a16 then s.base16 m
    else
      match m.sib with
      | none => s.baseNoSib as.width p m next
      | some b => s.sibBase as.width p m b + s.indexTerm as.width p b
  (base + dispValue m.disp).low as.bits

/-- The default segment of a memory operand (rules R104 to R106). -/
def State.defaultSeg (s : State) (p : Pfx) (m : ModRM) : Seg :=
  if s.params.code.addrSize p = .a16 then defaultSeg16 m
  else
    match m.sib with
    | none => defaultSegNoSib m
    | some b => defaultSegSib p m b

/-- A memory operand at a segment and an offset (rules R66, R108). -/
def State.ref (s : State) (seg : Seg) (off : Word) : MemRef := { seg := seg, off := off, addr := s.linear seg off }

/-- The memory operand of a ModRM byte (rules R107, R108), in an instruction of `len` bytes. -/
def State.memRef (s : State) (p : Pfx) (m : ModRM) (len : Nat) : MemRef :=
  s.ref (p.seg.getD (s.defaultSeg p m)) (s.memOffset p m (s.nextPc len))

/-- The offset of XLAT's table entry (rule R241): BX, EBX or RBX plus AL, unsigned, modulo 2^AS. -/
def State.xlatOffset (s : State) (p : Pfx) : Word :=
  let as := s.params.code.addrSize p
  (s.readReg as.width 3#4 true + s.readReg .w8 0#4 true).low as.bits

/-- XLAT's table entry (rules R107, R242): DS unless overridden. -/
def State.xlatRef (s : State) (p : Pfx) : MemRef := s.ref (p.seg.getD .ds) (s.xlatOffset p)

end Sys2Proof.Machine
end

