-- ==== Sys2Proof/Machine/Ops.lean ====
section
/-! DEFINITION. The shared operations of the machine: taking an exception, free values, the store buffer, other processors' stores,
Admit and Translate, loads and stores inside and outside a transaction, commit, and RTM abort processing. -/

namespace Sys2Proof.Machine

/-! Taking an exception. -/

/-- `raise E(code)` (rule R255): nothing is written, the pc keeps the address of the faulting instruction, and the outcome is
`Fault(E, code, pc)`. The spec gives no handler entry and no return from one (rule R257, log entry 13). -/
def raise (e : Raised) (s : State) : Result := .fault (.exception e.exc e.code s.pc)

/-- #UD, which carries no error code (rule R252). -/
def invalidOpcode : Raised := { exc := .ud, code := none }

/-- #GP(0) (rule R251). -/
def generalProtection0 : Raised := { exc := .gp, code := some 0#32 }

/-! Free values (rule R8 `draw`, log entry 7). -/

/-- The value that the next `draw` gives. -/
def State.drawn (s : State) : Word := s.draws.given.headD (Config.draw s.draws.count)

/-- The state after a `draw`. -/
def State.afterDraw (s : State) : State :=
  s.setDraws { given := s.draws.given.tail, count := s.draws.count + 1 }

/-- A free choice between two admitted behaviours: bit 0 of the next `draw`. -/
def State.chosen (s : State) : Bool := s.drawn.getLsbD 0

/-! The store buffer of the total-store-order alternative (rule R80, log entry 53). -/

/-- The `n` oldest buffered bytes reach shared memory, in the order stored. -/
def State.drainTo (s : State) (n : Nat) : State :=
  (s.setMem (s.mem.writeAll (s.storeBuffer.take n))).setBuffer (s.storeBuffer.drop n)

/-- The whole store buffer reaches shared memory: "a locked instruction drains the buffer" (rules R80, R81), and so does a commit
(decision D33). -/
def State.drain (s : State) : State := s.drainTo s.storeBuffer.length

/-- Some of the store buffer reaches shared memory, how much at the free choice of a draw; an empty one needs no choice. -/
def State.drainSome (s : State) : State :=
  if s.storeBuffer.isEmpty then s else s.afterDraw.drainTo s.drawn.toNat

/-- A byte enters the store buffer, the newest of it. -/
def State.push (s : State) (a : Nat) (b : Byte) : State := s.setBuffer (s.storeBuffer ++ [(a, b)])

/-! Other logical processors (rule R264, log entry 10). -/

/-- Another processor's store of one byte lands in shared memory. -/
def State.landByte (s : State) (c : Host.Cell) : State := s.setMem (s.mem.write c.1 c.2)

/-- Other processors' stores land one by one; before each and after the last, some of this processor's store buffer may reach
shared memory. -/
def State.landStores : List Host.Cell → State → State
  | [], s => s.drainSome
  | c :: cs, s => State.landStores cs (s.drainSome.landByte c)

/-- The next batch of other processors' stores lands in memory. -/
def State.land (s : State) : State := (State.landStores (s.bus.headD []) s).setBus s.bus.tail

/-- A byte of the program text (rule R83). -/
def State.inText (s : State) (a : Nat) : Bool := s.params.text.any fun e => decide (e.lo ≤ a) && decide (a ≤ e.hi)

/-- Another processor's store is to land on the program text (rule R83). -/
def State.busHitsText (s : State) : Bool := s.bus.any fun batch => batch.any fun c => s.inText c.1

/-! Translation and admission. -/

/-- The address that the first range holding it maps it to; with none, itself (rule R82). -/
def translateBy : List Remap → Nat → Nat
  | [], a => a
  | r :: rs, a => if r.lo ≤ a ∧ a ≤ r.hi then r.dst + (a - r.lo) else translateBy rs a

/-- `Translate` (rule R82): where memory holds the byte at a linear address. -/
def State.phys (s : State) (a : Word) : Nat := translateBy s.params.translate a.toNat

/-- A rule of `Admit` matches an access (rule R67). -/
def AdmitRule.covers (r : AdmitRule) (k : AccessKind) (m : MemRef) (n : Nat) : Bool :=
  r.kinds.contains k && r.segs.contains m.seg
    && decide (r.offLo ≤ m.off.toNat) && decide (m.off.toNat ≤ r.offHi)
    && decide (r.addrLo ≤ m.addr.toNat) && decide (m.addr.toNat ≤ r.addrHi)
    && decide (r.nLo ≤ n) && decide (n ≤ r.nHi)

/-- `Admit(kind, seg, off, addr, n)` (rule R67): `none` for ok, else the exception. -/
def State.askAdmit (s : State) (k : AccessKind) (m : MemRef) (n : Nat) : Option Raised :=
  (s.params.admitRules.find? fun r => AdmitRule.covers r k m n).bind (·.answer)

/-! Loads and stores of bytes. -/

/-- The byte outside the write set that this processor sees (rule R80): that of its newest buffered store, else shared memory's. -/
def State.ownByte (s : State) (a : Nat) : Byte := (Cells.newest s.storeBuffer a).getD (s.mem.read a)

/-- The byte that this processor sees (rules R62, R75, R80): its write set's inside a transaction, else `ownByte`. -/
def State.viewByte (s : State) (a : Nat) : Byte :=
  if s.rtmActive then (Cells.lookup s.writeSet a).getD (s.ownByte a) else s.ownByte a

/-- The read set's note of a transactional read (rule R75): a byte not taken from the write set, whose address has no entry. -/
def State.noteRead (s : State) (a : Nat) : State :=
  if s.rtmActive && (Cells.lookup s.writeSet a).isNone && (Cells.lookup s.readSet a).isNone then
    s.setReadSet (Cells.put s.readSet a (s.ownByte a))
  else s

/-- How the bytes of an access stand to other processors. -/
inductive Atomicity where
  /-- Part of a locked read-modify-write, one indivisible event that drains the store buffer (rules R69 to R71, R80). -/
  | locked
  /-- A sequence of byte accesses, other processors' stores landing before each (rules R70, R72). -/
  | plain
  /-- One byte, at the boundary where other processors' stores landed last: "trivially indivisible" (rule R72). -/
  | single
deriving DecidableEq, Repr

/-- A store reaches shared memory at once: a locked one, and under sequential consistency every one (rule R80). -/
def State.storesAtOnce (s : State) (k : Atomicity) : Bool := k == .locked || s.params.consistency == .sc

/-- A store of one byte (rules R63, R76, R80): to the write set inside a transaction, else through the store buffer. -/
def State.storeByte (s : State) (k : Atomicity) (a : Nat) (b : Byte) : State :=
  if s.rtmActive then s.setWriteSet (Cells.put s.writeSet a b)
  else if s.storesAtOnce k then (s.push a b).drain
  else s.push a b

/-- Before a byte access: a locked one drains the store buffer (rule R80), a plain one is a point where other processors' stores
land (rules R70, R72). -/
def State.point (s : State) (k : Atomicity) : State :=
  match k with
  | .locked => s.drain
  | .plain => s.land
  | .single => s

/-- `MemRead(addr, n)` byte by byte, rising (rules R62, R75, R80). -/
def State.loadBytes (k : Atomicity) : Nat → Word → State → List Byte × State
  | 0, _, s => ([], s)
  | n + 1, a, s =>
    let s1 := s.point k
    let rest := State.loadBytes k n (s1.wrap (a + 1)) (s1.noteRead (s1.phys a))
    (s1.viewByte (s1.phys a) :: rest.1, rest.2)

/-- `MemWrite` of bytes, rising (rules R63, R76, R80). -/
def State.storeBytes (k : Atomicity) : List Byte → Word → State → State
  | [], _, s => s
  | b :: bs, a, s =>
    let s1 := s.point k
    State.storeBytes k bs (s1.wrap (a + 1)) (s1.storeByte k (s1.phys a) b)

/-- The value of `MemRead(addr, n)` (rule R62). -/
def State.loadValue (s : State) (k : Atomicity) (n : Nat) (a : Word) : Word := joinBytes (State.loadBytes k n a s).1

/-- The state after `MemRead(addr, n)` (rule R75). -/
def State.afterLoad (s : State) (k : Atomicity) (n : Nat) (a : Word) : State := (State.loadBytes k n a s).2

/-- `MemWrite(addr, n, v)` (rule R63). -/
def State.store (s : State) (k : Atomicity) (n : Nat) (a : Word) (v : Word) : State :=
  State.storeBytes k (splitBytes n v) a s

/-- The addresses of memory of the `n` bytes at a linear address (rules R62, R82). -/
def State.byteAddrs (s : State) : Nat → Word → List Nat
  | 0, _ => []
  | n + 1, a => s.phys a :: State.byteAddrs s n (s.wrap (a + 1))

/-- A store of `n` bytes would change the program text (rule R83). -/
def State.storeHitsText (s : State) (n : Nat) (a : Word) : Bool := (s.byteAddrs n a).any s.inText

/-- The admission of a read-modify-write, asked once before any effect (rule R67): the reason to stop, if there is one. -/
def State.rmwStop (s : State) (m : MemRef) (n : Nat) : Option Result :=
  match s.askAdmit .rmw m n with
  | some e => some (raise e s)
  | none => if s.storeHitsText n m.addr then some (.refused .storeToText) else none

/-! The end of an instruction. -/

/-- `pc <- next_pc` (rule R31). -/
def State.advance (s : State) (len : Nat) : State := s.setPc (s.nextPc len)

/-! Transactions. -/

/-- Every byte of the read set still stands in shared memory (rule R77). -/
def State.readSetValid (s : State) : Bool := s.readSet.all fun c => s.mem.read c.1 == c.2

/-- Both sets empty (rules R78, R194). -/
def State.emptySets (s : State) : State := (s.setWriteSet []).setReadSet []

/-- The write set published at once (rule R77), both sets emptied. -/
def State.publish (s : State) : State := (s.setMem (s.mem.writeAll s.writeSet)).emptySets

/-- A successful commit's end of the region (rule R222). -/
def State.endRegion (s : State) : State := ((s.setActive false).setSaved none).setFallback none

/-- What rule R45 saves of the registers. -/
def State.toSaved (s : State) : Saved := { regs := s.regs, flags := s.flags, xcr0 := s.xcr0 }

/-- The registers restored from what was saved (rule R164). -/
def State.restore (s : State) (r : Saved) : State := ((s.setRegs r.regs).setFlags r.flags).setXcr0 r.xcr0

/-- The state after RTM abort processing (rule R164), in its order: registers, sets, EAX (RAX by rule R167), count, active bit,
instruction pointer. -/
def State.aborted (s : State) (r : Saved) (fallback : Word) (status : BitVec 32) : State :=
  ((((((s.restore r).emptySets).writeReg .w32 0#4 false (status.setWidth 64)).setNest 0).setActive false).setPc fallback)

/-- `RTM_ABORT_PROCESSING(status)` (rule R164). Its precondition is `RTM_ACTIVE = 1`, when a saved state and a fallback address
are held; without them, in states no run reaches, the model stops (log entry 36). -/
def rtmAbort (status : BitVec 32) (s : State) : Result :=
  match s.rtmSaved, s.fallback with
  | some r, some f => .next (s.aborted r f status)
  | _, _ => .fault .abortWithoutRecord

/-- `abort_status(XABORT, imm8)`: imm8 in bits 31:24, bits 23:0 drawn (rule R165). -/
def State.abortStatusXabort (s : State) (imm8 : BitVec 8) : BitVec 32 := imm8 ++ s.drawn.extractLsb' 0 24

/-- `abort_status(other cause)`: 32 bits drawn (rule R165). -/
def State.abortStatusOther (s : State) : BitVec 32 := s.drawn.extractLsb' 0 32

/-- An abort for a cause other than XABORT (rules R165, R166). -/
def abortOther (s : State) : Result := rtmAbort s.abortStatusOther s.afterDraw

end Sys2Proof.Machine
end

