-- ==== Sys2Proof/Machine/Xadd.lean ====
section
/-! DEFINITION. XADD (42_xadd.md). -/

namespace Sys2Proof.Machine

/-- XADD with a register destination (rule R178): the source register is written first, the destination last. -/
def xaddReg (w : Width) (p : Pfx) (m : ModRM) (len : Nat) (s : State) : Result :=
  let a := s.readReg w (m.rmNum p) p.hasRex
  let b := s.readReg w (m.regNum p) p.hasRex
  let s1 := s.writeReg w (m.regNum p) p.hasRex a
  let s2 := s1.writeReg w (m.rmNum p) p.hasRex (addValue w a b)
  .next ((s2.setFlags (addFlags w a b)).advance len)

/-- XADD is locked if and only if it carries LOCK (rule R70). -/
def xaddAtomicity (p : Pfx) : Atomicity := if p.lock then .locked else .plain

/-- XADD with a memory destination, once admitted (rule R178). -/
def xaddMemBody (w : Width) (p : Pfx) (m : ModRM) (len : Nat) (s : State) : State :=
  let k := xaddAtomicity p
  let addr := (s.memRef p m len).addr
  let a := s.loadValue k w.bytes addr
  let b := s.readReg w (m.regNum p) p.hasRex
  let s1 := (s.afterLoad k w.bytes addr).writeReg w (m.regNum p) p.hasRex a
  let s2 := s1.store k w.bytes addr (addValue w a b)
  (s2.setFlags (addFlags w a b)).advance len

/-- XADD with a memory destination (rules R67, R178). -/
def xaddMem (w : Width) (p : Pfx) (m : ModRM) (len : Nat) (s : State) : Result :=
  match s.rmwStop (s.memRef p m len) w.bytes with
  | some stop => stop
  | none => .next (xaddMemBody w p m len s)

/-- XADD r/m, r at width `w` (rule R178). -/
def xadd (w : Width) (p : Pfx) (m : ModRM) (len : Nat) (s : State) : Result :=
  if m.isMem then xaddMem w p m len s else xaddReg w p m len s

/-- XADD r/m8, r8 (rules R176, R178). -/
def execXaddRm8 (p : Pfx) (m : ModRM) (s : State) : Result := xadd .w8 p m (Instr.xaddRm8 p m).length s

/-- XADD r/m16, r16 (rules R176, R178). -/
def execXaddRm16 (p : Pfx) (m : ModRM) (s : State) : Result := xadd .w16 p m (Instr.xaddRm16 p m).length s

/-- XADD r/m32, r32 (rules R176, R178). -/
def execXaddRm32 (p : Pfx) (m : ModRM) (s : State) : Result := xadd .w32 p m (Instr.xaddRm32 p m).length s

/-- XADD r/m64, r64 (rules R176, R178). -/
def execXaddRm64 (p : Pfx) (m : ModRM) (s : State) : Result := xadd .w64 p m (Instr.xaddRm64 p m).length s

end Sys2Proof.Machine
end

