-- ==== Sys2Proof/Machine/Xchg.lean ====
section
/-! DEFINITION. XCHG (44_xchg.md). -/

namespace Sys2Proof.Machine

/-- XCHG of two registers with a ModRM byte (rule R208): r/m is written first, reg last. -/
def xchgReg (w : Width) (p : Pfx) (m : ModRM) (len : Nat) (s : State) : Result :=
  let t := s.readReg w (m.rmNum p) p.hasRex
  let u := s.readReg w (m.regNum p) p.hasRex
  let s1 := s.writeReg w (m.rmNum p) p.hasRex u
  let s2 := s1.writeReg w (m.regNum p) p.hasRex t
  .next (s2.advance len)

/-- XCHG with a memory operand, once admitted (rule R208): always locked (rules R69, R209). -/
def xchgMemBody (w : Width) (p : Pfx) (m : ModRM) (len : Nat) (s : State) : State :=
  let addr := (s.memRef p m len).addr
  let t := s.loadValue .locked w.bytes addr
  let u := s.readReg w (m.regNum p) p.hasRex
  let s1 := (s.afterLoad .locked w.bytes addr).store .locked w.bytes addr u
  (s1.writeReg w (m.regNum p) p.hasRex t).advance len

/-- XCHG with a memory operand (rules R67, R208). -/
def xchgMem (w : Width) (p : Pfx) (m : ModRM) (len : Nat) (s : State) : Result :=
  match s.rmwStop (s.memRef p m len) w.bytes with
  | some stop => stop
  | none => .next (xchgMemBody w p m len s)

/-- XCHG r/m, r at width `w` (rule R208). -/
def xchg (w : Width) (p : Pfx) (m : ModRM) (len : Nat) (s : State) : Result :=
  if m.isMem then xchgMem w p m len s else xchgReg w p m len s

/-- XCHG with the accumulator at width `w` (rule R208): register 0 is written first; opcode 90 with REX.B = 0 writes no register
(rule R212). -/
def xchgAcc (w : Width) (p : Pfx) (r : BitVec 3) (len : Nat) (s : State) : Result :=
  if !p.rexB && r == 0#3 then .next (s.advance len)
  else
    let n := regNum p.rexB r
    let t := s.readReg w 0#4 p.hasRex
    let u := s.readReg w n p.hasRex
    .next (((s.writeReg w 0#4 p.hasRex u).writeReg w n p.hasRex t).advance len)

/-- XCHG AX, r16 and XCHG r16, AX (rules R206, R208). -/
def execXchgAcc16 (p : Pfx) (r : BitVec 3) (s : State) : Result := xchgAcc .w16 p r (Instr.xchgAcc16 p r).length s

/-- XCHG EAX, r32 and XCHG r32, EAX (rules R206, R208). -/
def execXchgAcc32 (p : Pfx) (r : BitVec 3) (s : State) : Result := xchgAcc .w32 p r (Instr.xchgAcc32 p r).length s

/-- XCHG RAX, r64 and XCHG r64, RAX (rules R206, R208). -/
def execXchgAcc64 (p : Pfx) (r : BitVec 3) (s : State) : Result := xchgAcc .w64 p r (Instr.xchgAcc64 p r).length s

/-- XCHG r/m8, r8 and XCHG r8, r/m8 (rules R207, R208). -/
def execXchgRm8 (p : Pfx) (m : ModRM) (s : State) : Result := xchg .w8 p m (Instr.xchgRm8 p m).length s

/-- XCHG r/m16, r16 and XCHG r16, r/m16 (rules R207, R208). -/
def execXchgRm16 (p : Pfx) (m : ModRM) (s : State) : Result := xchg .w16 p m (Instr.xchgRm16 p m).length s

/-- XCHG r/m32, r32 and XCHG r32, r/m32 (rules R207, R208). -/
def execXchgRm32 (p : Pfx) (m : ModRM) (s : State) : Result := xchg .w32 p m (Instr.xchgRm32 p m).length s

/-- XCHG r/m64, r64 and XCHG r64, r/m64 (rules R207, R208). -/
def execXchgRm64 (p : Pfx) (m : ModRM) (s : State) : Result := xchg .w64 p m (Instr.xchgRm64 p m).length s

end Sys2Proof.Machine
end

