-- ==== Sys2Proof/Machine/Hle.lean ====
section
/-! DEFINITION. XACQUIRE and XRELEASE, the lock-elision prefix hints (40_xacquire_xrelease.md). -/

namespace Sys2Proof.Machine

/-- The hinted instruction without the hint (rule R148): "exactly as the same instruction with `hle_kind = NoPrefix`". -/
def hintedPlain (h : Hinted) (s : State) : Result :=
  match h.op with
  | .xadd w => xadd w h.p h.m h.plain.length s
  | .xchg w => xchg w h.p h.m h.plain.length s

/-- `EA(m)` of the hinted instruction's memory operand (rule R141). -/
def hintedAddr (h : Hinted) (s : State) : Word := (s.memRef h.p h.m h.plain.length).addr

/-- What an XACQUIRE hint adds (rules R47, R148): the address is recorded; with `CPUID_HLE = 0` the byte is ignored (R145). -/
def acquireElision (addr : Word) (s : State) : State :=
  if s.params.cpuidHle then s.setElided (some addr) else s

/-- What an XRELEASE hint adds (rules R47, R148): an elision on the SAME address ends; with `CPUID_HLE = 0` the byte is ignored
(R145, log entry 20). -/
def releaseElision (addr : Word) (s : State) : State :=
  if s.params.cpuidHle && s.hleElided == some addr then s.setElided none else s

/-- A further effect on the next state of a result, none on a stop. -/
def onNext (f : State → State) : Result → Result
  | .next s => .next (f s)
  | .fault e => .fault e
  | .refused r => .refused r

/-- XACQUIRE before an XACQUIRE-enabled instruction (rules R141, R148). -/
def execXacquire (h : Hinted) (s : State) : Result := onNext (acquireElision (hintedAddr h s)) (hintedPlain h s)

/-- XRELEASE before an XRELEASE-enabled instruction (rules R141, R148). -/
def execXrelease (h : Hinted) (s : State) : Result := onNext (releaseElision (hintedAddr h s)) (hintedPlain h s)

end Sys2Proof.Machine
end

