-- ==== Sys2Proof/Machine/Rtm.lean ====
section
/-! DEFINITION. XBEGIN, XEND and XABORT (41_xabort.md, 43_xbegin.md, 45_xend.md). -/

namespace Sys2Proof.Machine

/-- #UD when `CPUID_RTM = 0` (rules R169, R196, R224, R256 step (2)), before anything else of the instruction. -/
def needsRtm (s : State) (r : Result) : Result := if s.params.cpuidRtm then r else raise invalidOpcode s

/-- XABORT imm8 (rule R163): a NOP outside a region, RTM abort processing inside it. -/
def execXabort (p : Pfx) (imm8 : BitVec 8) (s : State) : Result :=
  needsRtm s <|
    if s.rtmActive then rtmAbort (s.abortStatusXabort imm8) s.afterDraw
    else .next (s.advance (Instr.xabort p imm8).length)

/-- The outermost XBEGIN's part (rule R194): the registers and the fallback address recorded, the sets emptied, the region
active. -/
def State.beginRegion (s : State) (target : Word) : State :=
  (((s.setSaved (some s.toSaved)).setFallback (some target)).emptySets).setActive true

/-- XBEGIN with its fallback address (rule R194). -/
def xbegin (target : Word) (len : Nat) (s : State) : Result :=
  needsRtm s <|
    if s.rtmNest = s.params.maxNest then abortOther s
    else
      let s1 := if s.rtmActive then s else s.beginRegion target
      .next ((s1.setNest (s.rtmNest + 1)).advance len)

/-- XBEGIN rel16 (rules R191, R193): `OS = 16`, so the fallback address is cut to 16 bits. -/
def execXbeginRel16 (p : Pfx) (rel : BitVec 16) (s : State) : Result :=
  let len := (Instr.xbeginRel16 p rel).length
  xbegin ((s.wrap (s.nextPc len + rel.signExtend 64)).low 16) len s

/-- XBEGIN rel32 (rules R191, R193). -/
def execXbeginRel32 (p : Pfx) (rel : BitVec 32) (s : State) : Result :=
  let len := (Instr.xbeginRel32 p rel).length
  xbegin (s.wrap (s.nextPc len + rel.signExtend 64)) len s

/-- The outermost XEND (rules R77, R222, R223): the store buffer drains (decision D33); a commit that validates may succeed or, at
the model's free choice, fail; one that does not validate fails. A failed commit is an RTM abort. -/
def commit (len : Nat) (s : State) : Result :=
  let s1 := s.drain
  let s2 := s1.afterDraw
  if s1.readSetValid && !s1.chosen then .next ((s2.publish.endRegion).advance len)
  else abortOther s2

/-- XEND (rule R222). -/
def execXend (p : Pfx) (s : State) : Result :=
  let len := (Instr.xend p).length
  needsRtm s <|
    if s.rtmActive then
      let s1 := s.setNest (s.rtmNest - 1)
      if s1.rtmNest = 0 then commit len s1 else .next (s1.advance len)
    else raise generalProtection0 s

end Sys2Proof.Machine
end

