-- ==== Sys2Proof/Machine/Xgetbv.lean ====
section
/-! DEFINITION. XGETBV (46_xgetbv.md). -/

namespace Sys2Proof.Machine

/-- The value read from XCR0 (rule R232): "if fewer than 64 bits are implemented", the bits outside `XCR0_IMPL_MASK` are
drawn; if all are, it is XCR0 (rule R235). -/
def State.xcr0Value (s : State) : Word :=
  if s.params.xcr0ImplMask = BitVec.allOnes 64 then s.xcr0
  else (s.xcr0 &&& s.params.xcr0ImplMask) ||| (s.drawn &&& ~~~s.params.xcr0ImplMask)

/-- The 64-bit registers 0 and 2 from the low and the high half of `v`, their bits 63:32 cleared (rule R232). -/
def State.writeEdxEax (s : State) (v : Word) : State :=
  (s.setReg 0#4 (v.low 32)).setReg 2#4 (Word.low 32 (v >>> 32))

/-- XGETBV (rules R232, R233): #UD with `OSXSAVE_ENABLED = 0`, then #GP(0) for every ECX other than 0. -/
def execXgetbv (p : Pfx) (s : State) : Result :=
  if s.params.osxsave then
    if (s.getReg 1#4).low 32 = 0 then .next (((s.afterDraw).writeEdxEax s.xcr0Value).advance (Instr.xgetbv p).length)
    else raise generalProtection0 s
  else raise invalidOpcode s

end Sys2Proof.Machine
end

