-- ==== Sys2Proof/Machine/Xlat.lean ====
section
/-! DEFINITION. XLAT and XLATB (47_xlat.md). -/

namespace Sys2Proof.Machine

/-- XLAT m8 and XLATB (rule R242): AL becomes the byte of the table that AL indexes. -/
def execXlat (p : Pfx) (s : State) : Result :=
  let m := s.xlatRef p
  match s.askAdmit .read m 1 with
  | some e => raise e s
  | none =>
    let s1 := s.afterLoad .single 1 m.addr
    .next ((s1.writeReg .w8 0#4 p.hasRex (s.loadValue .single 1 m.addr)).advance (Instr.xlat p).length)

end Sys2Proof.Machine
end

