-- ==== Sys2Proof/Machine/Dispatch.lean ====
section
/-! DEFINITION. One arm per instruction: each calls its meaning. -/

namespace Sys2Proof.Machine

/-- The execution of one instruction. -/
def exec (i : Instr) (s : State) : Host.Outcome State Fault Refusal :=
  match i with
  | .xacquire h => Sys2Proof.Machine.execXacquire h s
  | .xrelease h => Sys2Proof.Machine.execXrelease h s
  | .xabort p imm8 => Sys2Proof.Machine.execXabort p imm8 s
  | .xaddRm8 p m => Sys2Proof.Machine.execXaddRm8 p m s
  | .xaddRm16 p m => Sys2Proof.Machine.execXaddRm16 p m s
  | .xaddRm32 p m => Sys2Proof.Machine.execXaddRm32 p m s
  | .xaddRm64 p m => Sys2Proof.Machine.execXaddRm64 p m s
  | .xbeginRel16 p rel => Sys2Proof.Machine.execXbeginRel16 p rel s
  | .xbeginRel32 p rel => Sys2Proof.Machine.execXbeginRel32 p rel s
  | .xchgAcc16 p r => Sys2Proof.Machine.execXchgAcc16 p r s
  | .xchgAcc32 p r => Sys2Proof.Machine.execXchgAcc32 p r s
  | .xchgAcc64 p r => Sys2Proof.Machine.execXchgAcc64 p r s
  | .xchgRm8 p m => Sys2Proof.Machine.execXchgRm8 p m s
  | .xchgRm16 p m => Sys2Proof.Machine.execXchgRm16 p m s
  | .xchgRm32 p m => Sys2Proof.Machine.execXchgRm32 p m s
  | .xchgRm64 p m => Sys2Proof.Machine.execXchgRm64 p m s
  | .xend p => Sys2Proof.Machine.execXend p s
  | .xgetbv p => Sys2Proof.Machine.execXgetbv p s
  | .xlat p => Sys2Proof.Machine.execXlat p s

end Sys2Proof.Machine
end

