-- ==== Sys2Proof/Machine/Fetch.lean ====
section
/-! DEFINITION. Fetching the instruction at the pc (rules R31, R48, R62, R90), asking Admit for each byte (rule R67, log entry
14). -/

namespace Sys2Proof.Machine

/-- Why the bytes of a fetch end. -/
inductive WindowEnd where
  /-- The longest instruction's bytes are all there (rule R90). -/
  | full
  /-- The top of the address space (rule R31). -/
  | top
  /-- `Admit` denies the next byte (rule R67). -/
  | denied (e : Raised)
deriving DecidableEq, Repr

/-- Instruction bytes at a linear address and on, at most `k` (rule R48: "from the same memory"). -/
def State.window (s : State) : Nat → Nat → List Byte × WindowEnd
  | 0, _ => ([], .full)
  | k + 1, a =>
    if 2 ^ Mode.linearBits s.mode ≤ a then ([], .top)
    else
      let w := BitVec.ofNat 64 a
      match s.askAdmit .fetch { seg := .cs, off := w, addr := w } 1 with
      | some e => ([], .denied e)
      | none =>
        let rest := State.window s k (a + 1)
        (s.viewByte (s.phys w) :: rest.1, rest.2)

/-- The outcome when an instruction's bytes end before it does: past 15 bytes (rule R90), past the top of the address space
(rule R31), or into a byte that is not admitted (rule R67). -/
def State.windowStop (s : State) : WindowEnd → Result
  | .full => .refused (.undecodable .tooLong)
  | .top => .refused .fetchWraps
  | .denied e => raise e s

/-- What a fetch gives: an instruction, or the outcome of the step. -/
inductive Fetched where
  | instr (i : Instr)
  | stop (r : Result)

/-- The instruction at the pc (rules R31, R256). -/
def State.fetch (s : State) : Fetched :=
  let w := s.window maxLength s.pc.toNat
  match decode s.params.code w.1 with
  | .ok i => .instr i
  | .more => .stop (s.windowStop w.2)
  | .ud => .stop (raise invalidOpcode s)
  | .refuse r => .stop (.refused (.undecodable r))

/-- Bytes placed in memory at a linear address and on, with no regard to transactions: a loader outside the machine. -/
def State.place (s : State) : List Byte → Word → State
  | [], _ => s
  | b :: bs, a => State.place (s.setMem (s.mem.write (s.phys a) b)) bs (s.wrap (a + 1))

end Sys2Proof.Machine
end

