-- ==== Sys2Proof/Machine/Run.lean ====
section
/-! DEFINITION. What happens between two instruction boundaries (rules R166, R258, R264). -/

namespace Sys2Proof.Machine

/-- The instruction at the pc is fetched and executed. -/
def runInstr (s : State) : Result :=
  match s.fetch with
  | .instr i => exec i s
  | .stop r => r

/-- Inside a region a spontaneous abort may take the place of the next instruction (rule R166), at the free choice of a draw. -/
def boundary (s : State) : Result :=
  if s.rtmActive then
    if s.chosen then abortOther s.afterDraw else runInstr s.afterDraw
  else runInstr s

/-- One step: other processors' stores land (rule R264), then the boundary. A store of theirs to the program text is outside the
model (rule R83). -/
def oneStep (s : State) : Result :=
  if s.busHitsText then .refused .storeToText else boundary s.land

end Sys2Proof.Machine
end

