-- ==== Sys2Proof/Machine/Step.lean ====
section
/-! DEFINITION. The step of the machine, and the placing of an instruction where the step fetches it. -/

namespace Sys2Proof.Machine

/-- One step of the logical processor. -/
def step (s : State) : Host.Outcome State Fault Refusal := oneStep s

/-- The state with an instruction's bytes, numbered as the opcode table numbers them (log entry 37), at the pc: the load of a
program from outside the machine (log entry 2). -/
def State.withFetchWord (s : State) (nbits w : Nat) : State := s.place (tableBytes nbits w) s.pc

end Sys2Proof.Machine
end

