-- ==== Sys2Proof/Safety.lean ====
section
/-! DEFINITION. What claims say about states and runs: the invariant of the machine, the end of a run, a step that stops. -/

namespace Sys2Proof

/-! Classes of instructions, for whole-machine rules. -/

/-- The instructions that write the flags (rule R34): XADD, hinted or not. -/
def Instr.addsFlags : Instr → Bool
  | .xaddRm8 .. | .xaddRm16 .. | .xaddRm32 .. | .xaddRm64 .. => true
  | .xacquire h | .xrelease h => match h.op with | .xadd _ => true | .xchg _ => false
  | .xabort .. | .xbeginRel16 .. | .xbeginRel32 .. | .xchgAcc16 .. | .xchgAcc32 .. | .xchgAcc64 .. => false
  | .xchgRm8 .. | .xchgRm16 .. | .xchgRm32 .. | .xchgRm64 .. | .xend .. | .xgetbv .. | .xlat .. => false

/-- The instructions of the RTM feature (rule R2). -/
def Instr.isRtm : Instr → Bool
  | .xabort .. | .xbeginRel16 .. | .xbeginRel32 .. | .xend .. => true
  | .xaddRm8 .. | .xaddRm16 .. | .xaddRm32 .. | .xaddRm64 .. | .xacquire .. | .xrelease .. => false
  | .xchgAcc16 .. | .xchgAcc32 .. | .xchgAcc64 .. => false
  | .xchgRm8 .. | .xchgRm16 .. | .xchgRm32 .. | .xchgRm64 .. | .xgetbv .. | .xlat .. => false

/-- The forms that read and write memory (rule R68): XADD and XCHG with a memory operand, hinted or not. -/
def Instr.isRmw : Instr → Bool
  | .xaddRm8 _ m | .xaddRm16 _ m | .xaddRm32 _ m | .xaddRm64 _ m => m.isMem
  | .xchgRm8 _ m | .xchgRm16 _ m | .xchgRm32 _ m | .xchgRm64 _ m => m.isMem
  | .xacquire h | .xrelease h => h.m.isMem
  | .xabort .. | .xbeginRel16 .. | .xbeginRel32 .. | .xchgAcc16 .. | .xchgAcc32 .. | .xchgAcc64 .. => false
  | .xend .. | .xgetbv .. | .xlat .. => false

/-- XACQUIRE- and XRELEASE-enabled instructions. -/
def Instr.isHinted : Instr → Bool
  | .xacquire .. | .xrelease .. => true
  | .xabort .. | .xaddRm8 .. | .xaddRm16 .. | .xaddRm32 .. | .xaddRm64 .. | .xbeginRel16 .. | .xbeginRel32 .. => false
  | .xchgAcc16 .. | .xchgAcc32 .. | .xchgAcc64 .. | .xchgRm8 .. | .xchgRm16 .. | .xchgRm32 .. | .xchgRm64 .. => false
  | .xend .. | .xgetbv .. | .xlat .. => false

end Sys2Proof

namespace Sys2Proof.Machine

/-- The value fits the linear-address width (rules R30, R60). -/
def State.fitsLinear (s : State) (v : Word) : Prop := s.wrap v = v

/-- The transactional bookkeeping of rules R43, R44 and R45: active if and only if the count is at least 1, the count within the
limit, a saved state with this XCR0 and a fallback address while active. -/
structure State.RegionInv (s : State) : Prop where
  active_iff : s.rtmActive = true ↔ 1 ≤ s.rtmNest
  nest_le : s.rtmNest ≤ s.params.maxNest
  limit_pos : 1 ≤ s.params.maxNest
  saved : s.rtmActive = true → ∃ r, s.rtmSaved = some r ∧ r.xcr0 = s.xcr0
  fallback : s.rtmActive = true → ∃ f, s.fallback = some f ∧ s.fitsLinear f

/-- The memory and the sets keep their canonical forms; outside a region the sets are empty (rules R77, R78); the write set
holds no byte of the program text (rule R83). -/
structure State.MemoryInv (s : State) : Prop where
  mem_wf : s.mem.wf
  write_rising : Cells.rising s.writeSet
  read_rising : Cells.rising s.readSet
  sets_empty : s.rtmActive = false → s.writeSet = [] ∧ s.readSet = []
  text_kept : ∀ c ∈ s.writeSet, s.inText c.1 = false

/-- The store buffer (rule R80): under sequential consistency nothing waits in it; it holds no byte of the program text (rule
R83). -/
structure State.BufferInv (s : State) : Prop where
  sc_empty : s.params.consistency = .sc → s.storeBuffer = []
  text_kept : ∀ c ∈ s.storeBuffer, s.inText c.1 = false

/-- The invariant of the machine. -/
structure State.Inv (s : State) : Prop where
  region : s.RegionInv
  memory : s.MemoryInv
  buffer : s.BufferInv
  pc_fits : s.fitsLinear s.pc

/-! What one state shares with another: the words of the frames. -/

/-- Every register but the listed ones holds what it held. -/
def State.SameRegsBut (s t : State) (ns : List RegNum) : Prop := ∀ n, n ∉ ns → t.getReg n = s.getReg n

/-- Every byte of shared memory reads as it did. -/
def State.SameMemory (s t : State) : Prop := ∀ a, t.mem.read a = s.mem.read a

/-- Every byte of shared memory that is not listed reads as it did. -/
def State.SameMemoryBut (s t : State) (as : List Nat) : Prop := ∀ a, a ∉ as → t.mem.read a = s.mem.read a

/-- Every byte that is not listed reads, to this processor, as it did (rules R75, R80). -/
def State.SameViewBut (s t : State) (as : List Nat) : Prop := ∀ a, a ∉ as → t.viewByte a = s.viewByte a

/-- The transactional state of rules R42 to R45 is as it was. -/
structure State.SameRegion (s t : State) : Prop where
  active : t.rtmActive = s.rtmActive
  nest : t.rtmNest = s.rtmNest
  fallback : t.fallback = s.fallback
  saved : t.rtmSaved = s.rtmSaved

/-- The read set and the write set are as they were. -/
structure State.SameSets (s t : State) : Prop where
  writeSet : t.writeSet = s.writeSet
  readSet : t.readSet = s.readSet

/-- The special registers and the launch parameters are as they were. -/
structure State.SameSpecial (s t : State) : Prop where
  xcr0 : t.xcr0 = s.xcr0
  elided : t.hleElided = s.hleElided
  params : t.params = s.params

/-- The special registers, the launch parameters and the store buffer are as they were, nothing of another processor landed, and
no value was drawn. -/
structure State.SameSystem (s t : State) : Prop extends State.SameSpecial s t where
  storeBuffer : t.storeBuffer = s.storeBuffer
  bus : t.bus = s.bus
  draws : t.draws = s.draws

/-- The addresses of the stores of other processors that have not landed. -/
def State.busAddrs (s : State) : List Nat := s.bus.flatten.map (·.1)

/-- The addresses of this processor's stores that have not reached shared memory (rule R80). -/
def State.bufferAddrs (s : State) : List Nat := s.storeBuffer.map (·.1)

/-- Everything but memory, the store buffer, the two sets, the other processors' stores and the draws is as it was: what loads
and stores keep. -/
structure State.SameButMemory (s t : State) : Prop where
  regs : t.regs = s.regs
  pc : t.pc = s.pc
  flags : t.flags = s.flags
  xcr0 : t.xcr0 = s.xcr0
  region : s.SameRegion t
  elided : t.hleElided = s.hleElided
  params : t.params = s.params

/-- RTM abort processing took place (rules R164, R167): the registers but RAX, the flags and XCR0 as saved, RAX the 32-bit status
zero-extended, the sets empty, shared memory, the store buffer and the elided address untouched, the region closed, the pc at the
fallback address. -/
structure State.AbortedTo (s : State) (r : Saved) (fallback : Word) (status : BitVec 32) (t : State) : Prop where
  regs : ∀ n : RegNum, n ≠ 0#4 → t.getReg n = r.regs[n.toNat]'n.isLt
  rax : t.getReg 0#4 = status.setWidth 64
  flags : t.flags = r.flags
  xcr0 : t.xcr0 = r.xcr0
  sets : t.writeSet = [] ∧ t.readSet = []
  mem : s.SameMemory t
  storeBuffer : t.storeBuffer = s.storeBuffer
  nest : t.rtmNest = 0
  active : t.rtmActive = false
  pc : t.pc = fallback
  elided : t.hleElided = s.hleElided
  params : t.params = s.params
  bus : t.bus = s.bus

/-- A displacement as a signed integer (rule R112). -/
def dispSigned : Disp → Int
  | .none => 0
  | .d8 v => v.toInt
  | .d16 v => v.toInt
  | .d32 v => v.toInt

/-- The end of a run (rule R283): `pc = END` with `RTM_ACTIVE = 0`. -/
def State.ended (s : State) : Prop := s.params.endPc = some s.pc ∧ s.rtmActive = false

/-- A step that goes on: neither a fault nor a refusal. -/
def State.goesOn (s : State) : Prop := ∃ t, step s = .next t

end Sys2Proof.Machine
end

