-- ==== Sys2Proof/Certificates/Slice0/Obligations.lean ====
section
/-! DEFINITION. The statements for the provers, from the spec's numbered rules. OBLIGATIONS.json lists them. -/

open Sys2Proof Sys2Proof.Machine

/-! Encoding (30_encoding.md). -/

/-- The decoder reads from an instruction's bytes that instruction, whatever follows them: no bit of an encoding is dropped
(rules R90 to R116). All nineteen constructors. The instruction format is the spec's general knowledge (log entry 27). -/
def Obligations.DecodeOfEncodeGivesTheInstruction : Prop :=
  ∀ (c : CodeSize) (i : Instr) (rest : List Byte), i.wf c = true → decode c (encode i ++ rest) = .ok i

/-- Bytes that decode begin with the encoding of the instruction they decode to, and that instruction is well-formed. The
instruction format is the spec's general knowledge (log entry 27). -/
def Obligations.DecodedBytesAreTheEncoding : Prop :=
  ∀ (c : CodeSize) (bytes : List Byte) (i : Instr),
    decode c bytes = .ok i → i.wf c = true ∧ ∃ rest, bytes = encode i ++ rest

/-- A few words of the opcode table decode to the instructions they stand for in 64-bit mode, and both ends of a displaced
operand are read right (95_test_vectors.md B1). How a word's bytes are laid out is log entry 37. -/
def Obligations.WordsOfTheTableDecode : Prop :=
  decodeTableWord 16 0xC6F8 = some (.xabort { legacy := [], rex := none } 0#8)
    ∧ decodeTableWord 24 0x0F01D5 = some (.xend { legacy := [], rex := none })
    ∧ decodeTableWord 24 0x0F01D0 = some (.xgetbv { legacy := [], rex := none })
    ∧ decodeTableWord 8 0xD7 = some (.xlat { legacy := [], rex := none })
    ∧ decodeTableWord 40 0x0FC1448B10 = some (.xaddRm32 { legacy := [], rex := none }
        { mod := 1#2, reg := 0#3, rm := 4#3, sib := some { scale := 2#2, index := 1#3, base := 3#3 }, disp := .d8 0x10#8 })
    ∧ decodeTableWord 16 0x4997 = some (.xchgAcc64 { legacy := [], rex := some { w := true, r := false, x := false, b := true } } 7#3)

/-- Rule R121: LOCK on XADD or XCHG with a memory operand is accepted, on every other form in scope it is #UD, also where an F2
or F3 stands before it (conflict C7). The operands and the length are those of an instruction. The spec's decision D21 (log
entry 26). -/
def Obligations.LockIsLegalOnMemoryFormsOnly : Prop :=
  ∀ (c : CodeSize) (i : Instr) (rest : List Byte),
    i.isHinted = false → i.pfx.wf c = true → i.operandsOk c = true → i.length ≤ 15 → i.pfx.lock = true →
    (i.isRmw = false → decode c (encode i ++ rest) = .ud)
      ∧ (i.isRmw = true → i.pfx.rep = none → decode c (encode i ++ rest) = .ok i)

/-- Rules R142 to R147: under a last hint byte `b`, an instruction that meets the conditions on operand and LOCK decodes to the
hinted instruction; one that does not, with its LOCK legal and no 66 before XEND, is refused as undefined (rule R153). Refusing
the rest is the spec's decision D17 (log entry 40). -/
def Obligations.HintBytesMakeHintedInstructions : Prop :=
  ∀ (c : CodeSize) (i : Instr) (b : HintByte) (rest : List Byte),
    i.isHinted = false → i.pfx.wf c = true → i.operandsOk c = true → i.length ≤ 15 → i.pfx.rep = some b →
    (∀ h : Hinted, i = h.plain → h.m.isMem = true → ((∃ w, h.op = .xchg w) ∨ h.p.lock = true) →
      decode c (encode i ++ rest) = .ok (match b with | .f2 => .xacquire h | .f3 => .xrelease h))
    ∧ ((∀ h : Hinted, i = h.plain → h.m.isMem = false ∨ ((∃ w, h.op = .xadd w) ∧ h.p.lock = false)) →
      (i.pfx.lock = true → i.isRmw = true) → ((∃ p, i = .xend p) → Legacy.opSize ∉ i.pfx.legacy) →
      decode c (encode i ++ rest) = .refuse .hintUndefined)

/-- Rule R146: of the F2 and F3 bytes among the prefixes, the one closest to the opcode decides. -/
def Obligations.ClosestHintByteDecides : Prop :=
  ∀ (before after : List Legacy) (rex : Option Rex), (∀ l ∈ after, l ≠ .repne ∧ l ≠ .rep) →
    ({ legacy := before ++ .repne :: after, rex := rex } : Pfx).rep = some .f2
      ∧ ({ legacy := before ++ .rep :: after, rex := rex } : Pfx).rep = some .f3

/-- F2 or F3 before a VEX prefix, whatever other legacy prefixes stand among them, is #UD (60_exceptions.md section 1); behind
fifteen prefixes or more the bytes are too long and refused (rules R90, R256 step (1a)). C4 and C5 are taken as VEX in both modes
(log entry 22). -/
def Obligations.HintByteBeforeVexIsInvalidOpcode : Prop :=
  ∀ (c : CodeSize) (ls : List Legacy) (b : Byte) (rest : List Byte),
    (Legacy.repne ∈ ls ∨ Legacy.rep ∈ ls) → (b = 0xC4#8 ∨ b = 0xC5#8) →
    decode c (ls.map Legacy.byte ++ b :: rest) = if ls.length < 15 then .ud else .refuse .tooLong

/-- A 66 prefix before XEND is #UD, also where an F2 or F3 stands before it (rules R224, R256). That the model follows the spec's
general knowledge here is log entry 52. -/
def Obligations.OperandSizePrefixOnXendIsInvalidOpcode : Prop :=
  ∀ (c : CodeSize) (p : Pfx) (rest : List Byte),
    p.wf c = true → p.length + 3 ≤ 15 → Legacy.opSize ∈ p.legacy → decode c (encode (.xend p) ++ rest) = .ud

/-- An instruction of more than 15 bytes is refused, whatever its prefixes (rule R90, decision D35). The spec's decision D35
(log entry 27). -/
def Obligations.OverlongInstructionsAreRefused : Prop :=
  ∀ (c : CodeSize) (i : Instr) (rest : List Byte),
    i.isHinted = false → i.pfx.wf c = true → i.operandsOk c = true → 15 < i.length →
    decode c (encode i ++ rest) = .refuse .tooLong

/-! The step (10_state.md, 60_exceptions.md). -/

/-- Where the bytes at the pc decode to an instruction, the step is that instruction's execution, in the state after the pending
stores of other processors landed (log entry 10), some of this processor's store buffer having drained (log entry 53), and, inside
a region, after the draw that chose no spontaneous abort (rule R166). -/
def Obligations.StepRunsTheDecodedInstruction : Prop :=
  ∀ (s : State) (i : Instr), s.busHitsText = false → (s.rtmActive = true → s.land.chosen = false) →
    let u := if s.rtmActive then s.land.afterDraw else s.land
    decode u.params.code (u.window maxLength u.pc.toNat).1 = .ok i → step s = exec i u

/-- The same from the bytes in memory: a well-formed instruction whose encoding stands at the pc, each byte admitted for fetch
and below the top of the address space, is what the step executes, whatever stands after it. How a fetch asks Admit and what it
reads is the model's (log entries 14, 15). -/
def Obligations.StepRunsTheEncodedInstructionInMemory : Prop :=
  ∀ (s : State) (i : Instr), s.busHitsText = false → (s.rtmActive = true → s.land.chosen = false) →
    i.wf s.params.code = true →
    (∀ (k : Nat) (h : k < (encode i).length),
      s.pc.toNat + k < 2 ^ Mode.linearBits s.mode
        ∧ s.askAdmit .fetch { seg := .cs, off := BitVec.ofNat 64 (s.pc.toNat + k), addr := BitVec.ofNat 64 (s.pc.toNat + k) } 1 = none
        ∧ s.land.viewByte (s.phys (BitVec.ofNat 64 (s.pc.toNat + k))) = (encode i)[k]) →
    step s = exec i (if s.rtmActive then s.land.afterDraw else s.land)

/-- A byte that is not admitted for fetch faults where the instruction's first byte is that byte (rule R67): nothing of the
instruction happens, the pc is the faulting one. That Admit is asked for each byte of a fetch is the model's (log entry 14). -/
def Obligations.DeniedFetchFaults : Prop :=
  ∀ (s : State) (e : Raised), s.busHitsText = false → (s.rtmActive = true → s.land.chosen = false) →
    s.pc.toNat < 2 ^ Mode.linearBits s.mode →
    s.askAdmit .fetch { seg := .cs, off := s.pc, addr := s.pc } 1 = some e →
    step s = .fault (.exception e.exc e.code s.pc)

/-- The invariant holds at reset. -/
def Obligations.ResetMeetsTheInvariant : Prop := State.reset.Inv

/-- Every step keeps the invariant: RTM_ACTIVE is 1 exactly when RTM_NEST_COUNT is at least 1, which stays within its limit
(rule R43); inside a region a register state and a fallback address are held (rules R44, R45); memory and the sets keep their
canonical forms, outside a region the sets are empty, no byte of program text is in the write set or the store buffer (rule R83);
under sequential consistency nothing waits in the store buffer (rule R80); the pc fits its width (rule R30). The sets, the saved
state, the refused store and the store buffer are the spec's decisions (log entries 11, 17, 49, 53). -/
def Obligations.EveryStepKeepsTheInvariant : Prop :=
  ∀ s t : State, s.Inv → step s = .next t → t.Inv

/-- No step changes a launch parameter (the model's choice, log entry 5) or XCR0, an abort included (10_state.md section 4). -/
def Obligations.StepKeepsParametersAndXcr0 : Prop :=
  ∀ s t : State, s.Inv → step s = .next t → t.params = s.params ∧ t.xcr0 = s.xcr0

/-- No step of a state that meets the invariant asks for an abort without a saved register state (log entry 36). -/
def Obligations.NoAbortWithoutRecord : Prop :=
  ∀ s : State, s.Inv → step s ≠ .fault .abortWithoutRecord

/-- Of the instructions in scope only an RTM abort, to the fallback address, sets the pc to anything but `next_pc` (10_state.md
section 2). All nineteen constructors. The spec's decision D8 (log entry 16). -/
def Obligations.OnlyAbortsTransferControl : Prop :=
  ∀ (i : Instr) (s t : State), s.Inv → exec i s = .next t →
    t.pc = s.nextPc i.length ∨ (s.rtmActive = true ∧ t.rtmActive = false ∧ s.fallback = some t.pc)

/-- Only XADD writes the flags; but for it they change in an abort alone, inside a region and to its fallback address, which
restores the saved ones (10_state.md section 3). All nineteen constructors. The spec's decision D34 (log entry 28). -/
def Obligations.OnlyXaddAndAbortsWriteFlags : Prop :=
  ∀ (i : Instr) (s t : State), s.Inv → Instr.addsFlags i = false → exec i s = .next t →
    t.flags = s.flags
      ∨ (s.rtmActive = true ∧ t.rtmActive = false ∧ s.fallback = some t.pc ∧ ∃ r, s.rtmSaved = some r ∧ t.flags = r.flags)

/-- Every exception that an instruction raises is one of 60_exceptions.md section 1's table, under its condition, at the pc of
the instruction: what `Admit` answers about the instruction's own memory operand, of its own width, included. All nineteen
constructors. The conditions for #UD are the spec's decisions (log entry 26). -/
def Obligations.ExceptionsAreThoseOfTheTable : Prop :=
  ∀ (i : Instr) (s : State) (e : Exc) (code : Option (BitVec 32)) (pc : Word),
    exec i s = .fault (.exception e code pc) →
    pc = s.pc ∧
      ((e = .ud ∧ code = none ∧ ((Instr.isRtm i = true ∧ s.params.cpuidRtm = false) ∨ ((∃ p, i = .xgetbv p) ∧ s.params.osxsave = false)))
        ∨ (e = .gp ∧ code = some 0#32 ∧ (((∃ p, i = .xend p) ∧ s.rtmActive = false) ∨ ((∃ p, i = .xgetbv p) ∧ (s.getReg 1#4).toNat % 2 ^ 32 ≠ 0)))
        ∨ (∃ h : Hinted, (i = h.plain ∨ i = .xacquire h ∨ i = .xrelease h) ∧ h.m.isMem = true
            ∧ s.askAdmit .rmw (s.memRef h.p h.m i.length) h.op.width.bytes = some { exc := e, code := code })
        ∨ (∃ p, i = .xlat p ∧ s.askAdmit .read (s.xlatRef p) 1 = some { exc := e, code := code }))

/-- An instruction is refused for one reason only: a read-modify-write, admitted, one of whose bytes is program text (20_memory.md
section 6). All nineteen constructors. The spec's decision D7 (log entry 17). -/
def Obligations.OnlyStoresToTextAreRefused : Prop :=
  ∀ (i : Instr) (s : State) (r : Refusal), exec i s = .refused r →
    r = .storeToText ∧ ∃ h : Hinted, (i = h.plain ∨ i = .xacquire h ∨ i = .xrelease h) ∧ h.m.isMem = true
      ∧ s.askAdmit .rmw (s.memRef h.p h.m i.length) h.op.width.bytes = none
      ∧ s.storeHitsText h.op.width.bytes (s.memRef h.p h.m i.length).addr = true

/-! Registers, flags and addresses (10_state.md, 20_memory.md, 30_encoding.md). -/

/-- Rule R24, as numbers: what a sized write leaves in the register it writes, the other registers untouched. The partial writes
are the spec's general knowledge (log entry 29). -/
def Obligations.SizedRegisterWrites : Prop :=
  ∀ (s : State) (n : RegNum) (rex : Bool) (v : Word),
    (s.writeReg .w64 n rex v).getReg n = v
    ∧ ((s.writeReg .w32 n rex v).getReg n).toNat = v.toNat % 2 ^ 32
    ∧ ((s.writeReg .w16 n rex v).getReg n).toNat = (s.getReg n).toNat / 2 ^ 16 * 2 ^ 16 + v.toNat % 2 ^ 16
    ∧ (if rex = false ∧ 4 ≤ n.toNat ∧ n.toNat ≤ 7 then
        ((s.writeReg .w8 n rex v).getReg (n - 4)).toNat
            = (s.getReg (n - 4)).toNat / 2 ^ 16 * 2 ^ 16 + v.toNat % 2 ^ 8 * 2 ^ 8 + (s.getReg (n - 4)).toNat % 2 ^ 8
          ∧ s.SameRegsBut (s.writeReg .w8 n rex v) [n - 4]
      else
        ((s.writeReg .w8 n rex v).getReg n).toNat = (s.getReg n).toNat / 2 ^ 8 * 2 ^ 8 + v.toNat % 2 ^ 8
          ∧ s.SameRegsBut (s.writeReg .w8 n rex v) [n])
    ∧ s.SameRegsBut (s.writeReg .w64 n rex v) [n]
    ∧ s.SameRegsBut (s.writeReg .w32 n rex v) [n]
    ∧ s.SameRegsBut (s.writeReg .w16 n rex v) [n]

/-- Rule R23, as numbers: what a sized read gives. The numbering of the sub-registers is the spec's general knowledge (log entry
29). -/
def Obligations.SizedRegisterReads : Prop :=
  ∀ (s : State) (n : RegNum) (rex : Bool),
    s.readReg .w64 n rex = s.getReg n
    ∧ (s.readReg .w32 n rex).toNat = (s.getReg n).toNat % 2 ^ 32
    ∧ (s.readReg .w16 n rex).toNat = (s.getReg n).toNat % 2 ^ 16
    ∧ (s.readReg .w8 n rex).toNat =
        if rex = false ∧ 4 ≤ n.toNat ∧ n.toNat ≤ 7 then (s.getReg (n - 4)).toNat / 2 ^ 8 % 2 ^ 8 else (s.getReg n).toNat % 2 ^ 8

/-- Rule R33, as numbers: the six flags of an addition, the overflow flag both by its bits and as signed overflow. The formulas
are the spec's general knowledge (log entry 28). -/
def Obligations.FlagsOfAnAddition : Prop :=
  ∀ (w : Width) (a b : Word), a.toNat < 2 ^ w.bits → b.toNat < 2 ^ w.bits →
    let r := (a.toNat + b.toNat) % 2 ^ w.bits
    let signed : Nat → Int := fun x => if x < 2 ^ (w.bits - 1) then x else (x : Int) - 2 ^ w.bits
    let f := addFlags w a b
    (f.cf = true ↔ 2 ^ w.bits ≤ a.toNat + b.toNat)
    ∧ (f.pf = true ↔ (List.range 8).countP (fun i => r.testBit i) % 2 = 0)
    ∧ (f.af = true ↔ 16 ≤ a.toNat % 16 + b.toNat % 16)
    ∧ (f.zf = true ↔ r = 0)
    ∧ f.sf = r.testBit (w.bits - 1)
    ∧ (f.of = true ↔ a.toNat.testBit (w.bits - 1) = b.toNat.testBit (w.bits - 1) ∧ r.testBit (w.bits - 1) ≠ a.toNat.testBit (w.bits - 1))
    ∧ (f.of = true ↔ signed a.toNat + signed b.toNat < -2 ^ (w.bits - 1) ∨ 2 ^ (w.bits - 1) ≤ signed a.toNat + signed b.toNat)

/-- Rule R104: the offset and the default segment of a memory operand with a 16-bit address. The address forms are the spec's
general knowledge (log entry 27). -/
def Obligations.SixteenBitAddresses : Prop :=
  ∀ (s : State) (p : Pfx) (m : ModRM) (next : Word), s.params.code.addrSize p = .a16 → m.isMem = true →
    let bx := (s.getReg 3#4).toNat % 2 ^ 16
    let bp := (s.getReg 5#4).toNat % 2 ^ 16
    let si := (s.getReg 6#4).toNat % 2 ^ 16
    let di := (s.getReg 7#4).toNat % 2 ^ 16
    let base : Nat := match m.rm.toNat with
      | 0 => bx + si
      | 1 => bx + di
      | 2 => bp + si
      | 3 => bp + di
      | 4 => si
      | 5 => di
      | 6 => if m.mod = 0#2 then 0 else bp
      | _ => bx
    ((s.memOffset p m next).toNat : Int) = ((base : Int) + dispSigned m.disp) % 2 ^ 16
      ∧ (s.defaultSeg p m = .ss ↔ m.rm = 2#3 ∨ m.rm = 3#3 ∨ (m.rm = 6#3 ∧ m.mod ≠ 0#2))
      ∧ (s.defaultSeg p m = .ss ∨ s.defaultSeg p m = .ds)

/-- Rule R105: the offset and the default segment of a memory operand with a 32- or 64-bit address and no SIB byte, RIP-relative
in 64-bit mode. The address forms are the spec's general knowledge (log entry 27). -/
def Obligations.AddressesWithoutSib : Prop :=
  ∀ (s : State) (p : Pfx) (m : ModRM) (next : Word),
    let as := s.params.code.addrSize p
    as ≠ .a16 → m.isMem = true → m.sib = none →
    let base : Nat :=
      if m.mod = 0#2 ∧ m.rm = 5#3 then (if s.mode = .mode64 then next.toNat else 0)
      else (s.readReg as.width (BitVec.ofBool p.rexB ++ m.rm) true).toNat
    ((s.memOffset p m next).toNat : Int) = ((base : Int) + dispSigned m.disp) % 2 ^ as.bits
      ∧ s.defaultSeg p m = (if m.mod ≠ 0#2 ∧ m.rm = 5#3 then .ss else .ds)

/-- Rule R106: the offset and the default segment of a memory operand with a SIB byte. The address forms are the spec's general
knowledge (log entry 27). -/
def Obligations.AddressesWithSib : Prop :=
  ∀ (s : State) (p : Pfx) (m : ModRM) (b : Sib) (next : Word),
    let as := s.params.code.addrSize p
    as ≠ .a16 → m.isMem = true → m.sib = some b →
    let i : RegNum := BitVec.ofBool p.rexX ++ b.index
    let n : RegNum := BitVec.ofBool p.rexB ++ b.base
    let index : Nat := if i = 4#4 then 0 else (s.readReg as.width i true).toNat * 2 ^ b.scale.toNat
    let base : Nat := if b.base = 5#3 ∧ m.mod = 0#2 then 0 else (s.readReg as.width n true).toNat
    ((s.memOffset p m next).toNat : Int) = ((base : Int) + index + dispSigned m.disp) % 2 ^ as.bits
      ∧ s.defaultSeg p m = (if n = 4#4 ∨ (n = 5#4 ∧ m.mod ≠ 0#2) then .ss else .ds)

/-- Rules R66 and R107: the linear address of a memory operand, its segment the last override or the default, bases 0 for ES,
CS, SS and DS in 64-bit mode. The flat bases are the spec's general knowledge (log entry 50). -/
def Obligations.LinearAddressOfAnOperand : Prop :=
  ∀ (s : State) (p : Pfx) (m : ModRM) (len : Nat),
    let r := s.memRef p m len
    r.seg = p.seg.getD (s.defaultSeg p m)
      ∧ r.addr.toNat =
        ((if s.mode = .mode64 ∧ r.seg ≠ .fs ∧ r.seg ≠ .gs then 0 else (segBaseOf s.params.segBase r.seg).toNat)
          + (s.memOffset p m (s.nextPc len)).toNat) % 2 ^ Mode.linearBits s.mode

/-- With the identity translation, the bytes of an access stand at consecutive addresses that wrap at the linear-address width
and are all different (20_memory.md sections 2 and 5). Translation byte by byte is the model's (log entry 18). -/
def Obligations.BytesOfAnAccessAreDistinct : Prop :=
  ∀ (s : State) (n : Nat) (a : Word), s.params.translate = [] → n ≤ 8 → s.fitsLinear a →
    s.byteAddrs n a = (List.range n).map (fun k => (a.toNat + k) % 2 ^ Mode.linearBits s.mode) ∧ (s.byteAddrs n a).Nodup

/-- Rules R62 and R63: what a store of `n` bytes, of any atomicity, leaves for a load of the same bytes (the value modulo 2^(8n))
and for a 1-byte load of the byte at `addr + k` (bits 8k+7:8k), inside a region and outside, under either consistency model; where
one is plain, no store of another processor is pending. Little-endian order is the spec's decision D2 (log entry 30). -/
def Obligations.LoadsSeeTheStoredBytes : Prop :=
  ∀ (s : State) (j k : Atomicity) (n : Nat) (a v : Word), (j = .plain ∨ k = .plain → s.bus = []) → n ≤ 8 → (s.byteAddrs n a).Nodup →
    ((s.store j n a v).loadValue k n a).toNat = v.toNat % 2 ^ (8 * n)
      ∧ ∀ (i : Nat) (h : i < (s.byteAddrs n a).length),
        (s.store j n a v).viewByte ((s.byteAddrs n a)[i]) = v.extractLsb' (8 * i) 8

/-! The store buffer (20_memory.md section 6). -/

/-- With nothing of other processors pending, a landing lets some of the store buffer reach shared memory, the oldest first, and
every amount is admitted: the buffer is FIFO (rule R80's total-store-order alternative). The choice is a draw (log entry 53). -/
def Obligations.StoreBufferDrainsInOrder : Prop :=
  ∀ s : State, s.bus = [] → s.storeBuffer.length < 2 ^ 64 →
    (∃ n ≤ s.storeBuffer.length, s.land.storeBuffer = s.storeBuffer.drop n
      ∧ ∀ a, s.land.mem.read a = (Cells.newest (s.storeBuffer.take n) a).getD (s.mem.read a))
    ∧ ∀ n ≤ s.storeBuffer.length, ∃ d, (s.setDraws d).land.storeBuffer = s.storeBuffer.drop n
      ∧ ∀ a, (s.setDraws d).land.mem.read a = (Cells.newest (s.storeBuffer.take n) a).getD (s.mem.read a)

/-- Each processor sees its own accesses in program order (rule R80 (a)): what drains shows it nothing, so that a landing changes
only bytes that another processor's store is to; its newest buffered store is what it sees outside a write set. How stores land
is the model's (log entries 10, 53). -/
def Obligations.LandingKeepsOwnView : Prop :=
  ∀ s : State, s.SameViewBut s.land s.busAddrs
    ∧ ∀ (b : Byte) (a x : Nat) (k : Atomicity), s.rtmActive = false →
      (s.storeByte k a b).viewByte x = (if x = a then b else s.viewByte x)
        ∧ s.viewByte x = (Cells.newest s.storeBuffer x).getD (s.mem.read x)

/-! XADD (42_xadd.md). -/

/-- XADD with a register destination, at all four widths (`xaddRm8`, `xaddRm16`, `xaddRm32`, `xaddRm64`): it completes, DEST
holds the sum, SRC the old DEST unless it is the same register, the flags are those of the addition (rules R178, R181), and
nothing else changes. The flags and the partial writes are the spec's general knowledge (log entries 28, 29). -/
def Obligations.XaddRegisterForm : Prop :=
  ∀ (w : Width) (p : Pfx) (m : ModRM) (s : State), m.isMem = false →
    let d := m.rmNum p
    let r := m.regNum p
    let a := s.readReg w d p.hasRex
    let b := s.readReg w r p.hasRex
    ∃ t v, exec (Instr.xaddRm w p m) s = .next t
      ∧ v.toNat = (a.toNat + b.toNat) % 2 ^ w.bits
      ∧ t.regs = ((s.writeReg w r p.hasRex a).writeReg w d p.hasRex v).regs
      ∧ t.readReg w d p.hasRex = v
      ∧ (r ≠ d → t.readReg w r p.hasRex = a)
      ∧ t.flags = addFlags w a b
      ∧ t.pc = s.nextPc (p.length + 2 + m.length)
      ∧ s.SameRegsBut t [homeReg w d p.hasRex, homeReg w r p.hasRex]
      ∧ s.SameMemory t ∧ s.SameRegion t ∧ s.SameSets t ∧ s.SameSystem t

/-- XADD with a memory destination, at all four widths, locked, or with no store of another processor pending: it completes
where the access is admitted and stores to no program text; the bytes of the destination hold the sum, SRC the old value, the
flags are those of the addition (rules R178, R181). Every other byte reads as before. Outside a region the bytes of the sum join
this processor's stores, in order, some of which have reached shared memory: all, where the access is locked or under sequential
consistency (rule R80); inside a region they do not (rule R76). The flags, the byte order, the store of the text and the store
buffer are the spec's decisions (log entries 17, 28, 30, 53). -/
def Obligations.XaddMemoryForm : Prop :=
  ∀ (w : Width) (p : Pfx) (m : ModRM) (s : State), m.isMem = true →
    let ref := s.memRef p m (p.length + 2 + m.length)
    let addrs := s.byteAddrs w.bytes ref.addr
    let a := joinBytes (addrs.map s.viewByte)
    let b := s.readReg w (m.regNum p) p.hasRex
    let queue : Word → List Host.Cell := fun v => s.storeBuffer ++ (if s.rtmActive then [] else addrs.zip (splitBytes w.bytes v))
    (p.lock = true ∨ s.bus = []) → s.askAdmit .rmw ref w.bytes = none → s.storeHitsText w.bytes ref.addr = false → addrs.Nodup →
    ∃ t v n, exec (Instr.xaddRm w p m) s = .next t
      ∧ v.toNat = (a.toNat + b.toNat) % 2 ^ w.bits
      ∧ addrs.map t.viewByte = splitBytes w.bytes v
      ∧ s.SameViewBut t addrs
      ∧ t.storeBuffer = (queue v).drop n
      ∧ (∀ x, t.mem.read x = (Cells.newest ((queue v).take n) x).getD (s.mem.read x))
      ∧ (p.lock = true ∨ (s.params.consistency = .sc ∧ s.rtmActive = false) → (queue v).length ≤ n)
      ∧ (s.rtmActive = false → s.SameSets t)
      ∧ t.readSet = (s.afterLoad .single w.bytes ref.addr).readSet
      ∧ t.regs = (s.writeReg w (m.regNum p) p.hasRex a).regs
      ∧ t.readReg w (m.regNum p) p.hasRex = a
      ∧ s.SameRegsBut t [homeReg w (m.regNum p) p.hasRex]
      ∧ t.flags = addFlags w a b
      ∧ t.pc = s.nextPc (p.length + 2 + m.length)
      ∧ s.SameRegion t ∧ s.SameSpecial t ∧ t.bus = s.bus
      ∧ (p.lock = true ∨ (s.params.consistency = .sc ∧ s.storeBuffer = []) → t.draws = s.draws)

/-- XADD with a memory destination and no LOCK, at all four widths: it completes whatever other processors have pending, its
accesses apart (20_memory.md rules R70, R72). Byte `k` is read after `k + 1` further batches of their stores landed; byte `k` of
the sum is stored after `w.bytes + k + 1` of them, so that what landed on it before is lost (rule R183) and only a later batch, or
the part of the later batches after it drains, overwrites it. Inside a region both go through the sets (rules R75, R76). Shared
memory changes at the destination and where stores land or drain alone. Where other processors' stores land and how the store
buffer drains is the model's (log entries 10, 12, 53). -/
def Obligations.UnlockedXaddIsInterleaved : Prop :=
  ∀ (w : Width) (p : Pfx) (m : ModRM) (s : State), m.isMem = true → p.lock = false →
    let ref := s.memRef p m (p.length + 2 + m.length)
    let addrs := s.byteAddrs w.bytes ref.addr
    let b := s.readReg w (m.regNum p) p.hasRex
    let later : Nat → List Host.Cell := fun k => ((s.bus.take (2 * w.bytes)).drop (w.bytes + k + 1)).flatten
    s.askAdmit .rmw ref w.bytes = none → s.storeHitsText w.bytes ref.addr = false → addrs.Nodup →
    ∃ t a v, exec (Instr.xaddRm w p m) s = .next t
      ∧ (∀ (k : Nat) (h : k < addrs.length), a.extractLsb' (8 * k) 8 = (State.land^[k + 1] s).viewByte addrs[k])
      ∧ a.toNat < 2 ^ w.bits
      ∧ v.toNat = (a.toNat + b.toNat) % 2 ^ w.bits
      ∧ (s.rtmActive = false → s.SameSets t
          ∧ (∃ n, t.storeBuffer = (s.storeBuffer ++ addrs.zip (splitBytes w.bytes v)).drop n)
          ∧ ∀ (k : Nat) (h : k < addrs.length), ∃ j, (s.params.consistency = .sc → j = 0)
            ∧ t.viewByte addrs[k] = (Cells.newest ((later k).drop j) addrs[k]).getD (v.extractLsb' (8 * k) 8))
      ∧ (s.rtmActive = true → (∃ n, t.storeBuffer = s.storeBuffer.drop n)
          ∧ (∀ x ∉ addrs, Cells.lookup t.writeSet x = Cells.lookup s.writeSet x ∧ Cells.lookup t.readSet x = Cells.lookup s.readSet x)
          ∧ ∀ (k : Nat) (h : k < addrs.length), Cells.lookup t.writeSet addrs[k] = some (v.extractLsb' (8 * k) 8)
            ∧ Cells.lookup t.readSet addrs[k] =
              if Cells.lookup s.writeSet addrs[k] = none ∧ Cells.lookup s.readSet addrs[k] = none
              then some (a.extractLsb' (8 * k) 8) else Cells.lookup s.readSet addrs[k])
      ∧ (s.params.consistency = .sc → s.storeBuffer = [] → t.storeBuffer = [] ∧ t.draws = s.draws
          ∧ ∀ x, s.rtmActive = true ∨ x ∉ addrs →
            t.mem.read x = (Cells.newest (s.bus.take (2 * w.bytes)).flatten x).getD (s.mem.read x))
      ∧ s.SameMemoryBut t ((if s.rtmActive then [] else addrs) ++ s.busAddrs ++ s.bufferAddrs)
      ∧ t.regs = (s.writeReg w (m.regNum p) p.hasRex a).regs
      ∧ t.flags = addFlags w a b
      ∧ t.pc = s.nextPc (p.length + 2 + m.length)
      ∧ t.bus = s.bus.drop (2 * w.bytes)
      ∧ s.SameRegion t ∧ s.SameSpecial t

/-! XCHG (44_xchg.md). -/

/-- Rule R211: XCHG, in every form and width, writes no flag. -/
def Obligations.XchgWritesNoFlag : Prop :=
  ∀ (i : Instr) (s t : State),
    ((∃ w p m, i = Instr.xchgRm w p m) ∨ ∃ o p r, i = Instr.xchgAcc o p r) →
    exec i s = .next t → t.flags = s.flags

/-- XCHG of two registers with a ModRM byte, at all four widths (`xchgRm8`, `xchgRm16`, `xchgRm32`, `xchgRm64`): it completes,
the two operands are exchanged (rule R208), and nothing else changes, no flag either (rule R211). The partial writes are the
spec's general knowledge (log entry 29). -/
def Obligations.XchgRegisterForm : Prop :=
  ∀ (w : Width) (p : Pfx) (m : ModRM) (s : State), m.isMem = false →
    let d := m.rmNum p
    let r := m.regNum p
    let a := s.readReg w d p.hasRex
    let b := s.readReg w r p.hasRex
    ∃ t, exec (Instr.xchgRm w p m) s = .next t
      ∧ t.regs = ((s.writeReg w d p.hasRex b).writeReg w r p.hasRex a).regs
      ∧ t.readReg w d p.hasRex = b
      ∧ t.readReg w r p.hasRex = a
      ∧ t.flags = s.flags
      ∧ t.pc = s.nextPc (p.length + 1 + m.length)
      ∧ s.SameRegsBut t [homeReg w d p.hasRex, homeReg w r p.hasRex]
      ∧ s.SameMemory t ∧ s.SameRegion t ∧ s.SameSets t ∧ s.SameSystem t

/-- XCHG with the accumulator, at all three operand sizes (`xchgAcc16`, `xchgAcc32`, `xchgAcc64`): opcode 90 with REX.B = 0
advances the pc alone (rule R212); else register 0 and register `REX.B ++ r` are exchanged (rule R208), and nothing else
changes. Opcode 90 is the spec's decision D20 (log entry 24). -/
def Obligations.XchgAccumulatorForm : Prop :=
  ∀ (o : OpSize) (p : Pfx) (r : BitVec 3) (s : State),
    let w := o.width
    let n : RegNum := BitVec.ofBool p.rexB ++ r
    let a := s.readReg w 0#4 p.hasRex
    let b := s.readReg w n p.hasRex
    ∃ t, exec (Instr.xchgAcc o p r) s = .next t
      ∧ t.pc = s.nextPc (p.length + 1)
      ∧ (if p.rexB = false ∧ r = 0#3 then t.regs = s.regs
        else t.regs = ((s.writeReg w 0#4 p.hasRex b).writeReg w n p.hasRex a).regs
          ∧ t.readReg w 0#4 p.hasRex = b ∧ t.readReg w n p.hasRex = a)
      ∧ t.flags = s.flags
      ∧ s.SameRegsBut t [0#4, n]
      ∧ s.SameMemory t ∧ s.SameRegion t ∧ s.SameSets t ∧ s.SameSystem t

/-- XCHG with a memory operand, at all four widths, with LOCK or without: it completes where the access is admitted and stores
to no program text; memory and register are exchanged (rule R208), nothing of another processor lands in between (rules R69,
R209), every other byte reads as before, nothing is left in the store buffer (rule R80), and inside a region shared memory takes
only what had waited there (rule R76). The byte order, the store of the text and the store buffer are the spec's decisions (log
entries 17, 30, 53). -/
def Obligations.XchgMemoryForm : Prop :=
  ∀ (w : Width) (p : Pfx) (m : ModRM) (s : State), m.isMem = true →
    let ref := s.memRef p m (p.length + 1 + m.length)
    let addrs := s.byteAddrs w.bytes ref.addr
    let a := joinBytes (addrs.map s.viewByte)
    let b := s.readReg w (m.regNum p) p.hasRex
    s.askAdmit .rmw ref w.bytes = none → s.storeHitsText w.bytes ref.addr = false → addrs.Nodup →
    ∃ t, exec (Instr.xchgRm w p m) s = .next t
      ∧ addrs.map t.viewByte = splitBytes w.bytes b
      ∧ s.SameViewBut t addrs
      ∧ t.storeBuffer = []
      ∧ (∀ x, s.rtmActive = true ∨ x ∉ addrs → t.mem.read x = (Cells.newest s.storeBuffer x).getD (s.mem.read x))
      ∧ (s.rtmActive = false → s.SameSets t)
      ∧ t.readSet = (s.afterLoad .single w.bytes ref.addr).readSet
      ∧ t.regs = (s.writeReg w (m.regNum p) p.hasRex a).regs
      ∧ t.readReg w (m.regNum p) p.hasRex = a
      ∧ s.SameRegsBut t [homeReg w (m.regNum p) p.hasRex]
      ∧ t.flags = s.flags
      ∧ t.pc = s.nextPc (p.length + 1 + m.length)
      ∧ s.SameRegion t ∧ s.SameSpecial t ∧ t.bus = s.bus ∧ t.draws = s.draws

/-- A read-modify-write that Admit denies faults with Admit's exception and one on the program text is refused, with nothing
else to show (rules R67, R83): XADD and XCHG with a memory operand at all widths, hinted or not. The spec's decisions D7 and D29
(log entries 17, 19). -/
def Obligations.DeniedReadModifyWriteStops : Prop :=
  ∀ (h : Hinted) (s : State), h.m.isMem = true →
    let ref := s.memRef h.p h.m h.plain.length
    let n := h.op.width.bytes
    (∀ e, s.askAdmit .rmw ref n = some e →
      exec h.plain s = .fault (.exception e.exc e.code s.pc)
        ∧ exec (.xacquire h) s = .fault (.exception e.exc e.code s.pc)
        ∧ exec (.xrelease h) s = .fault (.exception e.exc e.code s.pc))
    ∧ (s.askAdmit .rmw ref n = none → s.storeHitsText n ref.addr = true →
      exec h.plain s = .refused .storeToText
        ∧ exec (.xacquire h) s = .refused .storeToText
        ∧ exec (.xrelease h) s = .refused .storeToText)

/-! XACQUIRE and XRELEASE (40_xacquire_xrelease.md). -/

/-- `xacquire` completes where the access of its instruction is admitted and stores to no program text: the next state is that
of the same instruction without the hint, but that the operand's address is recorded as elided when CPUID_HLE is 1 (rules R145,
R148). What a hint does is the spec's decision D16 (log entries 21, 41). -/
def Obligations.XacquireRunsItsInstruction : Prop :=
  ∀ (h : Hinted) (s : State), h.m.isMem = true →
    let ref := s.memRef h.p h.m h.plain.length
    s.askAdmit .rmw ref h.op.width.bytes = none → s.storeHitsText h.op.width.bytes ref.addr = false →
    ∃ u t, exec h.plain s = .next u ∧ exec (.xacquire h) s = .next t
      ∧ t.hleElided = (if s.params.cpuidHle then some ref.addr else s.hleElided)
      ∧ u.hleElided = s.hleElided
      ∧ t.setElided u.hleElided = u

/-- `xrelease` completes where the access of its instruction is admitted and stores to no program text: the next state is that
of the same instruction without the hint, but that an elision on the operand's address ends when CPUID_HLE is 1 (rules R47,
R145, R148; log entry 20). What a hint does is the spec's decision D16 (log entries 21, 41). -/
def Obligations.XreleaseRunsItsInstruction : Prop :=
  ∀ (h : Hinted) (s : State), h.m.isMem = true →
    let ref := s.memRef h.p h.m h.plain.length
    s.askAdmit .rmw ref h.op.width.bytes = none → s.storeHitsText h.op.width.bytes ref.addr = false →
    ∃ u t, exec h.plain s = .next u ∧ exec (.xrelease h) s = .next t
      ∧ t.hleElided = (if s.params.cpuidHle = true ∧ s.hleElided = some ref.addr then none else s.hleElided)
      ∧ u.hleElided = s.hleElided
      ∧ t.setElided u.hleElided = u

/-! Transactional regions (41_xabort.md, 43_xbegin.md, 45_xend.md, 20_memory.md). -/

/-- XABORT outside a region is a NOP: it changes the pc alone (rule R163). -/
def Obligations.XabortOutsideARegionIsANop : Prop :=
  ∀ (p : Pfx) (imm8 : BitVec 8) (s : State), s.params.cpuidRtm = true → s.rtmActive = false →
    ∃ t, exec (.xabort p imm8) s = .next t
      ∧ t.pc = s.nextPc (p.length + 3)
      ∧ t.regs = s.regs ∧ t.flags = s.flags
      ∧ s.SameMemory t ∧ s.SameRegion t ∧ s.SameSets t ∧ s.SameSystem t

/-- XABORT inside a region aborts it whole (rules R163, R164): the registers and flags are those of the outermost XBEGIN, EAX
the status with imm8 in bits 31:24, and every value of the other 24 bits is admitted (rule R165). Which registers are restored
and the free bits are the spec's decisions (log entries 33, 43, 49). -/
def Obligations.XabortInsideARegionAborts : Prop :=
  ∀ (p : Pfx) (imm8 : BitVec 8) (s : State) (r : Saved) (f : Word),
    s.params.cpuidRtm = true → s.rtmActive = true → s.rtmSaved = some r → s.fallback = some f →
    (∃ t status, exec (.xabort p imm8) s = .next t ∧ s.AbortedTo r f status t ∧ status.extractLsb' 24 8 = imm8)
      ∧ ∀ low : BitVec 24, ∃ d t, exec (.xabort p imm8) (s.setDraws d) = .next t ∧ s.AbortedTo r f (imm8 ++ low) t

/-- Rule R168: outside a region XABORT changes no flag; inside, the abort restores the flags to their values at the outermost
XBEGIN: those held in the saved state, which a step that opens a region fills with the flags it found, and which stays as it is for
as long as the region is open. -/
def Obligations.XabortRestoresTheFlagsOfXbegin : Prop :=
  (∀ (p : Pfx) (imm8 : BitVec 8) (s t : State), exec (.xabort p imm8) s = .next t →
    (s.rtmActive = false → t.flags = s.flags) ∧ (s.rtmActive = true → ∃ r, s.rtmSaved = some r ∧ t.flags = r.flags))
  ∧ ∀ s t : State, step s = .next t → t.rtmActive = true →
    if s.rtmActive = true then t.rtmSaved = s.rtmSaved else ∃ r, t.rtmSaved = some r ∧ r.flags = s.flags

/-- XABORT, XBEGIN and XEND raise #UD when CPUID_RTM is 0, whatever else holds (decision D18, log entry 26). -/
def Obligations.RtmInstructionsNeedTheFeature : Prop :=
  ∀ (i : Instr) (s : State), Instr.isRtm i = true → s.params.cpuidRtm = false →
    exec i s = .fault (.exception .ud none s.pc)

/-- The outermost XBEGIN, `xbeginRel16` and `xbeginRel32`, completes and opens a region (rules R193, R194): the registers and
flags as they were are saved, the fallback address is `next_pc` plus the signed offset modulo 2^P, cut to 16 bits for rel16, the
sets are empty, and no register, flag or byte of memory changes. The base and the cut of the offset are the spec's decision D10
(log entry 32). -/
def Obligations.OutermostXbeginOpensARegion : Prop :=
  ∀ (p : Pfx) (s : State), s.params.cpuidRtm = true → s.rtmActive = false → s.rtmNest ≠ s.params.maxNest →
    let opened : State → Nat → Int → Prop := fun t len target =>
      t.rtmActive = true ∧ t.rtmNest = s.rtmNest + 1
        ∧ (∃ f, t.fallback = some f ∧ (f.toNat : Int) = target)
        ∧ t.rtmSaved = some { regs := s.regs, flags := s.flags, xcr0 := s.xcr0 }
        ∧ t.writeSet = [] ∧ t.readSet = []
        ∧ t.pc = s.nextPc len
        ∧ t.regs = s.regs ∧ t.flags = s.flags ∧ s.SameMemory t ∧ s.SameSystem t
    (∀ rel : BitVec 16, ∃ t, exec (.xbeginRel16 p rel) s = .next t
      ∧ opened t (p.length + 4) (((s.nextPc (p.length + 4)).toNat + rel.toInt) % 2 ^ Mode.linearBits s.mode % 2 ^ 16))
    ∧ (∀ rel : BitVec 32, ∃ t, exec (.xbeginRel32 p rel) s = .next t
      ∧ opened t (p.length + 6) (((s.nextPc (p.length + 6)).toNat + rel.toInt) % 2 ^ Mode.linearBits s.mode))

/-- A nested XBEGIN below the limit changes the count and the pc alone (rule R194); at the limit it aborts the region, with any
status (rules R165, R194). Nesting and its limit are the spec's decision D11 (log entry 44). -/
def Obligations.NestedXbeginCountsOrAborts : Prop :=
  ∀ (i : Instr) (s : State), ((∃ p rel, i = .xbeginRel16 p rel) ∨ ∃ p rel, i = .xbeginRel32 p rel) →
    s.params.cpuidRtm = true → s.rtmActive = true →
    (s.rtmNest ≠ s.params.maxNest → ∃ t, exec i s = .next t
      ∧ t.rtmNest = s.rtmNest + 1 ∧ t.rtmActive = true ∧ t.fallback = s.fallback ∧ t.rtmSaved = s.rtmSaved
      ∧ t.pc = s.nextPc i.length ∧ t.regs = s.regs ∧ t.flags = s.flags ∧ s.SameMemory t ∧ s.SameSets t ∧ s.SameSystem t)
    ∧ (s.rtmNest = s.params.maxNest → ∀ r f, s.rtmSaved = some r → s.fallback = some f →
      (∃ t status, exec i s = .next t ∧ s.AbortedTo r f status t)
        ∧ ∀ status, ∃ d t, exec i (s.setDraws d) = .next t ∧ s.AbortedTo r f status t)

/-- XEND outside a region raises #GP (rule R222), with error code 0 (decision D19, log entry 39). -/
def Obligations.XendOutsideARegionFaults : Prop :=
  ∀ (p : Pfx) (s : State), s.params.cpuidRtm = true → s.rtmActive = false →
    exec (.xend p) s = .fault (.exception .gp (some 0#32) s.pc)

/-- An inner XEND completes and changes the count and the pc alone: it commits nothing (rule R222). Nesting is the spec's
decision D11 (log entry 44). -/
def Obligations.InnerXendCountsDown : Prop :=
  ∀ (p : Pfx) (s : State), s.params.cpuidRtm = true → s.rtmActive = true → 2 ≤ s.rtmNest →
    ∃ t, exec (.xend p) s = .next t
      ∧ t.rtmNest + 1 = s.rtmNest ∧ t.rtmActive = true ∧ t.fallback = s.fallback ∧ t.rtmSaved = s.rtmSaved
      ∧ t.pc = s.nextPc (p.length + 3) ∧ t.regs = s.regs ∧ t.flags = s.flags
      ∧ s.SameMemory t ∧ s.SameSets t ∧ s.SameSystem t

/-- The outermost XEND (rules R77, R222): if the read set validates against shared memory, this processor's store buffer drained
(decision D33, log entry 53), and the commit is not chosen to fail, the whole write set is in shared memory, every other byte is as
the drained buffer leaves it, the region is closed, and the registers and flags stay. Commit by value is the spec's decision D15;
the free choice is a draw (log entry 9). -/
def Obligations.OutermostXendCommits : Prop :=
  ∀ (p : Pfx) (s : State), s.params.cpuidRtm = true → s.rtmActive = true → s.rtmNest = 1 → Cells.rising s.writeSet →
    (∀ c ∈ s.readSet, (Cells.newest s.storeBuffer c.1).getD (s.mem.read c.1) = c.2) → s.chosen = false →
    ∃ t, exec (.xend p) s = .next t
      ∧ (∀ a, t.mem.read a = (Cells.lookup s.writeSet a).getD ((Cells.newest s.storeBuffer a).getD (s.mem.read a)))
      ∧ t.storeBuffer = []
      ∧ t.writeSet = [] ∧ t.readSet = []
      ∧ t.rtmActive = false ∧ t.rtmNest = 0 ∧ t.rtmSaved = none ∧ t.fallback = none
      ∧ t.pc = s.nextPc (p.length + 3) ∧ t.regs = s.regs ∧ t.flags = s.flags
      ∧ s.SameSpecial t ∧ t.bus = s.bus

/-- The outermost XEND whose read set no longer stands in shared memory, the store buffer drained, or whose commit is chosen to
fail, aborts the region (rules R77, R222); both outcomes are admitted where the read set validates, and every status (rules R165,
R223). That a commit may always fail is the spec's decision D30, its status D13; the free choices are draws (log entries 9, 43),
the store buffer's part log entry 53. -/
def Obligations.OutermostXendMayFail : Prop :=
  ∀ (p : Pfx) (s : State) (r : Saved) (f : Word), s.params.cpuidRtm = true → s.rtmActive = true → s.rtmNest = 1 →
    s.rtmSaved = some r → s.fallback = some f →
    ((∃ c ∈ s.readSet, (Cells.newest s.storeBuffer c.1).getD (s.mem.read c.1) ≠ c.2) ∨ s.chosen = true →
      ∃ t status, exec (.xend p) s = .next t ∧ s.drain.AbortedTo r f status t)
    ∧ (∀ status, ∃ d t, exec (.xend p) (s.setDraws d) = .next t ∧ s.drain.AbortedTo r f status t)
    ∧ ((∀ c ∈ s.readSet, (Cells.newest s.storeBuffer c.1).getD (s.mem.read c.1) = c.2) →
      ∃ d t, exec (.xend p) (s.setDraws d) = .next t ∧ t.pc = s.nextPc (p.length + 3) ∧ t.regs = s.regs ∧ t.rtmActive = false)

/-- At every instruction boundary inside a region a spontaneous abort is admitted, with any status, in place of whatever
instruction stands at the pc (rules R165, R166). The spec's decision D30; the free choice is a draw (log entry 8). -/
def Obligations.RegionMayAbortAtEveryBoundary : Prop :=
  ∀ (s : State) (r : Saved) (f : Word) (status : BitVec 32), s.rtmActive = true → s.rtmSaved = some r → s.fallback = some f →
    s.busHitsText = false →
    ∃ d t, step (s.setDraws d) = .next t ∧ s.land.AbortedTo r f status t

/-- Inside a region a read that no store of another processor interrupts gives for each byte the write set's, or else shared memory's
(this processor's newest buffered store's, where one waits, rule R80 (a)), and in the second case enters the byte in the read set
unless its address has an entry; nothing else of the sets changes (rule R75). The read set and the write set are the spec's decision
D15; their addresses are translated ones (log entry 18); how they meet the store buffer is log entry 53. -/
def Obligations.TransactionalReadsAreNoted : Prop :=
  ∀ (s : State) (k : Atomicity) (n : Nat) (a : Word), s.rtmActive = true → (k = .plain → s.bus = []) →
    let t := s.afterLoad k n a
    let shared : Nat → Byte := fun x => (Cells.newest s.storeBuffer x).getD (s.mem.read x)
    s.loadValue k n a
        = joinBytes ((s.byteAddrs n a).map fun x => (Cells.lookup s.writeSet x).getD (shared x))
      ∧ t.writeSet = s.writeSet
      ∧ ∀ x, Cells.lookup t.readSet x =
        if x ∈ s.byteAddrs n a ∧ Cells.lookup s.writeSet x = none ∧ Cells.lookup s.readSet x = none then some (shared x)
        else Cells.lookup s.readSet x

/-- Inside a region a store that no store of another processor interrupts enters its bytes in the write set and leaves the read set
and every other entry of the write set; shared memory takes nothing of it, only what had waited in the store buffer, in order (rule
R76). The sets are the spec's decision D15; the store buffer's part is log entry 53. -/
def Obligations.TransactionalWritesAreBuffered : Prop :=
  ∀ (s : State) (k : Atomicity) (n : Nat) (a v : Word), s.rtmActive = true → (k = .plain → s.bus = []) → (s.byteAddrs n a).Nodup →
    let t := s.store k n a v
    (∃ d, t.storeBuffer = s.storeBuffer.drop d
        ∧ (∀ x, t.mem.read x = (Cells.newest (s.storeBuffer.take d) x).getD (s.mem.read x)))
      ∧ t.readSet = s.readSet
      ∧ (∀ x, x ∉ s.byteAddrs n a → Cells.lookup t.writeSet x = Cells.lookup s.writeSet x)
      ∧ ∀ (i : Nat) (h : i < (s.byteAddrs n a).length),
        Cells.lookup t.writeSet (s.byteAddrs n a)[i] = some (v.extractLsb' (8 * i) 8)

/-- Inside a region no instruction but the outermost XEND writes shared memory: what changes there is other processors' stores and
this processor's earlier ones leaving its store buffer (20_memory.md section 4). All nineteen constructors. The spec's decision D15
(log entries 10, 12, 53). -/
def Obligations.RegionLeavesSharedMemory : Prop :=
  ∀ (i : Instr) (s t : State), s.rtmActive = true → exec i s = .next t →
    ((∃ p, i = .xend p) → 2 ≤ s.rtmNest) → s.SameMemoryBut t (s.busAddrs ++ s.bufferAddrs)

/-! XGETBV (46_xgetbv.md). -/

/-- XGETBV (rule R232) with ECX = 0 completes, whatever RCX holds above bit 31: EDX:EAX holds XCR0 in its implemented bits, every
value of the others is admitted (log entry 42), the upper halves of RAX and RDX are cleared, and nothing else changes. With any
other ECX it raises #GP(0). OSXSAVE_ENABLED is 1 (decision D23, log entry 26). -/
def Obligations.XgetbvReadsXcr0 : Prop :=
  ∀ (p : Pfx) (s : State), s.params.osxsave = true →
    let mask := s.params.xcr0ImplMask
    let reads : State → Prop := fun t =>
      (t.getReg 0#4).toNat < 2 ^ 32 ∧ (t.getReg 2#4).toNat < 2 ^ 32
        ∧ (∀ k < 32, mask.getLsbD k = true → (t.getReg 0#4).getLsbD k = s.xcr0.getLsbD k)
        ∧ (∀ k < 32, mask.getLsbD (32 + k) = true → (t.getReg 2#4).getLsbD k = s.xcr0.getLsbD (32 + k))
        ∧ s.SameRegsBut t [0#4, 2#4]
        ∧ t.flags = s.flags ∧ t.pc = s.nextPc (p.length + 3)
        ∧ s.SameMemory t ∧ t.storeBuffer = s.storeBuffer ∧ s.SameRegion t ∧ s.SameSets t
        ∧ s.SameSpecial t ∧ t.bus = s.bus
    ((s.getReg 1#4).toNat % 2 ^ 32 = 0 →
      (∃ t, exec (.xgetbv p) s = .next t ∧ reads t)
        ∧ ∀ v : Word, ∃ d t, exec (.xgetbv p) (s.setDraws d) = .next t ∧ reads t
          ∧ (∀ k < 32, mask.getLsbD k = false → (t.getReg 0#4).getLsbD k = v.getLsbD k)
          ∧ (∀ k < 32, mask.getLsbD (32 + k) = false → (t.getReg 2#4).getLsbD k = v.getLsbD (32 + k)))
    ∧ ((s.getReg 1#4).toNat % 2 ^ 32 ≠ 0 → exec (.xgetbv p) s = .fault (.exception .gp (some 0#32) s.pc))

/-- Rule R234: XGETBV writes no flag. -/
def Obligations.XgetbvWritesNoFlag : Prop :=
  ∀ (p : Pfx) (s t : State), exec (.xgetbv p) s = .next t → t.flags = s.flags

/-- XGETBV raises #UD with OSXSAVE_ENABLED = 0, whatever ECX holds (decision D23, rule R256, log entry 26). -/
def Obligations.XgetbvNeedsTheFeature : Prop :=
  ∀ (p : Pfx) (s : State), s.params.osxsave = false → exec (.xgetbv p) s = .fault (.exception .ud none s.pc)

/-! XLAT (47_xlat.md). -/

/-- XLAT completes where its 1-byte read is admitted: AL becomes the byte at segment base plus (the base register of the address
size plus AL, unsigned, modulo 2^AS), DS unless overridden (rules R241, R242); the rest of RAX, the other registers, the flags
and every byte stay. The base register in 64-bit mode is the spec's decision D22 (log entry 23). -/
def Obligations.XlatReadsTheTable : Prop :=
  ∀ (p : Pfx) (s : State),
    let as := s.params.code.addrSize p
    let rbx := (s.getReg 3#4).toNat
    let rax := (s.getReg 0#4).toNat
    let off := (rbx % 2 ^ as.bits + rax % 2 ^ 8) % 2 ^ as.bits
    let seg := p.seg.getD .ds
    let base := if s.mode = .mode64 ∧ seg ≠ .fs ∧ seg ≠ .gs then 0 else (segBaseOf s.params.segBase seg).toNat
    let addr := (base + off) % 2 ^ Mode.linearBits s.mode
    s.askAdmit .read { seg := seg, off := BitVec.ofNat 64 off, addr := BitVec.ofNat 64 addr } 1 = none →
    ∃ t, exec (.xlat p) s = .next t
      ∧ (t.getReg 0#4).toNat = rax / 2 ^ 8 * 2 ^ 8 + (s.viewByte (s.phys (BitVec.ofNat 64 addr))).toNat
      ∧ s.SameRegsBut t [0#4]
      ∧ t.flags = s.flags ∧ t.pc = s.nextPc (p.length + 1)
      ∧ s.SameMemory t ∧ s.SameViewBut t [] ∧ (s.rtmActive = false → s.SameSets t)
      ∧ t.writeSet = s.writeSet ∧ t.readSet = (s.afterLoad .single 1 (BitVec.ofNat 64 addr)).readSet
      ∧ s.SameRegion t ∧ s.SameSystem t

/-- XLAT whose read Admit denies faults with Admit's exception, AL unchanged as everything is (rules R67, R246). The spec's
decision D29 (log entry 19). -/
def Obligations.DeniedXlatFaults : Prop :=
  ∀ (p : Pfx) (s : State) (e : Raised), s.askAdmit .read (s.xlatRef p) 1 = some e →
    exec (.xlat p) s = .fault (.exception e.exc e.code s.pc)
end

