-- ==== Sys2Proof/Laws/State.lean ====
section
/-! SUPPORT. What each update of the state leaves and what it writes: one lemma per field per update, so that no proof unfolds
a record update. -/

namespace Sys2Proof.Machine

variable (s : State)

@[simp] theorem State.setRegs_regs (v : RegFile) : (s.setRegs v).regs = v := rfl
@[simp] theorem State.setRegs_pc (v : RegFile) : (s.setRegs v).pc = s.pc := rfl
@[simp] theorem State.setRegs_flags (v : RegFile) : (s.setRegs v).flags = s.flags := rfl
@[simp] theorem State.setRegs_xcr0 (v : RegFile) : (s.setRegs v).xcr0 = s.xcr0 := rfl
@[simp] theorem State.setRegs_rtmActive (v : RegFile) : (s.setRegs v).rtmActive = s.rtmActive := rfl
@[simp] theorem State.setRegs_rtmNest (v : RegFile) : (s.setRegs v).rtmNest = s.rtmNest := rfl
@[simp] theorem State.setRegs_fallback (v : RegFile) : (s.setRegs v).fallback = s.fallback := rfl
@[simp] theorem State.setRegs_rtmSaved (v : RegFile) : (s.setRegs v).rtmSaved = s.rtmSaved := rfl
@[simp] theorem State.setRegs_writeSet (v : RegFile) : (s.setRegs v).writeSet = s.writeSet := rfl
@[simp] theorem State.setRegs_readSet (v : RegFile) : (s.setRegs v).readSet = s.readSet := rfl
@[simp] theorem State.setRegs_hleElided (v : RegFile) : (s.setRegs v).hleElided = s.hleElided := rfl
@[simp] theorem State.setRegs_mem (v : RegFile) : (s.setRegs v).mem = s.mem := rfl
@[simp] theorem State.setRegs_storeBuffer (v : RegFile) : (s.setRegs v).storeBuffer = s.storeBuffer := rfl
@[simp] theorem State.setRegs_bus (v : RegFile) : (s.setRegs v).bus = s.bus := rfl
@[simp] theorem State.setRegs_draws (v : RegFile) : (s.setRegs v).draws = s.draws := rfl
@[simp] theorem State.setRegs_params (v : RegFile) : (s.setRegs v).params = s.params := rfl

@[simp] theorem State.setPc_regs (v : Word) : (s.setPc v).regs = s.regs := rfl
@[simp] theorem State.setPc_pc (v : Word) : (s.setPc v).pc = v := rfl
@[simp] theorem State.setPc_flags (v : Word) : (s.setPc v).flags = s.flags := rfl
@[simp] theorem State.setPc_xcr0 (v : Word) : (s.setPc v).xcr0 = s.xcr0 := rfl
@[simp] theorem State.setPc_rtmActive (v : Word) : (s.setPc v).rtmActive = s.rtmActive := rfl
@[simp] theorem State.setPc_rtmNest (v : Word) : (s.setPc v).rtmNest = s.rtmNest := rfl
@[simp] theorem State.setPc_fallback (v : Word) : (s.setPc v).fallback = s.fallback := rfl
@[simp] theorem State.setPc_rtmSaved (v : Word) : (s.setPc v).rtmSaved = s.rtmSaved := rfl
@[simp] theorem State.setPc_writeSet (v : Word) : (s.setPc v).writeSet = s.writeSet := rfl
@[simp] theorem State.setPc_readSet (v : Word) : (s.setPc v).readSet = s.readSet := rfl
@[simp] theorem State.setPc_hleElided (v : Word) : (s.setPc v).hleElided = s.hleElided := rfl
@[simp] theorem State.setPc_mem (v : Word) : (s.setPc v).mem = s.mem := rfl
@[simp] theorem State.setPc_storeBuffer (v : Word) : (s.setPc v).storeBuffer = s.storeBuffer := rfl
@[simp] theorem State.setPc_bus (v : Word) : (s.setPc v).bus = s.bus := rfl
@[simp] theorem State.setPc_draws (v : Word) : (s.setPc v).draws = s.draws := rfl
@[simp] theorem State.setPc_params (v : Word) : (s.setPc v).params = s.params := rfl

@[simp] theorem State.setFlags_regs (v : Flags) : (s.setFlags v).regs = s.regs := rfl
@[simp] theorem State.setFlags_pc (v : Flags) : (s.setFlags v).pc = s.pc := rfl
@[simp] theorem State.setFlags_flags (v : Flags) : (s.setFlags v).flags = v := rfl
@[simp] theorem State.setFlags_xcr0 (v : Flags) : (s.setFlags v).xcr0 = s.xcr0 := rfl
@[simp] theorem State.setFlags_rtmActive (v : Flags) : (s.setFlags v).rtmActive = s.rtmActive := rfl
@[simp] theorem State.setFlags_rtmNest (v : Flags) : (s.setFlags v).rtmNest = s.rtmNest := rfl
@[simp] theorem State.setFlags_fallback (v : Flags) : (s.setFlags v).fallback = s.fallback := rfl
@[simp] theorem State.setFlags_rtmSaved (v : Flags) : (s.setFlags v).rtmSaved = s.rtmSaved := rfl
@[simp] theorem State.setFlags_writeSet (v : Flags) : (s.setFlags v).writeSet = s.writeSet := rfl
@[simp] theorem State.setFlags_readSet (v : Flags) : (s.setFlags v).readSet = s.readSet := rfl
@[simp] theorem State.setFlags_hleElided (v : Flags) : (s.setFlags v).hleElided = s.hleElided := rfl
@[simp] theorem State.setFlags_mem (v : Flags) : (s.setFlags v).mem = s.mem := rfl
@[simp] theorem State.setFlags_storeBuffer (v : Flags) : (s.setFlags v).storeBuffer = s.storeBuffer := rfl
@[simp] theorem State.setFlags_bus (v : Flags) : (s.setFlags v).bus = s.bus := rfl
@[simp] theorem State.setFlags_draws (v : Flags) : (s.setFlags v).draws = s.draws := rfl
@[simp] theorem State.setFlags_params (v : Flags) : (s.setFlags v).params = s.params := rfl

@[simp] theorem State.setXcr0_regs (v : Word) : (s.setXcr0 v).regs = s.regs := rfl
@[simp] theorem State.setXcr0_pc (v : Word) : (s.setXcr0 v).pc = s.pc := rfl
@[simp] theorem State.setXcr0_flags (v : Word) : (s.setXcr0 v).flags = s.flags := rfl
@[simp] theorem State.setXcr0_xcr0 (v : Word) : (s.setXcr0 v).xcr0 = v := rfl
@[simp] theorem State.setXcr0_rtmActive (v : Word) : (s.setXcr0 v).rtmActive = s.rtmActive := rfl
@[simp] theorem State.setXcr0_rtmNest (v : Word) : (s.setXcr0 v).rtmNest = s.rtmNest := rfl
@[simp] theorem State.setXcr0_fallback (v : Word) : (s.setXcr0 v).fallback = s.fallback := rfl
@[simp] theorem State.setXcr0_rtmSaved (v : Word) : (s.setXcr0 v).rtmSaved = s.rtmSaved := rfl
@[simp] theorem State.setXcr0_writeSet (v : Word) : (s.setXcr0 v).writeSet = s.writeSet := rfl
@[simp] theorem State.setXcr0_readSet (v : Word) : (s.setXcr0 v).readSet = s.readSet := rfl
@[simp] theorem State.setXcr0_hleElided (v : Word) : (s.setXcr0 v).hleElided = s.hleElided := rfl
@[simp] theorem State.setXcr0_mem (v : Word) : (s.setXcr0 v).mem = s.mem := rfl
@[simp] theorem State.setXcr0_storeBuffer (v : Word) : (s.setXcr0 v).storeBuffer = s.storeBuffer := rfl
@[simp] theorem State.setXcr0_bus (v : Word) : (s.setXcr0 v).bus = s.bus := rfl
@[simp] theorem State.setXcr0_draws (v : Word) : (s.setXcr0 v).draws = s.draws := rfl
@[simp] theorem State.setXcr0_params (v : Word) : (s.setXcr0 v).params = s.params := rfl

@[simp] theorem State.setActive_regs (v : Bool) : (s.setActive v).regs = s.regs := rfl
@[simp] theorem State.setActive_pc (v : Bool) : (s.setActive v).pc = s.pc := rfl
@[simp] theorem State.setActive_flags (v : Bool) : (s.setActive v).flags = s.flags := rfl
@[simp] theorem State.setActive_xcr0 (v : Bool) : (s.setActive v).xcr0 = s.xcr0 := rfl
@[simp] theorem State.setActive_rtmActive (v : Bool) : (s.setActive v).rtmActive = v := rfl
@[simp] theorem State.setActive_rtmNest (v : Bool) : (s.setActive v).rtmNest = s.rtmNest := rfl
@[simp] theorem State.setActive_fallback (v : Bool) : (s.setActive v).fallback = s.fallback := rfl
@[simp] theorem State.setActive_rtmSaved (v : Bool) : (s.setActive v).rtmSaved = s.rtmSaved := rfl
@[simp] theorem State.setActive_writeSet (v : Bool) : (s.setActive v).writeSet = s.writeSet := rfl
@[simp] theorem State.setActive_readSet (v : Bool) : (s.setActive v).readSet = s.readSet := rfl
@[simp] theorem State.setActive_hleElided (v : Bool) : (s.setActive v).hleElided = s.hleElided := rfl
@[simp] theorem State.setActive_mem (v : Bool) : (s.setActive v).mem = s.mem := rfl
@[simp] theorem State.setActive_storeBuffer (v : Bool) : (s.setActive v).storeBuffer = s.storeBuffer := rfl
@[simp] theorem State.setActive_bus (v : Bool) : (s.setActive v).bus = s.bus := rfl
@[simp] theorem State.setActive_draws (v : Bool) : (s.setActive v).draws = s.draws := rfl
@[simp] theorem State.setActive_params (v : Bool) : (s.setActive v).params = s.params := rfl

@[simp] theorem State.setNest_regs (v : Nat) : (s.setNest v).regs = s.regs := rfl
@[simp] theorem State.setNest_pc (v : Nat) : (s.setNest v).pc = s.pc := rfl
@[simp] theorem State.setNest_flags (v : Nat) : (s.setNest v).flags = s.flags := rfl
@[simp] theorem State.setNest_xcr0 (v : Nat) : (s.setNest v).xcr0 = s.xcr0 := rfl
@[simp] theorem State.setNest_rtmActive (v : Nat) : (s.setNest v).rtmActive = s.rtmActive := rfl
@[simp] theorem State.setNest_rtmNest (v : Nat) : (s.setNest v).rtmNest = v := rfl
@[simp] theorem State.setNest_fallback (v : Nat) : (s.setNest v).fallback = s.fallback := rfl
@[simp] theorem State.setNest_rtmSaved (v : Nat) : (s.setNest v).rtmSaved = s.rtmSaved := rfl
@[simp] theorem State.setNest_writeSet (v : Nat) : (s.setNest v).writeSet = s.writeSet := rfl
@[simp] theorem State.setNest_readSet (v : Nat) : (s.setNest v).readSet = s.readSet := rfl
@[simp] theorem State.setNest_hleElided (v : Nat) : (s.setNest v).hleElided = s.hleElided := rfl
@[simp] theorem State.setNest_mem (v : Nat) : (s.setNest v).mem = s.mem := rfl
@[simp] theorem State.setNest_storeBuffer (v : Nat) : (s.setNest v).storeBuffer = s.storeBuffer := rfl
@[simp] theorem State.setNest_bus (v : Nat) : (s.setNest v).bus = s.bus := rfl
@[simp] theorem State.setNest_draws (v : Nat) : (s.setNest v).draws = s.draws := rfl
@[simp] theorem State.setNest_params (v : Nat) : (s.setNest v).params = s.params := rfl

@[simp] theorem State.setFallback_regs (v : Option Word) : (s.setFallback v).regs = s.regs := rfl
@[simp] theorem State.setFallback_pc (v : Option Word) : (s.setFallback v).pc = s.pc := rfl
@[simp] theorem State.setFallback_flags (v : Option Word) : (s.setFallback v).flags = s.flags := rfl
@[simp] theorem State.setFallback_xcr0 (v : Option Word) : (s.setFallback v).xcr0 = s.xcr0 := rfl
@[simp] theorem State.setFallback_rtmActive (v : Option Word) : (s.setFallback v).rtmActive = s.rtmActive := rfl
@[simp] theorem State.setFallback_rtmNest (v : Option Word) : (s.setFallback v).rtmNest = s.rtmNest := rfl
@[simp] theorem State.setFallback_fallback (v : Option Word) : (s.setFallback v).fallback = v := rfl
@[simp] theorem State.setFallback_rtmSaved (v : Option Word) : (s.setFallback v).rtmSaved = s.rtmSaved := rfl
@[simp] theorem State.setFallback_writeSet (v : Option Word) : (s.setFallback v).writeSet = s.writeSet := rfl
@[simp] theorem State.setFallback_readSet (v : Option Word) : (s.setFallback v).readSet = s.readSet := rfl
@[simp] theorem State.setFallback_hleElided (v : Option Word) : (s.setFallback v).hleElided = s.hleElided := rfl
@[simp] theorem State.setFallback_mem (v : Option Word) : (s.setFallback v).mem = s.mem := rfl
@[simp] theorem State.setFallback_storeBuffer (v : Option Word) : (s.setFallback v).storeBuffer = s.storeBuffer := rfl
@[simp] theorem State.setFallback_bus (v : Option Word) : (s.setFallback v).bus = s.bus := rfl
@[simp] theorem State.setFallback_draws (v : Option Word) : (s.setFallback v).draws = s.draws := rfl
@[simp] theorem State.setFallback_params (v : Option Word) : (s.setFallback v).params = s.params := rfl

@[simp] theorem State.setSaved_regs (v : Option Saved) : (s.setSaved v).regs = s.regs := rfl
@[simp] theorem State.setSaved_pc (v : Option Saved) : (s.setSaved v).pc = s.pc := rfl
@[simp] theorem State.setSaved_flags (v : Option Saved) : (s.setSaved v).flags = s.flags := rfl
@[simp] theorem State.setSaved_xcr0 (v : Option Saved) : (s.setSaved v).xcr0 = s.xcr0 := rfl
@[simp] theorem State.setSaved_rtmActive (v : Option Saved) : (s.setSaved v).rtmActive = s.rtmActive := rfl
@[simp] theorem State.setSaved_rtmNest (v : Option Saved) : (s.setSaved v).rtmNest = s.rtmNest := rfl
@[simp] theorem State.setSaved_fallback (v : Option Saved) : (s.setSaved v).fallback = s.fallback := rfl
@[simp] theorem State.setSaved_rtmSaved (v : Option Saved) : (s.setSaved v).rtmSaved = v := rfl
@[simp] theorem State.setSaved_writeSet (v : Option Saved) : (s.setSaved v).writeSet = s.writeSet := rfl
@[simp] theorem State.setSaved_readSet (v : Option Saved) : (s.setSaved v).readSet = s.readSet := rfl
@[simp] theorem State.setSaved_hleElided (v : Option Saved) : (s.setSaved v).hleElided = s.hleElided := rfl
@[simp] theorem State.setSaved_mem (v : Option Saved) : (s.setSaved v).mem = s.mem := rfl
@[simp] theorem State.setSaved_storeBuffer (v : Option Saved) : (s.setSaved v).storeBuffer = s.storeBuffer := rfl
@[simp] theorem State.setSaved_bus (v : Option Saved) : (s.setSaved v).bus = s.bus := rfl
@[simp] theorem State.setSaved_draws (v : Option Saved) : (s.setSaved v).draws = s.draws := rfl
@[simp] theorem State.setSaved_params (v : Option Saved) : (s.setSaved v).params = s.params := rfl

@[simp] theorem State.setWriteSet_regs (v : List Host.Cell) : (s.setWriteSet v).regs = s.regs := rfl
@[simp] theorem State.setWriteSet_pc (v : List Host.Cell) : (s.setWriteSet v).pc = s.pc := rfl
@[simp] theorem State.setWriteSet_flags (v : List Host.Cell) : (s.setWriteSet v).flags = s.flags := rfl
@[simp] theorem State.setWriteSet_xcr0 (v : List Host.Cell) : (s.setWriteSet v).xcr0 = s.xcr0 := rfl
@[simp] theorem State.setWriteSet_rtmActive (v : List Host.Cell) : (s.setWriteSet v).rtmActive = s.rtmActive := rfl
@[simp] theorem State.setWriteSet_rtmNest (v : List Host.Cell) : (s.setWriteSet v).rtmNest = s.rtmNest := rfl
@[simp] theorem State.setWriteSet_fallback (v : List Host.Cell) : (s.setWriteSet v).fallback = s.fallback := rfl
@[simp] theorem State.setWriteSet_rtmSaved (v : List Host.Cell) : (s.setWriteSet v).rtmSaved = s.rtmSaved := rfl
@[simp] theorem State.setWriteSet_writeSet (v : List Host.Cell) : (s.setWriteSet v).writeSet = v := rfl
@[simp] theorem State.setWriteSet_readSet (v : List Host.Cell) : (s.setWriteSet v).readSet = s.readSet := rfl
@[simp] theorem State.setWriteSet_hleElided (v : List Host.Cell) : (s.setWriteSet v).hleElided = s.hleElided := rfl
@[simp] theorem State.setWriteSet_mem (v : List Host.Cell) : (s.setWriteSet v).mem = s.mem := rfl
@[simp] theorem State.setWriteSet_storeBuffer (v : List Host.Cell) : (s.setWriteSet v).storeBuffer = s.storeBuffer := rfl
@[simp] theorem State.setWriteSet_bus (v : List Host.Cell) : (s.setWriteSet v).bus = s.bus := rfl
@[simp] theorem State.setWriteSet_draws (v : List Host.Cell) : (s.setWriteSet v).draws = s.draws := rfl
@[simp] theorem State.setWriteSet_params (v : List Host.Cell) : (s.setWriteSet v).params = s.params := rfl

@[simp] theorem State.setReadSet_regs (v : List Host.Cell) : (s.setReadSet v).regs = s.regs := rfl
@[simp] theorem State.setReadSet_pc (v : List Host.Cell) : (s.setReadSet v).pc = s.pc := rfl
@[simp] theorem State.setReadSet_flags (v : List Host.Cell) : (s.setReadSet v).flags = s.flags := rfl
@[simp] theorem State.setReadSet_xcr0 (v : List Host.Cell) : (s.setReadSet v).xcr0 = s.xcr0 := rfl
@[simp] theorem State.setReadSet_rtmActive (v : List Host.Cell) : (s.setReadSet v).rtmActive = s.rtmActive := rfl
@[simp] theorem State.setReadSet_rtmNest (v : List Host.Cell) : (s.setReadSet v).rtmNest = s.rtmNest := rfl
@[simp] theorem State.setReadSet_fallback (v : List Host.Cell) : (s.setReadSet v).fallback = s.fallback := rfl
@[simp] theorem State.setReadSet_rtmSaved (v : List Host.Cell) : (s.setReadSet v).rtmSaved = s.rtmSaved := rfl
@[simp] theorem State.setReadSet_writeSet (v : List Host.Cell) : (s.setReadSet v).writeSet = s.writeSet := rfl
@[simp] theorem State.setReadSet_readSet (v : List Host.Cell) : (s.setReadSet v).readSet = v := rfl
@[simp] theorem State.setReadSet_hleElided (v : List Host.Cell) : (s.setReadSet v).hleElided = s.hleElided := rfl
@[simp] theorem State.setReadSet_mem (v : List Host.Cell) : (s.setReadSet v).mem = s.mem := rfl
@[simp] theorem State.setReadSet_storeBuffer (v : List Host.Cell) : (s.setReadSet v).storeBuffer = s.storeBuffer := rfl
@[simp] theorem State.setReadSet_bus (v : List Host.Cell) : (s.setReadSet v).bus = s.bus := rfl
@[simp] theorem State.setReadSet_draws (v : List Host.Cell) : (s.setReadSet v).draws = s.draws := rfl
@[simp] theorem State.setReadSet_params (v : List Host.Cell) : (s.setReadSet v).params = s.params := rfl

@[simp] theorem State.setElided_regs (v : Option Word) : (s.setElided v).regs = s.regs := rfl
@[simp] theorem State.setElided_pc (v : Option Word) : (s.setElided v).pc = s.pc := rfl
@[simp] theorem State.setElided_flags (v : Option Word) : (s.setElided v).flags = s.flags := rfl
@[simp] theorem State.setElided_xcr0 (v : Option Word) : (s.setElided v).xcr0 = s.xcr0 := rfl
@[simp] theorem State.setElided_rtmActive (v : Option Word) : (s.setElided v).rtmActive = s.rtmActive := rfl
@[simp] theorem State.setElided_rtmNest (v : Option Word) : (s.setElided v).rtmNest = s.rtmNest := rfl
@[simp] theorem State.setElided_fallback (v : Option Word) : (s.setElided v).fallback = s.fallback := rfl
@[simp] theorem State.setElided_rtmSaved (v : Option Word) : (s.setElided v).rtmSaved = s.rtmSaved := rfl
@[simp] theorem State.setElided_writeSet (v : Option Word) : (s.setElided v).writeSet = s.writeSet := rfl
@[simp] theorem State.setElided_readSet (v : Option Word) : (s.setElided v).readSet = s.readSet := rfl
@[simp] theorem State.setElided_hleElided (v : Option Word) : (s.setElided v).hleElided = v := rfl
@[simp] theorem State.setElided_mem (v : Option Word) : (s.setElided v).mem = s.mem := rfl
@[simp] theorem State.setElided_storeBuffer (v : Option Word) : (s.setElided v).storeBuffer = s.storeBuffer := rfl
@[simp] theorem State.setElided_bus (v : Option Word) : (s.setElided v).bus = s.bus := rfl
@[simp] theorem State.setElided_draws (v : Option Word) : (s.setElided v).draws = s.draws := rfl
@[simp] theorem State.setElided_params (v : Option Word) : (s.setElided v).params = s.params := rfl

@[simp] theorem State.setMem_regs (v : Memory) : (s.setMem v).regs = s.regs := rfl
@[simp] theorem State.setMem_pc (v : Memory) : (s.setMem v).pc = s.pc := rfl
@[simp] theorem State.setMem_flags (v : Memory) : (s.setMem v).flags = s.flags := rfl
@[simp] theorem State.setMem_xcr0 (v : Memory) : (s.setMem v).xcr0 = s.xcr0 := rfl
@[simp] theorem State.setMem_rtmActive (v : Memory) : (s.setMem v).rtmActive = s.rtmActive := rfl
@[simp] theorem State.setMem_rtmNest (v : Memory) : (s.setMem v).rtmNest = s.rtmNest := rfl
@[simp] theorem State.setMem_fallback (v : Memory) : (s.setMem v).fallback = s.fallback := rfl
@[simp] theorem State.setMem_rtmSaved (v : Memory) : (s.setMem v).rtmSaved = s.rtmSaved := rfl
@[simp] theorem State.setMem_writeSet (v : Memory) : (s.setMem v).writeSet = s.writeSet := rfl
@[simp] theorem State.setMem_readSet (v : Memory) : (s.setMem v).readSet = s.readSet := rfl
@[simp] theorem State.setMem_hleElided (v : Memory) : (s.setMem v).hleElided = s.hleElided := rfl
@[simp] theorem State.setMem_mem (v : Memory) : (s.setMem v).mem = v := rfl
@[simp] theorem State.setMem_storeBuffer (v : Memory) : (s.setMem v).storeBuffer = s.storeBuffer := rfl
@[simp] theorem State.setMem_bus (v : Memory) : (s.setMem v).bus = s.bus := rfl
@[simp] theorem State.setMem_draws (v : Memory) : (s.setMem v).draws = s.draws := rfl
@[simp] theorem State.setMem_params (v : Memory) : (s.setMem v).params = s.params := rfl

@[simp] theorem State.setBuffer_regs (v : List Host.Cell) : (s.setBuffer v).regs = s.regs := rfl
@[simp] theorem State.setBuffer_pc (v : List Host.Cell) : (s.setBuffer v).pc = s.pc := rfl
@[simp] theorem State.setBuffer_flags (v : List Host.Cell) : (s.setBuffer v).flags = s.flags := rfl
@[simp] theorem State.setBuffer_xcr0 (v : List Host.Cell) : (s.setBuffer v).xcr0 = s.xcr0 := rfl
@[simp] theorem State.setBuffer_rtmActive (v : List Host.Cell) : (s.setBuffer v).rtmActive = s.rtmActive := rfl
@[simp] theorem State.setBuffer_rtmNest (v : List Host.Cell) : (s.setBuffer v).rtmNest = s.rtmNest := rfl
@[simp] theorem State.setBuffer_fallback (v : List Host.Cell) : (s.setBuffer v).fallback = s.fallback := rfl
@[simp] theorem State.setBuffer_rtmSaved (v : List Host.Cell) : (s.setBuffer v).rtmSaved = s.rtmSaved := rfl
@[simp] theorem State.setBuffer_writeSet (v : List Host.Cell) : (s.setBuffer v).writeSet = s.writeSet := rfl
@[simp] theorem State.setBuffer_readSet (v : List Host.Cell) : (s.setBuffer v).readSet = s.readSet := rfl
@[simp] theorem State.setBuffer_hleElided (v : List Host.Cell) : (s.setBuffer v).hleElided = s.hleElided := rfl
@[simp] theorem State.setBuffer_mem (v : List Host.Cell) : (s.setBuffer v).mem = s.mem := rfl
@[simp] theorem State.setBuffer_storeBuffer (v : List Host.Cell) : (s.setBuffer v).storeBuffer = v := rfl
@[simp] theorem State.setBuffer_bus (v : List Host.Cell) : (s.setBuffer v).bus = s.bus := rfl
@[simp] theorem State.setBuffer_draws (v : List Host.Cell) : (s.setBuffer v).draws = s.draws := rfl
@[simp] theorem State.setBuffer_params (v : List Host.Cell) : (s.setBuffer v).params = s.params := rfl

@[simp] theorem State.setBus_regs (v : List (List Host.Cell)) : (s.setBus v).regs = s.regs := rfl
@[simp] theorem State.setBus_pc (v : List (List Host.Cell)) : (s.setBus v).pc = s.pc := rfl
@[simp] theorem State.setBus_flags (v : List (List Host.Cell)) : (s.setBus v).flags = s.flags := rfl
@[simp] theorem State.setBus_xcr0 (v : List (List Host.Cell)) : (s.setBus v).xcr0 = s.xcr0 := rfl
@[simp] theorem State.setBus_rtmActive (v : List (List Host.Cell)) : (s.setBus v).rtmActive = s.rtmActive := rfl
@[simp] theorem State.setBus_rtmNest (v : List (List Host.Cell)) : (s.setBus v).rtmNest = s.rtmNest := rfl
@[simp] theorem State.setBus_fallback (v : List (List Host.Cell)) : (s.setBus v).fallback = s.fallback := rfl
@[simp] theorem State.setBus_rtmSaved (v : List (List Host.Cell)) : (s.setBus v).rtmSaved = s.rtmSaved := rfl
@[simp] theorem State.setBus_writeSet (v : List (List Host.Cell)) : (s.setBus v).writeSet = s.writeSet := rfl
@[simp] theorem State.setBus_readSet (v : List (List Host.Cell)) : (s.setBus v).readSet = s.readSet := rfl
@[simp] theorem State.setBus_hleElided (v : List (List Host.Cell)) : (s.setBus v).hleElided = s.hleElided := rfl
@[simp] theorem State.setBus_mem (v : List (List Host.Cell)) : (s.setBus v).mem = s.mem := rfl
@[simp] theorem State.setBus_storeBuffer (v : List (List Host.Cell)) : (s.setBus v).storeBuffer = s.storeBuffer := rfl
@[simp] theorem State.setBus_bus (v : List (List Host.Cell)) : (s.setBus v).bus = v := rfl
@[simp] theorem State.setBus_draws (v : List (List Host.Cell)) : (s.setBus v).draws = s.draws := rfl
@[simp] theorem State.setBus_params (v : List (List Host.Cell)) : (s.setBus v).params = s.params := rfl

@[simp] theorem State.setDraws_regs (v : Draws) : (s.setDraws v).regs = s.regs := rfl
@[simp] theorem State.setDraws_pc (v : Draws) : (s.setDraws v).pc = s.pc := rfl
@[simp] theorem State.setDraws_flags (v : Draws) : (s.setDraws v).flags = s.flags := rfl
@[simp] theorem State.setDraws_xcr0 (v : Draws) : (s.setDraws v).xcr0 = s.xcr0 := rfl
@[simp] theorem State.setDraws_rtmActive (v : Draws) : (s.setDraws v).rtmActive = s.rtmActive := rfl
@[simp] theorem State.setDraws_rtmNest (v : Draws) : (s.setDraws v).rtmNest = s.rtmNest := rfl
@[simp] theorem State.setDraws_fallback (v : Draws) : (s.setDraws v).fallback = s.fallback := rfl
@[simp] theorem State.setDraws_rtmSaved (v : Draws) : (s.setDraws v).rtmSaved = s.rtmSaved := rfl
@[simp] theorem State.setDraws_writeSet (v : Draws) : (s.setDraws v).writeSet = s.writeSet := rfl
@[simp] theorem State.setDraws_readSet (v : Draws) : (s.setDraws v).readSet = s.readSet := rfl
@[simp] theorem State.setDraws_hleElided (v : Draws) : (s.setDraws v).hleElided = s.hleElided := rfl
@[simp] theorem State.setDraws_mem (v : Draws) : (s.setDraws v).mem = s.mem := rfl
@[simp] theorem State.setDraws_storeBuffer (v : Draws) : (s.setDraws v).storeBuffer = s.storeBuffer := rfl
@[simp] theorem State.setDraws_bus (v : Draws) : (s.setDraws v).bus = s.bus := rfl
@[simp] theorem State.setDraws_draws (v : Draws) : (s.setDraws v).draws = v := rfl
@[simp] theorem State.setDraws_params (v : Draws) : (s.setDraws v).params = s.params := rfl

end Sys2Proof.Machine
end

