-- ==== Sys2Proof/Laws/Registers.lean ====
section
/-! SUPPORT. Registers: what a write of any width leaves, and what a read after it gives (rules R21 to R24). -/

namespace Sys2Proof.Machine

/-! Whole registers. -/

theorem State.getReg_setReg (s : State) (n m : RegNum) (v : Word) :
    (s.setReg n v).getReg m = if m = n then v else s.getReg m := by
  unfold State.getReg State.setReg
  simp only [State.setRegs_regs, Vector.getElem_set]
  by_cases h : m = n
  · simp [h]
  · have : n.toNat ≠ m.toNat := fun e => h (BitVec.eq_of_toNat_eq e.symm)
    simp [h, this]

@[simp] theorem State.getReg_setReg_same (s : State) (n : RegNum) (v : Word) : (s.setReg n v).getReg n = v := by
  simp [State.getReg_setReg]

theorem State.getReg_setReg_other (s : State) {n m : RegNum} (v : Word) (h : m ≠ n) :
    (s.setReg n v).getReg m = s.getReg m := by simp [State.getReg_setReg, h]

theorem State.setReg_eq (s : State) (n : RegNum) (v : Word) :
    s.setReg n v = s.setRegs (s.setReg n v).regs := rfl

/-- Two register files with the same registers are equal. -/
theorem RegFile.ext_getReg {s t : State} (h : ∀ n, t.getReg n = s.getReg n) : t.regs = s.regs := by
  apply Vector.ext
  intro i hi
  have := h (BitVec.ofNat 4 i)
  simpa [State.getReg, Nat.mod_eq_of_lt hi] using this

/-! Operands of any width. -/

theorem State.writeReg_eq (s : State) (w : Width) (n : RegNum) (rex : Bool) (v : Word) :
    s.writeReg w n rex v = s.setRegs (s.writeReg w n rex v).regs := rfl

theorem State.getReg_writeReg (s : State) (w : Width) (n : RegNum) (rex : Bool) (v : Word) (m : RegNum) :
    (s.writeReg w n rex v).getReg m =
      if m = homeReg w n rex then mergeBits w (isHighByte n rex) (s.getReg m) v else s.getReg m := by
  unfold State.writeReg
  rw [State.getReg_setReg]
  split_ifs with h
  · rw [h]
  · rfl

/-- A register write leaves every other register. -/
theorem State.getReg_writeReg_other (s : State) {w : Width} {n : RegNum} {rex : Bool} (v : Word) {m : RegNum}
    (h : m ≠ homeReg w n rex) : (s.writeReg w n rex v).getReg m = s.getReg m := by
  simp [State.getReg_writeReg, h]

/-! A register write changes the registers alone. -/

@[simp] theorem State.setReg_pc (s : State) (n : RegNum) (v : Word) : (s.setReg n v).pc = s.pc := rfl
@[simp] theorem State.setReg_flags (s : State) (n : RegNum) (v : Word) : (s.setReg n v).flags = s.flags := rfl
@[simp] theorem State.setReg_xcr0 (s : State) (n : RegNum) (v : Word) : (s.setReg n v).xcr0 = s.xcr0 := rfl
@[simp] theorem State.setReg_rtmActive (s : State) (n : RegNum) (v : Word) : (s.setReg n v).rtmActive = s.rtmActive := rfl
@[simp] theorem State.setReg_rtmNest (s : State) (n : RegNum) (v : Word) : (s.setReg n v).rtmNest = s.rtmNest := rfl
@[simp] theorem State.setReg_fallback (s : State) (n : RegNum) (v : Word) : (s.setReg n v).fallback = s.fallback := rfl
@[simp] theorem State.setReg_rtmSaved (s : State) (n : RegNum) (v : Word) : (s.setReg n v).rtmSaved = s.rtmSaved := rfl
@[simp] theorem State.setReg_writeSet (s : State) (n : RegNum) (v : Word) : (s.setReg n v).writeSet = s.writeSet := rfl
@[simp] theorem State.setReg_readSet (s : State) (n : RegNum) (v : Word) : (s.setReg n v).readSet = s.readSet := rfl
@[simp] theorem State.setReg_hleElided (s : State) (n : RegNum) (v : Word) : (s.setReg n v).hleElided = s.hleElided := rfl
@[simp] theorem State.setReg_mem (s : State) (n : RegNum) (v : Word) : (s.setReg n v).mem = s.mem := rfl
@[simp] theorem State.setReg_storeBuffer (s : State) (n : RegNum) (v : Word) : (s.setReg n v).storeBuffer = s.storeBuffer := rfl
@[simp] theorem State.setReg_bus (s : State) (n : RegNum) (v : Word) : (s.setReg n v).bus = s.bus := rfl
@[simp] theorem State.setReg_draws (s : State) (n : RegNum) (v : Word) : (s.setReg n v).draws = s.draws := rfl
@[simp] theorem State.setReg_params (s : State) (n : RegNum) (v : Word) : (s.setReg n v).params = s.params := rfl

@[simp] theorem State.writeReg_pc (s : State) (w : Width) (n : RegNum) (rex : Bool) (v : Word) :
    (s.writeReg w n rex v).pc = s.pc := rfl
@[simp] theorem State.writeReg_flags (s : State) (w : Width) (n : RegNum) (rex : Bool) (v : Word) :
    (s.writeReg w n rex v).flags = s.flags := rfl
@[simp] theorem State.writeReg_xcr0 (s : State) (w : Width) (n : RegNum) (rex : Bool) (v : Word) :
    (s.writeReg w n rex v).xcr0 = s.xcr0 := rfl
@[simp] theorem State.writeReg_rtmActive (s : State) (w : Width) (n : RegNum) (rex : Bool) (v : Word) :
    (s.writeReg w n rex v).rtmActive = s.rtmActive := rfl
@[simp] theorem State.writeReg_rtmNest (s : State) (w : Width) (n : RegNum) (rex : Bool) (v : Word) :
    (s.writeReg w n rex v).rtmNest = s.rtmNest := rfl
@[simp] theorem State.writeReg_fallback (s : State) (w : Width) (n : RegNum) (rex : Bool) (v : Word) :
    (s.writeReg w n rex v).fallback = s.fallback := rfl
@[simp] theorem State.writeReg_rtmSaved (s : State) (w : Width) (n : RegNum) (rex : Bool) (v : Word) :
    (s.writeReg w n rex v).rtmSaved = s.rtmSaved := rfl
@[simp] theorem State.writeReg_writeSet (s : State) (w : Width) (n : RegNum) (rex : Bool) (v : Word) :
    (s.writeReg w n rex v).writeSet = s.writeSet := rfl
@[simp] theorem State.writeReg_readSet (s : State) (w : Width) (n : RegNum) (rex : Bool) (v : Word) :
    (s.writeReg w n rex v).readSet = s.readSet := rfl
@[simp] theorem State.writeReg_hleElided (s : State) (w : Width) (n : RegNum) (rex : Bool) (v : Word) :
    (s.writeReg w n rex v).hleElided = s.hleElided := rfl
@[simp] theorem State.writeReg_storeBuffer (s : State) (w : Width) (n : RegNum) (rex : Bool) (v : Word) :
    (s.writeReg w n rex v).storeBuffer = s.storeBuffer := rfl
@[simp] theorem State.writeReg_mem (s : State) (w : Width) (n : RegNum) (rex : Bool) (v : Word) :
    (s.writeReg w n rex v).mem = s.mem := rfl
@[simp] theorem State.writeReg_bus (s : State) (w : Width) (n : RegNum) (rex : Bool) (v : Word) :
    (s.writeReg w n rex v).bus = s.bus := rfl
@[simp] theorem State.writeReg_draws (s : State) (w : Width) (n : RegNum) (rex : Bool) (v : Word) :
    (s.writeReg w n rex v).draws = s.draws := rfl
@[simp] theorem State.writeReg_params (s : State) (w : Width) (n : RegNum) (rex : Bool) (v : Word) :
    (s.writeReg w n rex v).params = s.params := rfl

/-! The other updates leave every register. -/

@[simp] theorem State.getReg_setPc (s : State) (v : Word) (n : RegNum) : (s.setPc v).getReg n = s.getReg n := rfl
@[simp] theorem State.getReg_setFlags (s : State) (v : Flags) (n : RegNum) : (s.setFlags v).getReg n = s.getReg n := rfl
@[simp] theorem State.getReg_setXcr0 (s : State) (v : Word) (n : RegNum) : (s.setXcr0 v).getReg n = s.getReg n := rfl
@[simp] theorem State.getReg_setActive (s : State) (v : Bool) (n : RegNum) : (s.setActive v).getReg n = s.getReg n := rfl
@[simp] theorem State.getReg_setNest (s : State) (v : Nat) (n : RegNum) : (s.setNest v).getReg n = s.getReg n := rfl
@[simp] theorem State.getReg_setFallback (s : State) (v : Option Word) (n : RegNum) : (s.setFallback v).getReg n = s.getReg n := rfl
@[simp] theorem State.getReg_setSaved (s : State) (v : Option Saved) (n : RegNum) : (s.setSaved v).getReg n = s.getReg n := rfl
@[simp] theorem State.getReg_setWriteSet (s : State) (v : List Host.Cell) (n : RegNum) : (s.setWriteSet v).getReg n = s.getReg n := rfl
@[simp] theorem State.getReg_setReadSet (s : State) (v : List Host.Cell) (n : RegNum) : (s.setReadSet v).getReg n = s.getReg n := rfl
@[simp] theorem State.getReg_setElided (s : State) (v : Option Word) (n : RegNum) : (s.setElided v).getReg n = s.getReg n := rfl
@[simp] theorem State.getReg_setMem (s : State) (v : Memory) (n : RegNum) : (s.setMem v).getReg n = s.getReg n := rfl
@[simp] theorem State.getReg_setBuffer (s : State) (v : List Host.Cell) (n : RegNum) : (s.setBuffer v).getReg n = s.getReg n := rfl
@[simp] theorem State.getReg_setBus (s : State) (v : List (List Host.Cell)) (n : RegNum) : (s.setBus v).getReg n = s.getReg n := rfl
@[simp] theorem State.getReg_setDraws (s : State) (v : Draws) (n : RegNum) : (s.setDraws v).getReg n = s.getReg n := rfl

@[simp] theorem State.readReg_setPc (s : State) (v : Word) (w : Width) (n : RegNum) (rex : Bool) :
    (s.setPc v).readReg w n rex = s.readReg w n rex := rfl
@[simp] theorem State.readReg_setFlags (s : State) (v : Flags) (w : Width) (n : RegNum) (rex : Bool) :
    (s.setFlags v).readReg w n rex = s.readReg w n rex := rfl
@[simp] theorem State.readReg_setXcr0 (s : State) (v : Word) (w : Width) (n : RegNum) (rex : Bool) :
    (s.setXcr0 v).readReg w n rex = s.readReg w n rex := rfl
@[simp] theorem State.readReg_setActive (s : State) (v : Bool) (w : Width) (n : RegNum) (rex : Bool) :
    (s.setActive v).readReg w n rex = s.readReg w n rex := rfl
@[simp] theorem State.readReg_setNest (s : State) (v : Nat) (w : Width) (n : RegNum) (rex : Bool) :
    (s.setNest v).readReg w n rex = s.readReg w n rex := rfl
@[simp] theorem State.readReg_setFallback (s : State) (v : Option Word) (w : Width) (n : RegNum) (rex : Bool) :
    (s.setFallback v).readReg w n rex = s.readReg w n rex := rfl
@[simp] theorem State.readReg_setSaved (s : State) (v : Option Saved) (w : Width) (n : RegNum) (rex : Bool) :
    (s.setSaved v).readReg w n rex = s.readReg w n rex := rfl
@[simp] theorem State.readReg_setWriteSet (s : State) (v : List Host.Cell) (w : Width) (n : RegNum) (rex : Bool) :
    (s.setWriteSet v).readReg w n rex = s.readReg w n rex := rfl
@[simp] theorem State.readReg_setReadSet (s : State) (v : List Host.Cell) (w : Width) (n : RegNum) (rex : Bool) :
    (s.setReadSet v).readReg w n rex = s.readReg w n rex := rfl
@[simp] theorem State.readReg_setElided (s : State) (v : Option Word) (w : Width) (n : RegNum) (rex : Bool) :
    (s.setElided v).readReg w n rex = s.readReg w n rex := rfl
@[simp] theorem State.readReg_setMem (s : State) (v : Memory) (w : Width) (n : RegNum) (rex : Bool) :
    (s.setMem v).readReg w n rex = s.readReg w n rex := rfl
@[simp] theorem State.readReg_setBuffer (s : State) (v : List Host.Cell) (w : Width) (n : RegNum) (rex : Bool) :
    (s.setBuffer v).readReg w n rex = s.readReg w n rex := rfl
@[simp] theorem State.readReg_setBus (s : State) (v : List (List Host.Cell)) (w : Width) (n : RegNum) (rex : Bool) :
    (s.setBus v).readReg w n rex = s.readReg w n rex := rfl
@[simp] theorem State.readReg_setDraws (s : State) (v : Draws) (w : Width) (n : RegNum) (rex : Bool) :
    (s.setDraws v).readReg w n rex = s.readReg w n rex := rfl

/-! The bits of a merged register. -/

theorem getLsbD_withLow16 (old v : Word) (i : Nat) :
    (withLow16 old v).getLsbD i = if i < 16 then v.getLsbD i else old.getLsbD i := by
  show BitVec.getLsbD (w := 48 + 16) (old.extractLsb' 16 48 ++ v.extractLsb' 0 16) i = _
  rw [BitVec.getLsbD_append, BitVec.getLsbD_extractLsb', BitVec.getLsbD_extractLsb']
  by_cases h : i < 16
  · simp [h]
  · by_cases h2 : i < 64
    · have : i - 16 < 48 := by omega
      simp [h, this, show 16 + (i - 16) = i by omega]
    · simp [h, show ¬ i - 16 < 48 by omega, BitVec.getLsbD_of_ge old i (by omega)]

theorem getLsbD_withLow8 (old v : Word) (i : Nat) :
    (withLow8 old v).getLsbD i = if i < 8 then v.getLsbD i else old.getLsbD i := by
  show BitVec.getLsbD (w := 56 + 8) (old.extractLsb' 8 56 ++ v.extractLsb' 0 8) i = _
  rw [BitVec.getLsbD_append, BitVec.getLsbD_extractLsb', BitVec.getLsbD_extractLsb']
  by_cases h : i < 8
  · simp [h]
  · by_cases h2 : i < 64
    · have : i - 8 < 56 := by omega
      simp [h, this, show 8 + (i - 8) = i by omega]
    · simp [h, show ¬ i - 8 < 56 by omega, BitVec.getLsbD_of_ge old i (by omega)]

theorem getLsbD_withHigh8 (old v : Word) (i : Nat) :
    (withHigh8 old v).getLsbD i = if 8 ≤ i ∧ i < 16 then v.getLsbD (i - 8) else old.getLsbD i := by
  show BitVec.getLsbD (w := (48 + 8) + 8) (old.extractLsb' 16 48 ++ v.extractLsb' 0 8 ++ old.extractLsb' 0 8) i = _
  rw [BitVec.getLsbD_append, BitVec.getLsbD_append, BitVec.getLsbD_extractLsb', BitVec.getLsbD_extractLsb',
    BitVec.getLsbD_extractLsb']
  by_cases h : i < 8
  · simp [h, show ¬ 8 ≤ i by omega]
  · by_cases h1 : i < 16
    · simp [h, h1, show i - 8 < 8 by omega, show 8 ≤ i by omega]
    · by_cases h2 : i < 64
      · simp [h, h1, show ¬ i - 8 < 8 by omega, show i - 8 - 8 < 48 by omega, show 16 + (i - 8 - 8) = i by omega]
      · simp [h, h1, show ¬ i - 8 < 8 by omega, show ¬ i - 8 - 8 < 48 by omega, BitVec.getLsbD_of_ge old i (by omega)]

theorem getLsbD_low (n : Nat) (v : Word) (i : Nat) : (v.low n).getLsbD i = (decide (i < n) && v.getLsbD i) := by
  unfold Word.low
  rw [BitVec.getLsbD_setWidth, BitVec.getLsbD_setWidth]
  by_cases h : i < 64
  · simp [h]
  · simp [h, BitVec.getLsbD_of_ge v i (by omega)]

@[simp] theorem low_toNat (n : Nat) (v : Word) : (v.low n).toNat = v.toNat % 2 ^ n := by
  unfold Word.low
  rw [BitVec.toNat_setWidth, BitVec.toNat_setWidth, Nat.mod_eq_of_lt]
  exact lt_of_le_of_lt (Nat.mod_le _ _) v.isLt

@[simp] theorem low_low (n : Nat) (v : Word) : (v.low n).low n = v.low n := by
  apply BitVec.eq_of_toNat_eq; simp

@[simp] theorem low_64 (v : Word) : v.low 64 = v := by simp [Word.low]

/-- The bits read where bits were merged in. -/
theorem pickBits_mergeBits (w : Width) (high : Bool) (old v : Word) :
    pickBits w high (mergeBits w high old v) = v.low w.bits := by
  cases w <;> cases high <;> simp only [pickBits, mergeBits, Width.bits, if_true, Bool.false_eq_true, if_false, low_low, low_64]
  all_goals
    apply BitVec.eq_of_getLsbD_eq
    intro i _
    simp only [getLsbD_low, getLsbD_withLow16, getLsbD_withLow8, getLsbD_withHigh8, BitVec.getLsbD_ushiftRight]
  · by_cases h : i < 8 <;> simp [h]
  · by_cases h : i < 8
    · simp only [h, decide_true, Bool.true_and]
      rw [if_pos (by omega), Nat.add_sub_cancel_left]
    · simp [h]
  · by_cases h : i < 16 <;> simp [h]
  · by_cases h : i < 16 <;> simp [h]

/-- AH, CH, DH and BH do not overlap AL, CL, DL and BL: a merge on one side leaves the bits of the other. -/
theorem pickBits_mergeBits_w8_other (high : Bool) (old v : Word) :
    pickBits .w8 (!high) (mergeBits .w8 high old v) = pickBits .w8 (!high) old := by
  cases high <;> simp only [pickBits, mergeBits, Bool.not_true, Bool.not_false, if_true, Bool.false_eq_true, if_false]
  all_goals
    apply BitVec.eq_of_getLsbD_eq
    intro i _
    simp only [getLsbD_low, getLsbD_withLow8, getLsbD_withHigh8, BitVec.getLsbD_ushiftRight]
  · simp
  · by_cases h : i < 8
    · simp [h]
    · simp [h]

/-- A read at the width of the write gives the value written, modulo that width. -/
@[simp] theorem State.readReg_writeReg_same (s : State) (w : Width) (n : RegNum) (rex : Bool) (v : Word) :
    (s.writeReg w n rex v).readReg w n rex = v.low w.bits := by
  simp [State.readReg, State.getReg_writeReg, pickBits_mergeBits]

/-- Two different 8-bit operands held by one register are the two bytes of it. -/
theorem isHighByte_ne_of_home_eq {n m : RegNum} {rex : Bool} (h : m ≠ n) (hh : homeReg .w8 m rex = homeReg .w8 n rex) :
    isHighByte m rex = !isHighByte n rex := by
  revert h hh
  cases rex <;> revert n m <;> decide

/-- A read of another operand of the same width gives what it gave. -/
theorem State.readReg_writeReg_other (s : State) {w : Width} {n m : RegNum} {rex : Bool} (v : Word) (h : m ≠ n) :
    (s.writeReg w n rex v).readReg w m rex = s.readReg w m rex := by
  unfold State.readReg
  rw [State.getReg_writeReg]
  split_ifs with hh
  · cases w
    · rw [isHighByte_ne_of_home_eq h hh, pickBits_mergeBits_w8_other]
    all_goals exact absurd (by simpa [homeReg] using hh) h
  · rfl

/-- What an operand reads fits its width. -/
theorem pickBits_lt (w : Width) (high : Bool) (x : Word) : (pickBits w high x).toNat < 2 ^ w.bits := by
  cases w <;> cases high <;> simp only [pickBits, Width.bits, if_true, Bool.false_eq_true, if_false, low_toNat]
  all_goals first | exact x.isLt | exact Nat.mod_lt _ (by norm_num)

theorem State.readReg_lt (s : State) (w : Width) (n : RegNum) (rex : Bool) : (s.readReg w n rex).toNat < 2 ^ w.bits :=
  pickBits_lt _ _ _

@[simp] theorem State.readReg_low (s : State) (w : Width) (n : RegNum) (rex : Bool) :
    (s.readReg w n rex).low w.bits = s.readReg w n rex := by
  apply BitVec.eq_of_toNat_eq
  rw [low_toNat, Nat.mod_eq_of_lt (s.readReg_lt w n rex)]

/-- A register read depends on the registers alone. -/
theorem State.readReg_congr {s t : State} (h : t.regs = s.regs) (w : Width) (n : RegNum) (rex : Bool) :
    t.readReg w n rex = s.readReg w n rex := by
  unfold State.readReg State.getReg
  simp only [h]

end Sys2Proof.Machine
end

