-- ==== Sys2Proof/Laws/Composite.lean ====
section
/-! SUPPORT. The fields of a state after each shared operation that is a fixed sequence of updates, so that no proof unfolds one. -/

namespace Sys2Proof.Machine

variable (s : State)

@[simp] theorem State.advance_regs (len : Nat) : (s.advance len).regs = s.regs := rfl
@[simp] theorem State.advance_flags (len : Nat) : (s.advance len).flags = s.flags := rfl
@[simp] theorem State.advance_xcr0 (len : Nat) : (s.advance len).xcr0 = s.xcr0 := rfl
@[simp] theorem State.advance_rtmActive (len : Nat) : (s.advance len).rtmActive = s.rtmActive := rfl
@[simp] theorem State.advance_rtmNest (len : Nat) : (s.advance len).rtmNest = s.rtmNest := rfl
@[simp] theorem State.advance_fallback (len : Nat) : (s.advance len).fallback = s.fallback := rfl
@[simp] theorem State.advance_rtmSaved (len : Nat) : (s.advance len).rtmSaved = s.rtmSaved := rfl
@[simp] theorem State.advance_writeSet (len : Nat) : (s.advance len).writeSet = s.writeSet := rfl
@[simp] theorem State.advance_readSet (len : Nat) : (s.advance len).readSet = s.readSet := rfl
@[simp] theorem State.advance_hleElided (len : Nat) : (s.advance len).hleElided = s.hleElided := rfl
@[simp] theorem State.advance_mem (len : Nat) : (s.advance len).mem = s.mem := rfl
@[simp] theorem State.advance_storeBuffer (len : Nat) : (s.advance len).storeBuffer = s.storeBuffer := rfl
@[simp] theorem State.advance_params (len : Nat) : (s.advance len).params = s.params := rfl
@[simp] theorem State.advance_bus (len : Nat) : (s.advance len).bus = s.bus := rfl
@[simp] theorem State.advance_draws (len : Nat) : (s.advance len).draws = s.draws := rfl

@[simp] theorem State.afterDraw_pc : (s.afterDraw).pc = s.pc := rfl
@[simp] theorem State.afterDraw_flags : (s.afterDraw).flags = s.flags := rfl
@[simp] theorem State.afterDraw_xcr0 : (s.afterDraw).xcr0 = s.xcr0 := rfl
@[simp] theorem State.afterDraw_rtmActive : (s.afterDraw).rtmActive = s.rtmActive := rfl
@[simp] theorem State.afterDraw_rtmNest : (s.afterDraw).rtmNest = s.rtmNest := rfl
@[simp] theorem State.afterDraw_fallback : (s.afterDraw).fallback = s.fallback := rfl
@[simp] theorem State.afterDraw_rtmSaved : (s.afterDraw).rtmSaved = s.rtmSaved := rfl
@[simp] theorem State.afterDraw_writeSet : (s.afterDraw).writeSet = s.writeSet := rfl
@[simp] theorem State.afterDraw_readSet : (s.afterDraw).readSet = s.readSet := rfl
@[simp] theorem State.afterDraw_hleElided : (s.afterDraw).hleElided = s.hleElided := rfl
@[simp] theorem State.afterDraw_storeBuffer : (s.afterDraw).storeBuffer = s.storeBuffer := rfl
@[simp] theorem State.afterDraw_bus : (s.afterDraw).bus = s.bus := rfl
@[simp] theorem State.afterDraw_draws : (s.afterDraw).draws = { given := s.draws.given.tail, count := s.draws.count + 1 } := rfl

@[simp] theorem State.drainTo_regs (n : Nat) : (s.drainTo n).regs = s.regs := rfl
@[simp] theorem State.drainTo_pc (n : Nat) : (s.drainTo n).pc = s.pc := rfl
@[simp] theorem State.drainTo_flags (n : Nat) : (s.drainTo n).flags = s.flags := rfl
@[simp] theorem State.drainTo_xcr0 (n : Nat) : (s.drainTo n).xcr0 = s.xcr0 := rfl
@[simp] theorem State.drainTo_rtmActive (n : Nat) : (s.drainTo n).rtmActive = s.rtmActive := rfl
@[simp] theorem State.drainTo_rtmNest (n : Nat) : (s.drainTo n).rtmNest = s.rtmNest := rfl
@[simp] theorem State.drainTo_fallback (n : Nat) : (s.drainTo n).fallback = s.fallback := rfl
@[simp] theorem State.drainTo_rtmSaved (n : Nat) : (s.drainTo n).rtmSaved = s.rtmSaved := rfl
@[simp] theorem State.drainTo_writeSet (n : Nat) : (s.drainTo n).writeSet = s.writeSet := rfl
@[simp] theorem State.drainTo_readSet (n : Nat) : (s.drainTo n).readSet = s.readSet := rfl
@[simp] theorem State.drainTo_hleElided (n : Nat) : (s.drainTo n).hleElided = s.hleElided := rfl
@[simp] theorem State.drainTo_bus (n : Nat) : (s.drainTo n).bus = s.bus := rfl
@[simp] theorem State.drainTo_draws (n : Nat) : (s.drainTo n).draws = s.draws := rfl
@[simp] theorem State.drainTo_params (n : Nat) : (s.drainTo n).params = s.params := rfl
@[simp] theorem State.drainTo_mem (n : Nat) : (s.drainTo n).mem = s.mem.writeAll (s.storeBuffer.take n) := rfl
@[simp] theorem State.drainTo_storeBuffer (n : Nat) : (s.drainTo n).storeBuffer = s.storeBuffer.drop n := rfl

@[simp] theorem State.drain_regs : (s.drain).regs = s.regs := rfl
@[simp] theorem State.drain_pc : (s.drain).pc = s.pc := rfl
@[simp] theorem State.drain_flags : (s.drain).flags = s.flags := rfl
@[simp] theorem State.drain_xcr0 : (s.drain).xcr0 = s.xcr0 := rfl
@[simp] theorem State.drain_rtmActive : (s.drain).rtmActive = s.rtmActive := rfl
@[simp] theorem State.drain_rtmNest : (s.drain).rtmNest = s.rtmNest := rfl
@[simp] theorem State.drain_fallback : (s.drain).fallback = s.fallback := rfl
@[simp] theorem State.drain_rtmSaved : (s.drain).rtmSaved = s.rtmSaved := rfl
@[simp] theorem State.drain_writeSet : (s.drain).writeSet = s.writeSet := rfl
@[simp] theorem State.drain_readSet : (s.drain).readSet = s.readSet := rfl
@[simp] theorem State.drain_hleElided : (s.drain).hleElided = s.hleElided := rfl
@[simp] theorem State.drain_bus : (s.drain).bus = s.bus := rfl
@[simp] theorem State.drain_draws : (s.drain).draws = s.draws := rfl
@[simp] theorem State.drain_params : (s.drain).params = s.params := rfl
@[simp] theorem State.drain_mem : s.drain.mem = s.mem.writeAll s.storeBuffer := by simp [State.drain]
@[simp] theorem State.drain_storeBuffer : s.drain.storeBuffer = [] := by simp [State.drain]

@[simp] theorem State.emptySets_regs : (s.emptySets).regs = s.regs := rfl
@[simp] theorem State.emptySets_pc : (s.emptySets).pc = s.pc := rfl
@[simp] theorem State.emptySets_flags : (s.emptySets).flags = s.flags := rfl
@[simp] theorem State.emptySets_xcr0 : (s.emptySets).xcr0 = s.xcr0 := rfl
@[simp] theorem State.emptySets_rtmActive : (s.emptySets).rtmActive = s.rtmActive := rfl
@[simp] theorem State.emptySets_rtmNest : (s.emptySets).rtmNest = s.rtmNest := rfl
@[simp] theorem State.emptySets_fallback : (s.emptySets).fallback = s.fallback := rfl
@[simp] theorem State.emptySets_rtmSaved : (s.emptySets).rtmSaved = s.rtmSaved := rfl
@[simp] theorem State.emptySets_writeSet : (s.emptySets).writeSet = [] := rfl
@[simp] theorem State.emptySets_readSet : (s.emptySets).readSet = [] := rfl
@[simp] theorem State.emptySets_hleElided : (s.emptySets).hleElided = s.hleElided := rfl
@[simp] theorem State.emptySets_mem : (s.emptySets).mem = s.mem := rfl
@[simp] theorem State.emptySets_storeBuffer : (s.emptySets).storeBuffer = s.storeBuffer := rfl
@[simp] theorem State.emptySets_params : (s.emptySets).params = s.params := rfl
@[simp] theorem State.emptySets_bus : (s.emptySets).bus = s.bus := rfl
@[simp] theorem State.emptySets_draws : (s.emptySets).draws = s.draws := rfl

@[simp] theorem State.publish_regs : (s.publish).regs = s.regs := rfl
@[simp] theorem State.publish_pc : (s.publish).pc = s.pc := rfl
@[simp] theorem State.publish_flags : (s.publish).flags = s.flags := rfl
@[simp] theorem State.publish_xcr0 : (s.publish).xcr0 = s.xcr0 := rfl
@[simp] theorem State.publish_rtmActive : (s.publish).rtmActive = s.rtmActive := rfl
@[simp] theorem State.publish_rtmNest : (s.publish).rtmNest = s.rtmNest := rfl
@[simp] theorem State.publish_fallback : (s.publish).fallback = s.fallback := rfl
@[simp] theorem State.publish_rtmSaved : (s.publish).rtmSaved = s.rtmSaved := rfl
@[simp] theorem State.publish_writeSet : (s.publish).writeSet = [] := rfl
@[simp] theorem State.publish_readSet : (s.publish).readSet = [] := rfl
@[simp] theorem State.publish_hleElided : (s.publish).hleElided = s.hleElided := rfl
@[simp] theorem State.publish_mem : (s.publish).mem = s.mem.writeAll s.writeSet := rfl
@[simp] theorem State.publish_storeBuffer : (s.publish).storeBuffer = s.storeBuffer := rfl
@[simp] theorem State.publish_params : (s.publish).params = s.params := rfl
@[simp] theorem State.publish_bus : (s.publish).bus = s.bus := rfl
@[simp] theorem State.publish_draws : (s.publish).draws = s.draws := rfl

@[simp] theorem State.endRegion_regs : (s.endRegion).regs = s.regs := rfl
@[simp] theorem State.endRegion_pc : (s.endRegion).pc = s.pc := rfl
@[simp] theorem State.endRegion_flags : (s.endRegion).flags = s.flags := rfl
@[simp] theorem State.endRegion_xcr0 : (s.endRegion).xcr0 = s.xcr0 := rfl
@[simp] theorem State.endRegion_rtmActive : (s.endRegion).rtmActive = false := rfl
@[simp] theorem State.endRegion_rtmNest : (s.endRegion).rtmNest = s.rtmNest := rfl
@[simp] theorem State.endRegion_fallback : (s.endRegion).fallback = none := rfl
@[simp] theorem State.endRegion_rtmSaved : (s.endRegion).rtmSaved = none := rfl
@[simp] theorem State.endRegion_writeSet : (s.endRegion).writeSet = s.writeSet := rfl
@[simp] theorem State.endRegion_readSet : (s.endRegion).readSet = s.readSet := rfl
@[simp] theorem State.endRegion_hleElided : (s.endRegion).hleElided = s.hleElided := rfl
@[simp] theorem State.endRegion_mem : (s.endRegion).mem = s.mem := rfl
@[simp] theorem State.endRegion_storeBuffer : (s.endRegion).storeBuffer = s.storeBuffer := rfl
@[simp] theorem State.endRegion_params : (s.endRegion).params = s.params := rfl
@[simp] theorem State.endRegion_bus : (s.endRegion).bus = s.bus := rfl
@[simp] theorem State.endRegion_draws : (s.endRegion).draws = s.draws := rfl

@[simp] theorem State.restore_regs (r : Saved) : (s.restore r).regs = r.regs := rfl
@[simp] theorem State.restore_pc (r : Saved) : (s.restore r).pc = s.pc := rfl
@[simp] theorem State.restore_flags (r : Saved) : (s.restore r).flags = r.flags := rfl
@[simp] theorem State.restore_xcr0 (r : Saved) : (s.restore r).xcr0 = r.xcr0 := rfl
@[simp] theorem State.restore_rtmActive (r : Saved) : (s.restore r).rtmActive = s.rtmActive := rfl
@[simp] theorem State.restore_rtmNest (r : Saved) : (s.restore r).rtmNest = s.rtmNest := rfl
@[simp] theorem State.restore_fallback (r : Saved) : (s.restore r).fallback = s.fallback := rfl
@[simp] theorem State.restore_rtmSaved (r : Saved) : (s.restore r).rtmSaved = s.rtmSaved := rfl
@[simp] theorem State.restore_writeSet (r : Saved) : (s.restore r).writeSet = s.writeSet := rfl
@[simp] theorem State.restore_readSet (r : Saved) : (s.restore r).readSet = s.readSet := rfl
@[simp] theorem State.restore_hleElided (r : Saved) : (s.restore r).hleElided = s.hleElided := rfl
@[simp] theorem State.restore_mem (r : Saved) : (s.restore r).mem = s.mem := rfl
@[simp] theorem State.restore_storeBuffer (r : Saved) : (s.restore r).storeBuffer = s.storeBuffer := rfl
@[simp] theorem State.restore_params (r : Saved) : (s.restore r).params = s.params := rfl
@[simp] theorem State.restore_bus (r : Saved) : (s.restore r).bus = s.bus := rfl
@[simp] theorem State.restore_draws (r : Saved) : (s.restore r).draws = s.draws := rfl

@[simp] theorem State.beginRegion_regs (a : Word) : (s.beginRegion a).regs = s.regs := by simp [State.beginRegion]
@[simp] theorem State.beginRegion_pc (a : Word) : (s.beginRegion a).pc = s.pc := by simp [State.beginRegion]
@[simp] theorem State.beginRegion_flags (a : Word) : (s.beginRegion a).flags = s.flags := by simp [State.beginRegion]
@[simp] theorem State.beginRegion_xcr0 (a : Word) : (s.beginRegion a).xcr0 = s.xcr0 := by simp [State.beginRegion]
@[simp] theorem State.beginRegion_rtmActive (a : Word) : (s.beginRegion a).rtmActive = true := by simp [State.beginRegion]
@[simp] theorem State.beginRegion_rtmNest (a : Word) : (s.beginRegion a).rtmNest = s.rtmNest := by simp [State.beginRegion]
@[simp] theorem State.beginRegion_fallback (a : Word) : (s.beginRegion a).fallback = some a := by simp [State.beginRegion]
@[simp] theorem State.beginRegion_rtmSaved (a : Word) : (s.beginRegion a).rtmSaved = some s.toSaved := by simp [State.beginRegion]
@[simp] theorem State.beginRegion_writeSet (a : Word) : (s.beginRegion a).writeSet = [] := by simp [State.beginRegion]
@[simp] theorem State.beginRegion_readSet (a : Word) : (s.beginRegion a).readSet = [] := by simp [State.beginRegion]
@[simp] theorem State.beginRegion_hleElided (a : Word) : (s.beginRegion a).hleElided = s.hleElided := by simp [State.beginRegion]
@[simp] theorem State.beginRegion_mem (a : Word) : (s.beginRegion a).mem = s.mem := by simp [State.beginRegion]
@[simp] theorem State.beginRegion_storeBuffer (a : Word) : (s.beginRegion a).storeBuffer = s.storeBuffer := by simp [State.beginRegion]
@[simp] theorem State.beginRegion_params (a : Word) : (s.beginRegion a).params = s.params := by simp [State.beginRegion]
@[simp] theorem State.beginRegion_bus (a : Word) : (s.beginRegion a).bus = s.bus := by simp [State.beginRegion]
@[simp] theorem State.beginRegion_draws (a : Word) : (s.beginRegion a).draws = s.draws := by simp [State.beginRegion]

@[simp] theorem State.writeEdxEax_pc (v : Word) : (s.writeEdxEax v).pc = s.pc := by simp [State.writeEdxEax]
@[simp] theorem State.writeEdxEax_flags (v : Word) : (s.writeEdxEax v).flags = s.flags := by simp [State.writeEdxEax]
@[simp] theorem State.writeEdxEax_xcr0 (v : Word) : (s.writeEdxEax v).xcr0 = s.xcr0 := by simp [State.writeEdxEax]
@[simp] theorem State.writeEdxEax_rtmActive (v : Word) : (s.writeEdxEax v).rtmActive = s.rtmActive := by simp [State.writeEdxEax]
@[simp] theorem State.writeEdxEax_rtmNest (v : Word) : (s.writeEdxEax v).rtmNest = s.rtmNest := by simp [State.writeEdxEax]
@[simp] theorem State.writeEdxEax_fallback (v : Word) : (s.writeEdxEax v).fallback = s.fallback := by simp [State.writeEdxEax]
@[simp] theorem State.writeEdxEax_rtmSaved (v : Word) : (s.writeEdxEax v).rtmSaved = s.rtmSaved := by simp [State.writeEdxEax]
@[simp] theorem State.writeEdxEax_writeSet (v : Word) : (s.writeEdxEax v).writeSet = s.writeSet := by simp [State.writeEdxEax]
@[simp] theorem State.writeEdxEax_readSet (v : Word) : (s.writeEdxEax v).readSet = s.readSet := by simp [State.writeEdxEax]
@[simp] theorem State.writeEdxEax_hleElided (v : Word) : (s.writeEdxEax v).hleElided = s.hleElided := by simp [State.writeEdxEax]
@[simp] theorem State.writeEdxEax_mem (v : Word) : (s.writeEdxEax v).mem = s.mem := by simp [State.writeEdxEax]
@[simp] theorem State.writeEdxEax_storeBuffer (v : Word) : (s.writeEdxEax v).storeBuffer = s.storeBuffer := by simp [State.writeEdxEax]
@[simp] theorem State.writeEdxEax_params (v : Word) : (s.writeEdxEax v).params = s.params := by simp [State.writeEdxEax]
@[simp] theorem State.writeEdxEax_bus (v : Word) : (s.writeEdxEax v).bus = s.bus := by simp [State.writeEdxEax]
@[simp] theorem State.writeEdxEax_draws (v : Word) : (s.writeEdxEax v).draws = s.draws := by simp [State.writeEdxEax]

@[simp] theorem State.aborted_pc (r : Saved) (a : Word) (status : BitVec 32) : (s.aborted r a status).pc = a := by simp [State.aborted]
@[simp] theorem State.aborted_flags (r : Saved) (a : Word) (status : BitVec 32) : (s.aborted r a status).flags = r.flags := by simp [State.aborted]
@[simp] theorem State.aborted_xcr0 (r : Saved) (a : Word) (status : BitVec 32) : (s.aborted r a status).xcr0 = r.xcr0 := by simp [State.aborted]
@[simp] theorem State.aborted_rtmActive (r : Saved) (a : Word) (status : BitVec 32) : (s.aborted r a status).rtmActive = false := by simp [State.aborted]
@[simp] theorem State.aborted_rtmNest (r : Saved) (a : Word) (status : BitVec 32) : (s.aborted r a status).rtmNest = 0 := by simp [State.aborted]
@[simp] theorem State.aborted_fallback (r : Saved) (a : Word) (status : BitVec 32) : (s.aborted r a status).fallback = s.fallback := by simp [State.aborted]
@[simp] theorem State.aborted_rtmSaved (r : Saved) (a : Word) (status : BitVec 32) : (s.aborted r a status).rtmSaved = s.rtmSaved := by simp [State.aborted]
@[simp] theorem State.aborted_writeSet (r : Saved) (a : Word) (status : BitVec 32) : (s.aborted r a status).writeSet = [] := by simp [State.aborted]
@[simp] theorem State.aborted_readSet (r : Saved) (a : Word) (status : BitVec 32) : (s.aborted r a status).readSet = [] := by simp [State.aborted]
@[simp] theorem State.aborted_hleElided (r : Saved) (a : Word) (status : BitVec 32) : (s.aborted r a status).hleElided = s.hleElided := by simp [State.aborted]
@[simp] theorem State.aborted_mem (r : Saved) (a : Word) (status : BitVec 32) : (s.aborted r a status).mem = s.mem := by simp [State.aborted]
@[simp] theorem State.aborted_storeBuffer (r : Saved) (a : Word) (status : BitVec 32) : (s.aborted r a status).storeBuffer = s.storeBuffer := by simp [State.aborted]
@[simp] theorem State.aborted_params (r : Saved) (a : Word) (status : BitVec 32) : (s.aborted r a status).params = s.params := by simp [State.aborted]
@[simp] theorem State.aborted_bus (r : Saved) (a : Word) (status : BitVec 32) : (s.aborted r a status).bus = s.bus := by simp [State.aborted]
@[simp] theorem State.aborted_draws (r : Saved) (a : Word) (status : BitVec 32) : (s.aborted r a status).draws = s.draws := by simp [State.aborted]

/-! `next_pc` depends on the pc and the launch parameters alone. -/

@[simp] theorem State.nextPc_setRegs (v : RegFile) (len : Nat) : (s.setRegs v).nextPc len = s.nextPc len := rfl
@[simp] theorem State.nextPc_setFlags (v : Flags) (len : Nat) : (s.setFlags v).nextPc len = s.nextPc len := rfl
@[simp] theorem State.nextPc_setXcr0 (v : Word) (len : Nat) : (s.setXcr0 v).nextPc len = s.nextPc len := rfl
@[simp] theorem State.nextPc_setActive (v : Bool) (len : Nat) : (s.setActive v).nextPc len = s.nextPc len := rfl
@[simp] theorem State.nextPc_setNest (v : Nat) (len : Nat) : (s.setNest v).nextPc len = s.nextPc len := rfl
@[simp] theorem State.nextPc_setFallback (v : Option Word) (len : Nat) : (s.setFallback v).nextPc len = s.nextPc len := rfl
@[simp] theorem State.nextPc_setSaved (v : Option Saved) (len : Nat) : (s.setSaved v).nextPc len = s.nextPc len := rfl
@[simp] theorem State.nextPc_setWriteSet (v : List Host.Cell) (len : Nat) : (s.setWriteSet v).nextPc len = s.nextPc len := rfl
@[simp] theorem State.nextPc_setReadSet (v : List Host.Cell) (len : Nat) : (s.setReadSet v).nextPc len = s.nextPc len := rfl
@[simp] theorem State.nextPc_setElided (v : Option Word) (len : Nat) : (s.setElided v).nextPc len = s.nextPc len := rfl
@[simp] theorem State.nextPc_setMem (v : Memory) (len : Nat) : (s.setMem v).nextPc len = s.nextPc len := rfl
@[simp] theorem State.nextPc_setBuffer (v : List Host.Cell) (len : Nat) : (s.setBuffer v).nextPc len = s.nextPc len := rfl
@[simp] theorem State.nextPc_setBus (v : List (List Host.Cell)) (len : Nat) : (s.setBus v).nextPc len = s.nextPc len := rfl
@[simp] theorem State.nextPc_setDraws (v : Draws) (len : Nat) : (s.setDraws v).nextPc len = s.nextPc len := rfl
@[simp] theorem State.nextPc_afterDraw (len : Nat) : s.afterDraw.nextPc len = s.nextPc len := rfl
@[simp] theorem State.nextPc_drain (len : Nat) : s.drain.nextPc len = s.nextPc len := rfl
@[simp] theorem State.nextPc_emptySets (len : Nat) : s.emptySets.nextPc len = s.nextPc len := rfl
@[simp] theorem State.nextPc_publish (len : Nat) : s.publish.nextPc len = s.nextPc len := rfl
@[simp] theorem State.nextPc_endRegion (len : Nat) : s.endRegion.nextPc len = s.nextPc len := rfl
@[simp] theorem State.nextPc_beginRegion (a : Word) (len : Nat) : (s.beginRegion a).nextPc len = s.nextPc len := by
  simp [State.beginRegion]
@[simp] theorem State.nextPc_setReg (n : RegNum) (v : Word) (len : Nat) : (s.setReg n v).nextPc len = s.nextPc len := rfl
@[simp] theorem State.nextPc_writeReg (w : Width) (n : RegNum) (rex : Bool) (v : Word) (len : Nat) :
    (s.writeReg w n rex v).nextPc len = s.nextPc len := rfl
@[simp] theorem State.nextPc_writeEdxEax (v : Word) (len : Nat) : (s.writeEdxEax v).nextPc len = s.nextPc len := rfl

end Sys2Proof.Machine
end

