-- ==== Sys2Proof/Laws/Decode.lean ====
section
/-! SUPPORT. The pieces of the decoder read back what the pieces of the encoder wrote. -/

namespace Sys2Proof

theorem Legacy.ofByte_byte (l : Legacy) : Legacy.ofByte l.byte = some l := by cases l <;> rfl

theorem Rex.ofByte_byte (x : Rex) : Rex.ofByte x.byte = x := by
  obtain ⟨w, r, x, b⟩ := x; revert w r x b; decide

/-- A REX byte is a REX byte and no legacy prefix (rules R93, R94). -/
theorem Rex.byte_isRex (x : Rex) : isRexByte x.byte = true ∧ Legacy.ofByte x.byte = none := by
  obtain ⟨w, r, x, b⟩ := x; revert w r x b; decide

/-- A byte that is neither a legacy prefix nor a REX prefix: an opcode begins here. -/
abbrev isOpcodeByte (b : Byte) : Prop := Legacy.ofByte b = none ∧ isRexByte b = false

theorem takeLegacy_cons_none {b : Byte} (h : Legacy.ofByte b = none) (bs : List Byte) : takeLegacy (b :: bs) = ([], b :: bs) := by
  simp [takeLegacy, h]

/-- Legacy prefixes are split off whole. -/
theorem takeLegacy_append (ls : List Legacy) {bs : List Byte} (h : takeLegacy bs = ([], bs)) :
    takeLegacy (ls.map Legacy.byte ++ bs) = (ls, bs) := by
  induction ls with
  | nil => exact h
  | cons l ls ih => simp [takeLegacy, Legacy.ofByte_byte, ih]

/-- Prefixes before an opcode are read as themselves (rules R90, R93, R94). -/
theorem decode_prefixes (c : CodeSize) {p : Pfx} (hp : p.wf c = true) {b : Byte} (hb : isOpcodeByte b) (bs : List Byte) :
    decode c (p.bytes ++ b :: bs) = (decodeOp c p (b :: bs)).checked checkPrefixes := by
  obtain ⟨ls, rex⟩ := p
  unfold decode Pfx.bytes
  cases rex with
  | none =>
    simp only [Option.toList, List.map_nil, List.append_nil]
    rw [takeLegacy_append _ (takeLegacy_cons_none hb.1 _)]
    simp [takeRex, hb.2]
  | some x =>
    simp only [Option.toList, List.map_cons, List.map_nil, List.append_assoc, List.singleton_append]
    rw [takeLegacy_append _ (takeLegacy_cons_none x.byte_isRex.2 _)]
    have hm : c.mode = .mode64 := by simpa [Pfx.wf, Pfx.hasRex] using hp
    simp [takeRex, x.byte_isRex.1, hm, Rex.ofByte_byte]

/-! Little-endian fields (rule R62). -/

theorem join16_split16 (v : BitVec 16) : join16 (v.extractLsb' 0 8) (v.extractLsb' 8 8) = v := by
  unfold join16
  apply BitVec.eq_of_getLsbD_eq
  intro i hi
  show BitVec.getLsbD (w := 8 + 8) _ i = _
  rw [BitVec.getLsbD_append]
  simp only [BitVec.getLsbD_extractLsb']
  split_ifs with h
  · simp [h]
  · rw [show 8 + (i - 8) = i by omega]; simp; omega

theorem join32_split32 (v : BitVec 32) :
    join32 (v.extractLsb' 0 8) (v.extractLsb' 8 8) (v.extractLsb' 16 8) (v.extractLsb' 24 8) = v := by
  unfold join32
  apply BitVec.eq_of_getLsbD_eq
  intro i hi
  show BitVec.getLsbD (w := 8 + 8 + 8 + 8) _ i = _
  rw [BitVec.getLsbD_append, BitVec.getLsbD_append, BitVec.getLsbD_append]
  simp only [BitVec.getLsbD_extractLsb']
  split_ifs with h h2 h3
  · simp [h]
  · rw [show 8 + (i - 8) = i by omega]; simp; omega
  · rw [show 16 + (i - 8 - 8) = i by omega]; simp; omega
  · rw [show 24 + (i - 8 - 8 - 8) = i by omega]; simp; omega

theorem takeDisp_bytes (d : Disp) (rest : List Byte) : takeDisp d.kind (d.bytes ++ rest) = some (d, rest) := by
  cases d
  · rfl
  · rfl
  · simp [takeDisp, Disp.kind, Disp.bytes, split16, join16_split16]
  · simp [takeDisp, Disp.kind, Disp.bytes, split32, join32_split32]

/-! The ModRM byte (rules R99 to R106). -/

theorem Sib.ofByte_byte (s : Sib) : Sib.ofByte s.byte = s := by
  obtain ⟨a, b, c⟩ := s
  simp only [Sib.ofByte, Sib.byte]
  congr 1
  all_goals (revert a b c; decide)

theorem ModRM.byte_fields (m : ModRM) :
    m.byte.extractLsb' 6 2 = m.mod ∧ m.byte.extractLsb' 3 3 = m.reg ∧ m.byte.extractLsb' 0 3 = m.rm := by
  obtain ⟨a, b, c, _, _⟩ := m
  simp only [ModRM.byte]
  revert a b c; decide

/-- A well-formed ModRM byte with what it calls for is read as itself, whatever follows. -/
theorem takeModRM_bytes (as : AddrSize) {m : ModRM} (h : m.wf as = true) (rest : List Byte) :
    takeModRM as (m.bytes ++ rest) = some (m, rest) := by
  obtain ⟨h1, h2⟩ : m.sib.isSome = needsSib as m.mod m.rm ∧ m.disp.kind = dispKind as m.mod m.rm m.sib := by
    simpa [ModRM.wf] using h
  unfold ModRM.bytes takeModRM
  simp only [List.cons_append]
  obtain ⟨f1, f2, f3⟩ := m.byte_fields
  rw [f1, f2, f3]
  cases hs : m.sib with
  | none =>
    rw [← h1, hs]
    simp only [Option.isSome_none, takeSib, Option.toList_none, List.map_nil, List.nil_append]
    rw [← hs, ← h2, takeDisp_bytes]
  | some sb =>
    rw [← h1, hs]
    simp only [Option.isSome_some, takeSib, Option.toList_some, List.map_cons, List.map_nil, List.cons_append, Sib.ofByte_byte]
    rw [← hs, ← h2, List.nil_append, takeDisp_bytes]

/-! Hinted instructions. -/

theorem Hinted.asHinted_plain (h : Hinted) : h.plain.asHinted = some h := by
  obtain ⟨op, p, m⟩ := h
  cases op with
  | xadd w => cases w <;> rfl
  | xchg w => cases w <;> rfl

theorem Instr.asHinted_eq_some {i : Instr} {h : Hinted} (e : i.asHinted = some h) : i = h.plain := by
  cases i <;> simp [Instr.asHinted] at e <;> subst e <;> rfl

end Sys2Proof
end

