-- ==== Sys2Proof/Laws/Memory.lean ====
section
/-! SUPPORT. Memory and the transactional sets: reading after writing, and the canonical forms that every operation keeps. -/

namespace Sys2Proof.Machine

open Cells

/-! Listing and looking up. -/

@[simp] theorem Cells.lookup_nil (a : Nat) : lookup [] a = none := rfl

theorem Cells.lookup_put (cs : List Host.Cell) (a : Nat) (b : Byte) (x : Nat) :
    lookup (put cs a b) x = if x = a then some b else lookup cs x := by
  induction cs with
  | nil => simp only [put, lookup, eq_comm]
  | cons c cs ih =>
    by_cases h1 : a < c.1
    · simp only [put, h1, if_true, lookup, eq_comm (a := x)]
    · by_cases h2 : a = c.1
      · simp only [put, h2, lt_irrefl, if_false, if_true, lookup, eq_comm (a := x)]
        split_ifs <;> rfl
      · simp only [put, h1, h2, if_false, lookup, ih]
        by_cases hx : x = a
        · subst hx; simp [Ne.symm h2]
        · simp [hx]

@[simp] theorem Cells.lookup_put_same (cs : List Host.Cell) (a : Nat) (b : Byte) :
    lookup (put cs a b) a = some b := by simp [lookup_put]

theorem Cells.lookup_put_other (cs : List Host.Cell) {a x : Nat} (b : Byte) (h : x ≠ a) :
    lookup (put cs a b) x = lookup cs x := by simp [lookup_put, h]

theorem Cells.lookup_erase (cs : List Host.Cell) (a x : Nat) :
    lookup (erase cs a) x = if x = a then none else lookup cs x := by
  induction cs with
  | nil => simp [erase]
  | cons c cs ih =>
    unfold erase at ih ⊢
    by_cases hc : c.1 = a
    · by_cases hx : x = a
      · subst hx; simpa [hc] using ih
      · simp [hc, ih, hx, lookup, Ne.symm hx]
    · by_cases hx : x = a
      · subst hx; simp [hc, lookup, ih]
      · simp [hc, lookup, ih, hx]

theorem Cells.mem_put {cs : List Host.Cell} {a : Nat} {b : Byte} {c : Host.Cell} (h : c ∈ put cs a b) :
    c = (a, b) ∨ c ∈ cs := by
  induction cs with
  | nil => simpa [put] using h
  | cons d cs ih =>
    unfold put at h
    split_ifs at h <;> simp only [List.mem_cons] at h ⊢
    · tauto
    · tauto
    · rcases h with h | h
      · tauto
      · rcases ih h with h | h <;> tauto

/-- An address that is not listed is not found. -/
theorem Cells.lookup_eq_none {cs : List Host.Cell} {a : Nat} (h : ∀ c ∈ cs, c.1 ≠ a) : lookup cs a = none := by
  induction cs with
  | nil => rfl
  | cons d cs ih =>
    simp only [List.mem_cons, forall_eq_or_imp] at h
    simp [lookup, h.1, ih h.2]

/-! The rising order. -/

@[simp] theorem Cells.rising_nil : rising [] := List.Pairwise.nil

theorem Cells.rising_put {cs : List Host.Cell} (h : rising cs) (a : Nat) (b : Byte) : rising (put cs a b) := by
  induction cs with
  | nil => simp [put, rising]
  | cons c cs ih =>
    rcases List.pairwise_cons.1 h with ⟨hc, hcs⟩
    by_cases h1 : a < c.1
    · simp only [put, h1, if_true]
      refine List.pairwise_cons.2 ⟨fun d hd => ?_, h⟩
      rcases List.mem_cons.1 hd with rfl | hd
      · exact h1
      · exact h1.trans (hc d hd)
    · by_cases h2 : a = c.1
      · subst h2
        simp only [put, lt_irrefl, if_false, if_true]
        exact List.pairwise_cons.2 ⟨hc, hcs⟩
      · simp only [put, h1, h2, if_false]
        refine List.pairwise_cons.2 ⟨fun d hd => ?_, ih hcs⟩
        rcases mem_put hd with rfl | hd
        · show c.1 < a; omega
        · exact hc d hd

theorem Cells.rising_erase {cs : List Host.Cell} (h : rising cs) (a : Nat) : rising (erase cs a) :=
  List.Pairwise.filter _ h

/-! Memory. -/

@[simp] theorem Memory.read_nil (a : Nat) : Memory.read [] a = Memory.unlisted := rfl

theorem Memory.read_write (m : Memory) (a x : Nat) (b : Byte) :
    (m.write a b).read x = if x = a then b else m.read x := by
  unfold Memory.write Memory.read
  split_ifs with h1 h2 h2 <;> simp [lookup_erase, lookup_put, h1, h2]

@[simp] theorem Memory.read_write_same (m : Memory) (a : Nat) (b : Byte) : (m.write a b).read a = b := by
  simp [read_write]

theorem Memory.read_write_other (m : Memory) {a x : Nat} (b : Byte) (h : x ≠ a) :
    (m.write a b).read x = m.read x := by simp [read_write, h]

theorem Memory.wf_write {m : Memory} (h : m.wf) (a : Nat) (b : Byte) : (m.write a b).wf := by
  unfold Memory.write
  split_ifs with hb
  · exact ⟨rising_erase h.1 a, fun c hc => h.2 c (List.mem_filter.1 hc).1⟩
  · refine ⟨rising_put h.1 a b, fun c hc => ?_⟩
    rcases mem_put hc with rfl | hc
    · exact hb
    · exact h.2 c hc

@[simp] theorem Memory.writeAll_nil (m : Memory) : m.writeAll [] = m := rfl

@[simp] theorem Memory.writeAll_cons (m : Memory) (c : Host.Cell) (cs : List Host.Cell) :
    m.writeAll (c :: cs) = (m.write c.1 c.2).writeAll cs := rfl

theorem Memory.wf_writeAll {m : Memory} (h : m.wf) (cs : List Host.Cell) : (m.writeAll cs).wf := by
  induction cs generalizing m with
  | nil => exact h
  | cons c cs ih => exact ih (wf_write h c.1 c.2)

/-- Writing cells leaves every address that is not among them. -/
theorem Memory.read_writeAll_other (m : Memory) {cs : List Host.Cell} {a : Nat} (h : ∀ c ∈ cs, c.1 ≠ a) :
    (m.writeAll cs).read a = m.read a := by
  induction cs generalizing m with
  | nil => rfl
  | cons c cs ih =>
    simp only [List.mem_cons, forall_eq_or_imp] at h
    rw [writeAll_cons, ih _ h.2, read_write_other _ _ h.1.symm]

/-- Writing cells of distinct addresses: each address holds its cell's byte, every other address what it held. -/
theorem Memory.read_writeAll (m : Memory) {cs : List Host.Cell} (h : rising cs) (a : Nat) :
    (m.writeAll cs).read a = (lookup cs a).getD (m.read a) := by
  induction cs generalizing m with
  | nil => rfl
  | cons c cs ih =>
    rcases List.pairwise_cons.1 h with ⟨hc, hcs⟩
    rw [writeAll_cons, ih _ hcs, read_write]
    by_cases ha : a = c.1
    · subst ha
      have : lookup cs c.1 = none := lookup_eq_none fun d hd => (hc d hd).ne'
      simp [lookup, this]
    · simp [lookup, ha, Ne.symm ha]

/-! Stores in the order made. -/

@[simp] theorem Cells.newest_nil (a : Nat) : newest [] a = none := rfl

theorem Cells.newest_append (xs ys : List Host.Cell) (a : Nat) : newest (xs ++ ys) a = (newest ys a).or (newest xs a) := by
  induction xs with
  | nil => simp
  | cons c xs ih => simp [newest, ih, Option.or_assoc]

@[simp] theorem Cells.newest_singleton (a : Nat) (b : Byte) (x : Nat) :
    newest [(a, b)] x = if x = a then some b else none := by
  simp [newest, eq_comm]

/-- An address that no store of the list is to. -/
theorem Cells.newest_eq_none {cs : List Host.Cell} {a : Nat} (h : ∀ c ∈ cs, c.1 ≠ a) : newest cs a = none := by
  induction cs with
  | nil => rfl
  | cons d cs ih =>
    simp only [List.mem_cons, forall_eq_or_imp] at h
    simp [newest, h.1, ih h.2]

theorem Memory.writeAll_append (m : Memory) (xs ys : List Host.Cell) : m.writeAll (xs ++ ys) = (m.writeAll xs).writeAll ys := by
  simp [Memory.writeAll]

/-- Writing cells in order: each address holds the last byte written to it, or what it held. -/
theorem Memory.read_writeAll_newest (m : Memory) (cs : List Host.Cell) (a : Nat) :
    (m.writeAll cs).read a = (newest cs a).getD (m.read a) := by
  induction cs generalizing m with
  | nil => rfl
  | cons c cs ih =>
    rw [writeAll_cons, ih, read_write, newest]
    cases newest cs a with
    | some b => simp
    | none => by_cases h : a = c.1 <;> simp [h, eq_comm]

/-- Of stores to distinct addresses, each address holds its own. -/
theorem Cells.newest_zip {xs : List Nat} {bs : List Byte} (h : xs.Nodup) (hl : xs.length = bs.length) (k : Nat) (hk : k < xs.length) :
    newest (xs.zip bs) xs[k] = some (bs[k]'(hl ▸ hk)) := by
  induction xs generalizing bs k with
  | nil => simp at hk
  | cons x xs ih =>
    cases bs with
    | nil => simp at hl
    | cons b bs =>
      rcases List.nodup_cons.1 h with ⟨hx, hn⟩
      simp only [List.length_cons, Nat.add_right_cancel_iff] at hl
      simp only [List.zip_cons_cons, newest]
      cases k with
      | zero =>
        rw [newest_eq_none]
        · simp
        · intro c hc e
          have e : c.1 = x := e
          exact hx (e ▸ (List.of_mem_zip hc).1)
      | succ k =>
        simp only [List.length_cons, Nat.add_lt_add_iff_right] at hk
        simp [ih hn hl k hk]

theorem Cells.newest_zip_other {xs : List Nat} (bs : List Byte) {x : Nat} (h : x ∉ xs) : newest (xs.zip bs) x = none :=
  newest_eq_none fun _ hc e => h (e ▸ (List.of_mem_zip hc).1)

/-! Byte order. -/

@[simp] theorem splitBytes_length (n : Nat) (v : Word) : (splitBytes n v).length = n := by
  induction n generalizing v with
  | zero => rfl
  | succ n ih => simp [splitBytes, ih]

/-- Byte `i` of a value is its bits `8i+7:8i` (rule R63). -/
theorem splitBytes_getElem (n : Nat) (v : Word) (i : Nat) (h : i < n) :
    (splitBytes n v)[i]? = some (v.extractLsb' (8 * i) 8) := by
  induction n generalizing v i with
  | zero => omega
  | succ n ih =>
    cases i with
    | zero => simp [splitBytes, BitVec.setWidth_eq_extractLsb']
    | succ i =>
      have := ih (v >>> 8) i (by omega)
      simp only [splitBytes, List.getElem?_cons_succ, this, Option.some.injEq]
      ext j hj
      simp only [BitVec.getElem_extractLsb', BitVec.getLsbD_ushiftRight]
      congr 1; omega

/-- The value of the bytes of a value is the value modulo 2^(8n) (rules R62, R63). -/
theorem joinBytes_splitBytes (n : Nat) (v : Word) (h : n ≤ 8) :
    (joinBytes (splitBytes n v)).toNat = v.toNat % 2 ^ (8 * n) := by
  induction n generalizing v with
  | zero => simp [splitBytes, joinBytes, Nat.mod_one]
  | succ n ih =>
    have hi := ih (v >>> 8) (by omega)
    have hb : (v.setWidth 8).toNat = v.toNat % 256 := by simp
    have hlt : (joinBytes (splitBytes n (v >>> 8))).toNat < 2 ^ (8 * n) := by
      rw [hi]; exact Nat.mod_lt _ (by positivity)
    have h56 : 2 ^ (8 * n) ≤ 2 ^ 56 := Nat.pow_le_pow_right (by norm_num) (by omega)
    simp only [splitBytes, joinBytes, BitVec.toNat_or, BitVec.toNat_shiftLeft, BitVec.toNat_setWidth]
    rw [Nat.shiftLeft_eq, Nat.mod_eq_of_lt (by omega), hi, BitVec.toNat_ushiftRight, Nat.shiftRight_eq_div_pow]
    have hor : v.toNat / 2 ^ 8 % 2 ^ (8 * n) * 2 ^ 8 ||| v.toNat % 2 ^ 8 =
        v.toNat / 2 ^ 8 % 2 ^ (8 * n) * 2 ^ 8 + v.toNat % 2 ^ 8 := by
      rw [Nat.mul_comm, ← Nat.two_pow_add_eq_or_of_lt (Nat.mod_lt _ (by norm_num))]
    have h8 : v.toNat % 2 ^ 8 % 2 ^ 64 = v.toNat % 2 ^ 8 := Nat.mod_eq_of_lt (by omega)
    rw [h8, hor, show 8 * (n + 1) = 8 + 8 * n by ring, pow_add, Nat.mod_mul]
    ring

theorem joinBytes_cons_toNat (b : Byte) (bs : List Byte) (h : (joinBytes bs).toNat < 2 ^ 56) :
    (joinBytes (b :: bs)).toNat = (joinBytes bs).toNat * 2 ^ 8 + b.toNat := by
  simp only [joinBytes, BitVec.toNat_or, BitVec.toNat_shiftLeft, BitVec.toNat_setWidth]
  have hb := b.isLt
  rw [Nat.shiftLeft_eq, Nat.mod_eq_of_lt (by omega), Nat.mod_eq_of_lt (by omega), Nat.mul_comm,
    ← Nat.two_pow_add_eq_or_of_lt hb]

/-- The value of `n` bytes is below 2^(8n). -/
theorem joinBytes_toNat_lt (bs : List Byte) (h : bs.length ≤ 8) : (joinBytes bs).toNat < 2 ^ (8 * bs.length) := by
  induction bs with
  | nil => simp [joinBytes]
  | cons b bs ih =>
    simp only [List.length_cons] at h ⊢
    have hi := ih (by omega)
    have h56 : 2 ^ (8 * bs.length) ≤ 2 ^ 56 := Nat.pow_le_pow_right (by norm_num) (by omega)
    have hb := b.isLt
    rw [joinBytes_cons_toNat b bs (by omega), show 8 * (bs.length + 1) = 8 * bs.length + 8 by ring, pow_add]
    omega

/-- Bits `8k+7:8k` of the value of bytes are the `k`-th of them (rule R62). -/
theorem joinBytes_extract (bs : List Byte) (h : bs.length ≤ 8) (k : Nat) (hk : k < bs.length) :
    (joinBytes bs).extractLsb' (8 * k) 8 = bs[k] := by
  induction bs generalizing k with
  | nil => simp at hk
  | cons b bs ih =>
    simp only [List.length_cons] at h
    have hi := joinBytes_toNat_lt bs (by omega)
    have h56 : 2 ^ (8 * bs.length) ≤ 2 ^ 56 := Nat.pow_le_pow_right (by norm_num) (by omega)
    have hc := joinBytes_cons_toNat b bs (by omega)
    have hb := b.isLt
    apply BitVec.eq_of_toNat_eq
    rw [BitVec.extractLsb'_toNat, hc, Nat.shiftRight_eq_div_pow]
    cases k with
    | zero => simp only [Nat.mul_zero, pow_zero, Nat.div_one, List.getElem_cons_zero]; omega
    | succ k =>
      have := congrArg BitVec.toNat (ih (by omega) k (by simpa using hk))
      rw [BitVec.extractLsb'_toNat, Nat.shiftRight_eq_div_pow] at this
      rw [List.getElem_cons_succ, ← this, show 8 * (k + 1) = 8 + 8 * k by ring, pow_add, ← Nat.div_div_eq_div_mul]
      congr 2
      omega

end Sys2Proof.Machine
end

