-- ==== Sys2Proof/Laws/Ops.lean ====
section
/-! SUPPORT. What each shared operation can do, said once: draws, landing stores, loads and stores, admission, commit and abort. -/

namespace Sys2Proof.Machine

/-! Frames compose. -/

theorem State.SameRegion.refl (s : State) : s.SameRegion s := ⟨rfl, rfl, rfl, rfl⟩

theorem State.SameRegion.trans {s t u : State} (h : s.SameRegion t) (k : t.SameRegion u) : s.SameRegion u :=
  ⟨k.active.trans h.active, k.nest.trans h.nest, k.fallback.trans h.fallback, k.saved.trans h.saved⟩

theorem State.SameButMemory.refl (s : State) : s.SameButMemory s :=
  ⟨rfl, rfl, rfl, rfl, .refl s, rfl, rfl⟩

theorem State.SameButMemory.trans {s t u : State} (h : s.SameButMemory t) (k : t.SameButMemory u) : s.SameButMemory u :=
  ⟨k.regs.trans h.regs, k.pc.trans h.pc, k.flags.trans h.flags, k.xcr0.trans h.xcr0, h.region.trans k.region,
    k.elided.trans h.elided, k.params.trans h.params⟩

theorem State.SameButMemory.getReg {s t : State} (h : s.SameButMemory t) (n : RegNum) : t.getReg n = s.getReg n := by
  unfold State.getReg; simp only [h.regs]

theorem State.SameButMemory.readReg {s t : State} (h : s.SameButMemory t) (w : Width) (n : RegNum) (rex : Bool) :
    t.readReg w n rex = s.readReg w n rex := State.readReg_congr h.regs w n rex

/-! Addresses depend on the launch parameters and the registers alone. -/

theorem State.wrap_congr {s t : State} (h : t.params = s.params) : t.wrap = s.wrap := by
  funext v; unfold State.wrap State.mode; rw [h]

theorem State.phys_congr {s t : State} (h : t.params = s.params) : t.phys = s.phys := by
  funext v; unfold State.phys; rw [h]

theorem State.inText_congr {s t : State} (h : t.params = s.params) : t.inText = s.inText := by
  funext v; unfold State.inText; rw [h]

theorem State.nextPc_congr {s t : State} (h : t.params = s.params) (hp : t.pc = s.pc) (len : Nat) :
    t.nextPc len = s.nextPc len := by
  unfold State.nextPc; rw [State.wrap_congr h, hp]

theorem State.byteAddrs_congr {s t : State} (h : t.params = s.params) (n : Nat) (a : Word) :
    t.byteAddrs n a = s.byteAddrs n a := by
  induction n generalizing a with
  | zero => rfl
  | succ n ih => simp only [State.byteAddrs, ih, State.phys_congr h, State.wrap_congr h]

@[simp] theorem State.byteAddrs_length (s : State) (n : Nat) (a : Word) : (s.byteAddrs n a).length = n := by
  induction n generalizing a with
  | zero => rfl
  | succ n ih => simp [State.byteAddrs, ih]

@[simp] theorem State.wrap_wrap (s : State) (v : Word) : s.wrap (s.wrap v) = s.wrap v := by simp [State.wrap]

theorem State.fitsLinear_nextPc (s : State) (len : Nat) : s.fitsLinear (s.nextPc len) := by
  simp [State.fitsLinear, State.nextPc]

@[simp] theorem State.advance_pc (s : State) (len : Nat) : (s.advance len).pc = s.nextPc len := rfl

/-! Draws. -/

@[simp] theorem State.afterDraw_regs (s : State) : s.afterDraw.regs = s.regs := rfl
@[simp] theorem State.afterDraw_getReg (s : State) (n : RegNum) : s.afterDraw.getReg n = s.getReg n := rfl
@[simp] theorem State.afterDraw_mem (s : State) : s.afterDraw.mem = s.mem := rfl
@[simp] theorem State.afterDraw_params (s : State) : s.afterDraw.params = s.params := rfl

/-- A draw changes the source of free values alone. -/
theorem State.afterDraw_eq (s : State) : s.afterDraw = s.setDraws s.afterDraw.draws := rfl

/-- A draw from given values takes the first of them. -/
theorem State.drawn_given {s : State} {v : Word} {vs : List Word} (h : s.draws.given = v :: vs) : s.drawn = v := by
  simp [State.drawn, h]

/-! The store buffer. -/

theorem State.drainTo_sameButMemory (s : State) (n : Nat) : s.SameButMemory (s.drainTo n) :=
  ⟨rfl, rfl, rfl, rfl, ⟨rfl, rfl, rfl, rfl⟩, rfl, rfl⟩

/-- Draining shows this processor nothing. -/
@[simp] theorem State.drainTo_ownByte (s : State) (n a : Nat) : (s.drainTo n).ownByte a = s.ownByte a := by
  have h : Cells.newest s.storeBuffer a
      = (Cells.newest (s.storeBuffer.drop n) a).or (Cells.newest (s.storeBuffer.take n) a) := by
    rw [← Cells.newest_append, List.take_append_drop]
  unfold State.ownByte
  rw [State.drainTo_mem, State.drainTo_storeBuffer, Memory.read_writeAll_newest, h, Option.getD_or]

@[simp] theorem State.drain_ownByte (s : State) (a : Nat) : s.drain.ownByte a = s.ownByte a := s.drainTo_ownByte _ a

/-- What shared memory holds once the store buffer has drained. -/
theorem State.drain_read (s : State) (a : Nat) : s.drain.mem.read a = s.ownByte a := by
  rw [State.drain_mem, Memory.read_writeAll_newest]; rfl

theorem State.ownByte_of_buffer_nil {s : State} (h : s.storeBuffer = []) (a : Nat) : s.ownByte a = s.mem.read a := by
  simp [State.ownByte, h]

theorem State.ownByte_congr {s t : State} (hb : t.storeBuffer = s.storeBuffer) (hm : t.mem = s.mem) (a : Nat) :
    t.ownByte a = s.ownByte a := by
  simp [State.ownByte, hb, hm]

/-- What this processor sees depends on its region, its write set and the bytes outside it. -/
theorem State.viewByte_congr {s t : State} (ha : t.rtmActive = s.rtmActive) (hw : t.writeSet = s.writeSet)
    {x : Nat} (ho : t.ownByte x = s.ownByte x) : t.viewByte x = s.viewByte x := by
  simp [State.viewByte, ha, hw, ho]

@[simp] theorem State.push_ownByte (s : State) (a : Nat) (b : Byte) (x : Nat) :
    (s.push a b).ownByte x = if x = a then b else s.ownByte x := by
  simp only [State.ownByte, State.push, State.setBuffer_storeBuffer, State.setBuffer_mem, Cells.newest_append,
    Cells.newest_singleton]
  split_ifs <;> simp

/-- Shared memory and the store buffer of `t` are those of `s` after the stores `q` of this processor: some of the oldest have
reached shared memory, the rest waits, in the order made. -/
def State.Queued (s : State) (q : List Host.Cell) (t : State) : Prop :=
  ∃ n ≤ (s.storeBuffer ++ q).length,
    t.storeBuffer = (s.storeBuffer ++ q).drop n ∧ t.mem = s.mem.writeAll ((s.storeBuffer ++ q).take n)

theorem State.Queued.refl (s : State) : s.Queued [] s := ⟨0, Nat.zero_le _, by simp⟩

theorem State.Queued.of_eq {s t u : State} {q : List Host.Cell} (h : s.Queued q t) (hb : u.storeBuffer = t.storeBuffer)
    (hm : u.mem = t.mem) : s.Queued q u := by
  obtain ⟨n, hn, h1, h2⟩ := h
  exact ⟨n, hn, hb.trans h1, hm.trans h2⟩

theorem State.Queued.trans {s t u : State} {q r : List Host.Cell} (h : s.Queued q t) (k : t.Queued r u) : s.Queued (q ++ r) u := by
  obtain ⟨n, hn, h1, h2⟩ := h
  obtain ⟨m, hm, k1, k2⟩ := k
  rw [h1, ← List.drop_append_of_le_length hn, List.append_assoc] at hm k1 k2
  refine ⟨n + m, ?_, ?_, ?_⟩
  · simp only [List.length_drop] at hm
    simp only [List.length_append] at hn hm ⊢
    omega
  · rw [k1, List.drop_drop]
  · rw [k2, h2, ← Memory.writeAll_append]
    congr 1
    rw [List.take_add, ← List.append_assoc, List.take_append_of_le_length hn]

theorem State.drainTo_queued (s : State) (n : Nat) : s.Queued [] (s.drainTo n) := by
  refine ⟨min n s.storeBuffer.length, by simp, ?_, ?_⟩
  · rw [List.append_nil, State.drainTo_storeBuffer]
    rcases Nat.le_total n s.storeBuffer.length with h | h
    · rw [Nat.min_eq_left h]
    · rw [Nat.min_eq_right h, List.drop_eq_nil_of_le h, List.drop_length]
  · rw [List.append_nil, State.drainTo_mem]
    rcases Nat.le_total n s.storeBuffer.length with h | h
    · rw [Nat.min_eq_left h]
    · rw [Nat.min_eq_right h, List.take_of_length_le h, List.take_length]

theorem State.push_queued (s : State) (a : Nat) (b : Byte) : s.Queued [(a, b)] (s.push a b) := ⟨0, Nat.zero_le _, by simp [State.push]⟩

/-- What this processor sees outside the write set after stores of its own. -/
theorem State.Queued.ownByte {s t : State} {q : List Host.Cell} (h : s.Queued q t) (x : Nat) :
    t.ownByte x = (Cells.newest q x).getD (s.ownByte x) := by
  obtain ⟨n, -, h1, h2⟩ := h
  have e : (Cells.newest q x).or (Cells.newest s.storeBuffer x)
      = (Cells.newest ((s.storeBuffer ++ q).drop n) x).or (Cells.newest ((s.storeBuffer ++ q).take n) x) := by
    rw [← Cells.newest_append, ← Cells.newest_append, List.take_append_drop]
  unfold State.ownByte
  rw [h1, h2, Memory.read_writeAll_newest, ← Option.getD_or, ← Option.getD_or, e]

theorem State.Queued.mem_wf {s t : State} {q : List Host.Cell} (h : s.Queued q t) (hm : s.mem.wf) : t.mem.wf := by
  obtain ⟨n, -, -, h2⟩ := h
  rw [h2]; exact Memory.wf_writeAll hm _

/-- Nothing of an address that no store is to reaches it. -/
theorem State.Queued.read_other {s t : State} {q : List Host.Cell} (h : s.Queued q t) {x : Nat} (hx : x ∉ s.bufferAddrs)
    (hq : ∀ c ∈ q, c.1 ≠ x) : t.mem.read x = s.mem.read x := by
  obtain ⟨n, -, -, h2⟩ := h
  rw [h2]
  refine Memory.read_writeAll_other _ fun c hc e => ?_
  rcases List.mem_append.1 (List.mem_of_mem_take hc) with hc | hc
  · exact hx (List.mem_map.2 ⟨c, hc, e⟩)
  · exact hq c hc e

/-- What waits was waiting before or is one of the stores. -/
theorem State.Queued.mem_buffer {s t : State} {q : List Host.Cell} (h : s.Queued q t) {c : Host.Cell} (hc : c ∈ t.storeBuffer) :
    c ∈ s.storeBuffer ∨ c ∈ q := by
  obtain ⟨n, -, h1, -⟩ := h
  rw [h1] at hc
  exact List.mem_append.1 (List.mem_of_mem_drop hc)

/-- With nothing waiting and nothing stored, nothing changes. -/
theorem State.Queued.of_nil {s t : State} (h : s.Queued [] t) (hs : s.storeBuffer = []) : t.storeBuffer = [] ∧ t.mem = s.mem := by
  obtain ⟨n, -, h1, h2⟩ := h
  rw [hs] at h1 h2
  simpa using And.intro h1 h2

theorem State.drainSome_eq (s : State) : ∃ n d, s.drainSome = (s.drainTo n).setDraws d := by
  unfold State.drainSome
  split_ifs
  · exact ⟨0, s.draws, rfl⟩
  · exact ⟨_, _, rfl⟩

theorem State.drainSome_sameButMemory (s : State) : s.SameButMemory s.drainSome := by
  obtain ⟨n, d, h⟩ := s.drainSome_eq
  rw [h]; exact ⟨rfl, rfl, rfl, rfl, ⟨rfl, rfl, rfl, rfl⟩, rfl, rfl⟩

theorem State.drainSome_queued (s : State) : s.Queued [] s.drainSome := by
  obtain ⟨n, d, h⟩ := s.drainSome_eq
  rw [h]; exact (s.drainTo_queued n).of_eq rfl rfl

@[simp] theorem State.drainSome_writeSet (s : State) : s.drainSome.writeSet = s.writeSet := by
  obtain ⟨n, d, h⟩ := s.drainSome_eq; rw [h]; rfl
@[simp] theorem State.drainSome_readSet (s : State) : s.drainSome.readSet = s.readSet := by
  obtain ⟨n, d, h⟩ := s.drainSome_eq; rw [h]; rfl
@[simp] theorem State.drainSome_bus (s : State) : s.drainSome.bus = s.bus := by
  obtain ⟨n, d, h⟩ := s.drainSome_eq; rw [h]; rfl
@[simp] theorem State.drainSome_params (s : State) : s.drainSome.params = s.params := s.drainSome_sameButMemory.params

@[simp] theorem State.drainSome_of_buffer_nil {s : State} (h : s.storeBuffer = []) : s.drainSome = s := by
  simp [State.drainSome, h]

@[simp] theorem State.drainSome_ownByte (s : State) (a : Nat) : s.drainSome.ownByte a = s.ownByte a := by
  simpa using s.drainSome_queued.ownByte a

/-! Other processors' stores. -/

theorem State.landStores_sameButMemory (cs : List Host.Cell) (s : State) : s.SameButMemory (State.landStores cs s) := by
  induction cs generalizing s with
  | nil => exact s.drainSome_sameButMemory
  | cons c cs ih =>
    have h : s.drainSome.SameButMemory (s.drainSome.landByte c) := ⟨rfl, rfl, rfl, rfl, ⟨rfl, rfl, rfl, rfl⟩, rfl, rfl⟩
    exact (s.drainSome_sameButMemory.trans h).trans (ih _)

@[simp] theorem State.landStores_writeSet (cs : List Host.Cell) (s : State) : (State.landStores cs s).writeSet = s.writeSet := by
  induction cs generalizing s with
  | nil => exact s.drainSome_writeSet
  | cons c cs ih => exact (ih _).trans s.drainSome_writeSet

@[simp] theorem State.landStores_readSet (cs : List Host.Cell) (s : State) : (State.landStores cs s).readSet = s.readSet := by
  induction cs generalizing s with
  | nil => exact s.drainSome_readSet
  | cons c cs ih => exact (ih _).trans s.drainSome_readSet

/-- What waits after a landing is the newest part of what waited before. -/
theorem State.landStores_buffer (cs : List Host.Cell) (s : State) : ∃ n, (State.landStores cs s).storeBuffer = s.storeBuffer.drop n := by
  induction cs generalizing s with
  | nil =>
    obtain ⟨n, d, h⟩ := s.drainSome_eq
    exact ⟨n, by rw [State.landStores, h]; rfl⟩
  | cons c cs ih =>
    obtain ⟨n, d, h⟩ := s.drainSome_eq
    obtain ⟨m, hm⟩ := ih (s.drainSome.landByte c)
    refine ⟨n + m, ?_⟩
    rw [State.landStores, hm, ← List.drop_drop, h]
    rfl

theorem State.landStores_mem_wf {s : State} (h : s.mem.wf) (cs : List Host.Cell) : (State.landStores cs s).mem.wf := by
  induction cs generalizing s with
  | nil => exact s.drainSome_queued.mem_wf h
  | cons c cs ih => exact ih (Memory.wf_write (s.drainSome_queued.mem_wf h) _ _)

/-- With an empty store buffer, the stores are written in order. -/
theorem State.landStores_of_buffer_nil {s : State} (h : s.storeBuffer = []) (cs : List Host.Cell) :
    State.landStores cs s = s.setMem (s.mem.writeAll cs) := by
  induction cs generalizing s with
  | nil => exact State.drainSome_of_buffer_nil h
  | cons c cs ih =>
    rw [State.landStores, State.drainSome_of_buffer_nil h, ih (s := s.landByte c) h]
    rfl

/-- What lands and what drains writes only addresses of stores that land or that wait. -/
theorem State.landStores_read_other (cs : List Host.Cell) {s : State} {a : Nat} (h : ∀ c ∈ cs, c.1 ≠ a) (hb : a ∉ s.bufferAddrs) :
    (State.landStores cs s).mem.read a = s.mem.read a := by
  have hd := s.drainSome_queued.read_other hb (by simp)
  induction cs generalizing s with
  | nil => exact hd
  | cons c cs ih =>
    simp only [List.mem_cons, forall_eq_or_imp] at h
    have hb' : a ∉ (s.drainSome.landByte c).bufferAddrs := by
      intro hc
      obtain ⟨d, hd', e⟩ := List.mem_map.1 hc
      rcases s.drainSome_queued.mem_buffer hd' with hd' | hd'
      · exact hb (List.mem_map.2 ⟨d, hd', e⟩)
      · simp at hd'
    rw [State.landStores, ih h.2 hb' ((s.drainSome.landByte c).drainSome_queued.read_other hb' (by simp))]
    exact (Memory.read_write_other _ _ h.1.symm).trans hd

/-- What lands elsewhere and what drains shows this processor nothing at an address. -/
theorem State.landStores_ownByte_other (cs : List Host.Cell) {s : State} {a : Nat} (h : ∀ c ∈ cs, c.1 ≠ a) :
    (State.landStores cs s).ownByte a = s.ownByte a := by
  induction cs generalizing s with
  | nil => exact s.drainSome_ownByte a
  | cons c cs ih =>
    simp only [List.mem_cons, forall_eq_or_imp] at h
    rw [State.landStores, ih h.2, ← s.drainSome_ownByte a]
    unfold State.ownByte
    congr 1
    exact Memory.read_write_other _ _ h.1.symm

theorem State.land_sameButMemory (s : State) : s.SameButMemory s.land :=
  (State.landStores_sameButMemory _ s).trans ⟨rfl, rfl, rfl, rfl, ⟨rfl, rfl, rfl, rfl⟩, rfl, rfl⟩

@[simp] theorem State.land_writeSet (s : State) : s.land.writeSet = s.writeSet := State.landStores_writeSet _ s
@[simp] theorem State.land_readSet (s : State) : s.land.readSet = s.readSet := State.landStores_readSet _ s
@[simp] theorem State.land_rtmActive (s : State) : s.land.rtmActive = s.rtmActive := s.land_sameButMemory.region.active
@[simp] theorem State.land_params (s : State) : s.land.params = s.params := s.land_sameButMemory.params
@[simp] theorem State.land_bus (s : State) : s.land.bus = s.bus.tail := rfl

/-- With nothing pending, a landing drains some of the store buffer. -/
theorem State.land_of_bus_nil {s : State} (h : s.bus = []) : s.land = s.drainSome := by
  have hb : s.drainSome.bus = [] := by simp [h]
  have : s.drainSome.setBus s.drainSome.bus = s.drainSome := rfl
  unfold State.land
  rw [h]
  rw [hb] at this
  exact this

/-- With nothing pending and nothing waiting, a landing changes nothing. -/
theorem State.land_of_idle {s : State} (h : s.bus = []) (hb : s.storeBuffer = []) : s.land = s := by
  rw [State.land_of_bus_nil h, State.drainSome_of_buffer_nil hb]

/-- With an empty store buffer, a landing writes the next batch. -/
theorem State.land_of_buffer_nil {s : State} (h : s.storeBuffer = []) :
    s.land = (s.setMem (s.mem.writeAll (s.bus.headD []))).setBus s.bus.tail := by
  unfold State.land; rw [State.landStores_of_buffer_nil h]

theorem State.land_mem_wf {s : State} (h : s.mem.wf) : s.land.mem.wf := State.landStores_mem_wf h _

theorem State.land_buffer (s : State) : ∃ n, s.land.storeBuffer = s.storeBuffer.drop n := State.landStores_buffer _ s

theorem State.land_bufferAddrs {s : State} {a : Nat} (h : a ∉ s.bufferAddrs) : a ∉ s.land.bufferAddrs := by
  obtain ⟨n, hn⟩ := s.land_buffer
  intro hc
  obtain ⟨c, hc, e⟩ := List.mem_map.1 hc
  rw [hn] at hc
  exact h (List.mem_map.2 ⟨c, List.mem_of_mem_drop hc, e⟩)

theorem State.headD_busAddrs {s : State} {a : Nat} (h : a ∉ s.busAddrs) : ∀ c ∈ s.bus.headD [], c.1 ≠ a := by
  intro c hc e
  apply h
  cases hb : s.bus with
  | nil => simp [hb] at hc
  | cons b bs =>
    simp only [hb, List.headD_cons] at hc
    simp only [State.busAddrs, hb, List.flatten_cons, List.map_append, List.mem_append, List.mem_map]
    exact .inl ⟨c, hc, e⟩

/-- What lands writes only pending addresses, and addresses whose stores wait. -/
theorem State.land_read_other (s : State) {a : Nat} (h : a ∉ s.busAddrs) (hb : a ∉ s.bufferAddrs) :
    s.land.mem.read a = s.mem.read a := State.landStores_read_other _ (State.headD_busAddrs h) hb

/-- Where nothing lands, this processor sees what it saw, whatever drains (rule R80). -/
theorem State.land_ownByte_other (s : State) {a : Nat} (h : a ∉ s.busAddrs) : s.land.ownByte a = s.ownByte a :=
  State.landStores_ownByte_other _ (State.headD_busAddrs h)

/-- What stays pending after a landing was pending before. -/
theorem State.land_busAddrs {s : State} {a : Nat} (h : a ∉ s.busAddrs) : a ∉ s.land.busAddrs := by
  intro hc
  apply h
  unfold State.busAddrs at hc ⊢
  rw [State.land_bus] at hc
  cases hb : s.bus with
  | nil => simp [hb] at hc
  | cons b bs =>
    simp only [hb, List.tail_cons] at hc
    simp only [List.flatten_cons, List.map_append, List.mem_append]
    exact .inr hc

theorem State.drainSome_setDraws (s : State) (tail : List Word) :
    ∃ g, ∀ c, ∃ c', (s.setDraws { given := g ++ tail, count := c }).drainSome = s.drainSome.setDraws { given := tail, count := c' } := by
  by_cases h : s.storeBuffer.isEmpty
  · exact ⟨[], fun c => ⟨c, by simp [State.drainSome, h]⟩⟩
  · refine ⟨[s.drawn], fun c => ⟨c + 1, ?_⟩⟩
    simp only [State.drainSome, h, State.setDraws_storeBuffer]
    rfl

/-- A landing can be made again with the same choices, leaving any further draws to come. -/
theorem State.landStores_setDraws (cs : List Host.Cell) (s : State) (tail : List Word) :
    ∃ g, ∀ c, ∃ c', State.landStores cs (s.setDraws { given := g ++ tail, count := c })
      = (State.landStores cs s).setDraws { given := tail, count := c' } := by
  induction cs generalizing s with
  | nil => exact s.drainSome_setDraws tail
  | cons d cs ih =>
    obtain ⟨g, hg⟩ := ih (s.drainSome.landByte d)
    obtain ⟨g0, hg0⟩ := s.drainSome_setDraws (g ++ tail)
    refine ⟨g0 ++ g, fun c => ?_⟩
    obtain ⟨c1, h1⟩ := hg0 c
    obtain ⟨c2, h2⟩ := hg c1
    refine ⟨c2, ?_⟩
    rw [State.landStores, List.append_assoc, h1]
    exact h2

theorem State.land_setDraws (s : State) (tail : List Word) :
    ∃ g, ∀ c, ∃ c', (s.setDraws { given := g ++ tail, count := c }).land = s.land.setDraws { given := tail, count := c' } := by
  obtain ⟨g, hg⟩ := State.landStores_setDraws (s.bus.headD []) s tail
  refine ⟨g, fun c => ?_⟩
  obtain ⟨c', h⟩ := hg c
  exact ⟨c', by unfold State.land; rw [State.setDraws_bus, h]; rfl⟩

/-! One byte. -/

theorem State.noteRead_sameButMemory (s : State) (a : Nat) : s.SameButMemory (s.noteRead a) := by
  unfold State.noteRead; split_ifs <;> exact ⟨rfl, rfl, rfl, rfl, ⟨rfl, rfl, rfl, rfl⟩, rfl, rfl⟩

@[simp] theorem State.noteRead_mem (s : State) (a : Nat) : (s.noteRead a).mem = s.mem := by
  unfold State.noteRead; split_ifs <;> rfl

@[simp] theorem State.noteRead_storeBuffer (s : State) (a : Nat) : (s.noteRead a).storeBuffer = s.storeBuffer := by
  unfold State.noteRead; split_ifs <;> rfl

@[simp] theorem State.noteRead_bus (s : State) (a : Nat) : (s.noteRead a).bus = s.bus := by
  unfold State.noteRead; split_ifs <;> rfl

@[simp] theorem State.noteRead_draws (s : State) (a : Nat) : (s.noteRead a).draws = s.draws := by
  unfold State.noteRead; split_ifs <;> rfl

@[simp] theorem State.noteRead_writeSet (s : State) (a : Nat) : (s.noteRead a).writeSet = s.writeSet := by
  unfold State.noteRead; split_ifs <;> rfl

@[simp] theorem State.noteRead_params (s : State) (a : Nat) : (s.noteRead a).params = s.params := by
  unfold State.noteRead; split_ifs <;> rfl

@[simp] theorem State.noteRead_rtmActive (s : State) (a : Nat) : (s.noteRead a).rtmActive = s.rtmActive := by
  unfold State.noteRead; split_ifs <;> rfl

@[simp] theorem State.noteRead_ownByte (s : State) (a x : Nat) : (s.noteRead a).ownByte x = s.ownByte x := by
  simp [State.ownByte]

/-- What a noted read enters in the read set (rule R75). -/
theorem State.noteRead_lookup (s : State) (a x : Nat) :
    Cells.lookup (s.noteRead a).readSet x =
      if x = a ∧ s.rtmActive = true ∧ Cells.lookup s.writeSet a = none ∧ Cells.lookup s.readSet a = none then some (s.ownByte a)
      else Cells.lookup s.readSet x := by
  unfold State.noteRead
  by_cases h : (s.rtmActive && (Cells.lookup s.writeSet a).isNone && (Cells.lookup s.readSet a).isNone) = true
  · rw [if_pos h, State.setReadSet_readSet, Cells.lookup_put]
    simp only [Bool.and_eq_true, Option.isNone_iff_eq_none] at h
    simp [h.1.1, h.1.2, h.2]
  · rw [if_neg h]
    simp only [Bool.and_eq_true, Option.isNone_iff_eq_none, and_assoc] at h
    rw [if_neg fun k => h k.2]

theorem State.noteRead_rising {s : State} (h : Cells.rising s.readSet) (a : Nat) :
    Cells.rising (s.noteRead a).readSet := by
  unfold State.noteRead
  split_ifs
  · exact Cells.rising_put h _ _
  · exact h

theorem State.noteRead_inactive {s : State} (h : s.rtmActive = false) (a : Nat) : s.noteRead a = s := by
  simp [State.noteRead, h]

@[simp] theorem State.noteRead_viewByte (s : State) (a x : Nat) : (s.noteRead a).viewByte x = s.viewByte x := by
  simp [State.viewByte]

/-- The three things that a store of a byte can do. -/
theorem State.storeByte_cases (s : State) (k : Atomicity) (a : Nat) (b : Byte) :
    (s.rtmActive = true ∧ s.storeByte k a b = s.setWriteSet (Cells.put s.writeSet a b))
      ∨ (s.rtmActive = false ∧ s.storesAtOnce k = true ∧ s.storeByte k a b = (s.push a b).drain)
      ∨ (s.rtmActive = false ∧ s.storesAtOnce k = false ∧ s.storeByte k a b = s.push a b) := by
  unfold State.storeByte
  cases h1 : s.rtmActive <;> cases h2 : s.storesAtOnce k <;> simp

theorem State.storeByte_sameButMemory (s : State) (k : Atomicity) (a : Nat) (b : Byte) : s.SameButMemory (s.storeByte k a b) := by
  unfold State.storeByte; split_ifs <;> exact ⟨rfl, rfl, rfl, rfl, ⟨rfl, rfl, rfl, rfl⟩, rfl, rfl⟩

@[simp] theorem State.storeByte_bus (s : State) (k : Atomicity) (a : Nat) (b : Byte) : (s.storeByte k a b).bus = s.bus := by
  unfold State.storeByte; split_ifs <;> rfl

@[simp] theorem State.storeByte_draws (s : State) (k : Atomicity) (a : Nat) (b : Byte) : (s.storeByte k a b).draws = s.draws := by
  unfold State.storeByte; split_ifs <;> rfl

@[simp] theorem State.storeByte_readSet (s : State) (k : Atomicity) (a : Nat) (b : Byte) : (s.storeByte k a b).readSet = s.readSet := by
  unfold State.storeByte; split_ifs <;> rfl

@[simp] theorem State.storeByte_params (s : State) (k : Atomicity) (a : Nat) (b : Byte) : (s.storeByte k a b).params = s.params := by
  unfold State.storeByte; split_ifs <;> rfl

@[simp] theorem State.storeByte_rtmActive (s : State) (k : Atomicity) (a : Nat) (b : Byte) :
    (s.storeByte k a b).rtmActive = s.rtmActive := by
  unfold State.storeByte; split_ifs <;> rfl

/-- Inside a region a store leaves shared memory and the store buffer (rule R76). -/
theorem State.storeByte_active {s : State} (h : s.rtmActive = true) (k : Atomicity) (a : Nat) (b : Byte) :
    s.storeByte k a b = s.setWriteSet (Cells.put s.writeSet a b) := by simp [State.storeByte, h]

/-- Outside a region a store leaves the write set. -/
theorem State.storeByte_writeSet_inactive {s : State} (h : s.rtmActive = false) (k : Atomicity) (a : Nat) (b : Byte) :
    (s.storeByte k a b).writeSet = s.writeSet := by
  rcases s.storeByte_cases k a b with ⟨h', -⟩ | ⟨-, -, e⟩ | ⟨-, -, e⟩
  · rw [h] at h'; cases h'
  · rw [e]; rfl
  · rw [e]; rfl

/-- Outside a region a store is one more of this processor's stores in order (rule R80). -/
theorem State.storeByte_queued {s : State} (h : s.rtmActive = false) (k : Atomicity) (a : Nat) (b : Byte) :
    s.Queued [(a, b)] (s.storeByte k a b) := by
  rcases s.storeByte_cases k a b with ⟨h', -⟩ | ⟨-, -, e⟩ | ⟨-, -, e⟩
  · rw [h] at h'; cases h'
  · rw [e]; exact (s.push_queued a b).trans ((s.push a b).drainTo_queued _)
  · rw [e]; exact s.push_queued a b

/-- What this processor sees after a store of a byte (rules R62, R63, R75, R76, R80). -/
theorem State.storeByte_viewByte (s : State) (k : Atomicity) (a : Nat) (b : Byte) (x : Nat) :
    (s.storeByte k a b).viewByte x = if x = a then b else s.viewByte x := by
  unfold State.viewByte
  rw [State.storeByte_rtmActive]
  cases h : s.rtmActive with
  | true =>
    rw [State.storeByte_active h]
    simp only [if_true, State.setWriteSet_writeSet, Cells.lookup_put]
    split_ifs <;> rfl
  | false =>
    simp only [Bool.false_eq_true, if_false]
    rw [(State.storeByte_queued h k a b).ownByte, Cells.newest_singleton]
    split_ifs <;> rfl

/-- A store of a byte writes no other address of shared memory, but where stores wait. -/
theorem State.storeByte_read_other (s : State) (k : Atomicity) {a x : Nat} (b : Byte) (h : x ≠ a) (hb : x ∉ s.bufferAddrs) :
    (s.storeByte k a b).mem.read x = s.mem.read x := by
  cases ha : s.rtmActive with
  | true => rw [State.storeByte_active ha]; rfl
  | false => exact (State.storeByte_queued ha k a b).read_other hb (by simpa using h.symm)

theorem State.storeByte_mem_wf {s : State} (h : s.mem.wf) (k : Atomicity) (a : Nat) (b : Byte) : (s.storeByte k a b).mem.wf := by
  cases ha : s.rtmActive with
  | true => rw [State.storeByte_active ha]; exact h
  | false => exact (State.storeByte_queued ha k a b).mem_wf h

theorem State.storeByte_rising {s : State} (h : Cells.rising s.writeSet) (k : Atomicity) (a : Nat) (b : Byte) :
    Cells.rising (s.storeByte k a b).writeSet := by
  cases ha : s.rtmActive with
  | true => rw [State.storeByte_active ha]; exact Cells.rising_put h a b
  | false => rw [State.storeByte_writeSet_inactive ha]; exact h

/-- What waits after a store of a byte waited before or is that byte. -/
theorem State.storeByte_buffer_mem (s : State) (k : Atomicity) (a : Nat) (b : Byte) {c : Host.Cell}
    (h : c ∈ (s.storeByte k a b).storeBuffer) : c ∈ s.storeBuffer ∨ c = (a, b) := by
  cases ha : s.rtmActive with
  | true => rw [State.storeByte_active ha] at h; exact .inl h
  | false => simpa using (State.storeByte_queued ha k a b).mem_buffer h

/-- A store that reaches shared memory at once leaves nothing waiting that did not wait before, and outside a region nothing. -/
theorem State.storeByte_buffer_at_once {s : State} {k : Atomicity} (h : s.storesAtOnce k = true) (hs : s.storeBuffer = [])
    (a : Nat) (b : Byte) : (s.storeByte k a b).storeBuffer = [] := by
  rcases s.storeByte_cases k a b with ⟨-, e⟩ | ⟨-, -, e⟩ | ⟨-, h', -⟩
  · rw [e]; exact hs
  · rw [e]; simp
  · rw [h] at h'; cases h'

/-! Points between accesses. -/

theorem State.point_sameButMemory (s : State) (k : Atomicity) : s.SameButMemory (s.point k) := by
  cases k
  · exact s.drainTo_sameButMemory _
  · exact s.land_sameButMemory
  · exact .refl s

@[simp] theorem State.point_locked (s : State) : s.point .locked = s.drain := rfl
@[simp] theorem State.point_single (s : State) : s.point .single = s := rfl
@[simp] theorem State.point_writeSet (s : State) (k : Atomicity) : (s.point k).writeSet = s.writeSet := by
  cases k <;> simp [State.point]
@[simp] theorem State.point_readSet (s : State) (k : Atomicity) : (s.point k).readSet = s.readSet := by
  cases k <;> simp [State.point]
@[simp] theorem State.point_params (s : State) (k : Atomicity) : (s.point k).params = s.params := (s.point_sameButMemory k).params
@[simp] theorem State.point_rtmActive (s : State) (k : Atomicity) : (s.point k).rtmActive = s.rtmActive :=
  (s.point_sameButMemory k).region.active

/-- No store of another processor lands in an access: it is not plain, or none is pending. -/
def State.Quiet (s : State) (k : Atomicity) : Prop := k = .plain → s.bus = []

theorem State.quiet_locked (s : State) : s.Quiet .locked := fun h => by cases h
theorem State.quiet_single (s : State) : s.Quiet .single := fun h => by cases h

theorem State.Quiet.of_bus {s t : State} {k : Atomicity} (h : s.Quiet k) (hb : t.bus = s.bus) : t.Quiet k := fun hk => hb.trans (h hk)

theorem State.point_bus {s : State} {k : Atomicity} (h : s.Quiet k) : (s.point k).bus = s.bus := by
  cases k
  · rfl
  · simp [State.point, h rfl]
  · rfl

/-- A quiet point drains some of the store buffer, perhaps none, and nothing else. -/
theorem State.point_queued {s : State} {k : Atomicity} (h : s.Quiet k) : s.Queued [] (s.point k) := by
  cases k
  · exact s.drainTo_queued _
  · rw [State.point, State.land_of_bus_nil (h rfl)]; exact s.drainSome_queued
  · exact .refl s

theorem State.point_ownByte {s : State} {k : Atomicity} (h : s.Quiet k) (x : Nat) : (s.point k).ownByte x = s.ownByte x := by
  simpa using (State.point_queued h).ownByte x

theorem State.point_viewByte {s : State} {k : Atomicity} (h : s.Quiet k) (x : Nat) : (s.point k).viewByte x = s.viewByte x :=
  State.viewByte_congr (s.point_rtmActive k) (s.point_writeSet k) (State.point_ownByte h x)

theorem State.point_mem_wf {s : State} (h : s.mem.wf) (k : Atomicity) : (s.point k).mem.wf := by
  cases k
  · exact (s.drainTo_queued _).mem_wf h
  · exact s.land_mem_wf h
  · exact h

theorem State.point_buffer (s : State) (k : Atomicity) : ∃ n, (s.point k).storeBuffer = s.storeBuffer.drop n := by
  cases k
  · exact ⟨_, rfl⟩
  · exact s.land_buffer
  · exact ⟨0, rfl⟩

theorem State.point_buffer_mem {s : State} {k : Atomicity} {c : Host.Cell} (h : c ∈ (s.point k).storeBuffer) : c ∈ s.storeBuffer := by
  obtain ⟨n, hn⟩ := s.point_buffer k
  rw [hn] at h
  exact List.mem_of_mem_drop h

theorem State.point_buffer_nil {s : State} (h : s.storeBuffer = []) (k : Atomicity) : (s.point k).storeBuffer = [] := by
  obtain ⟨n, hn⟩ := s.point_buffer k
  simpa [h] using hn

theorem State.point_bufferAddrs {s : State} (k : Atomicity) {a : Nat} (h : a ∉ s.bufferAddrs) : a ∉ (s.point k).bufferAddrs := by
  intro hc
  obtain ⟨c, hc, e⟩ := List.mem_map.1 hc
  exact h (List.mem_map.2 ⟨c, State.point_buffer_mem hc, e⟩)

theorem State.point_read_other (s : State) (k : Atomicity) {a : Nat} (h : a ∉ s.busAddrs) (hb : a ∉ s.bufferAddrs) :
    (s.point k).mem.read a = s.mem.read a := by
  cases k
  · exact (s.drainTo_queued _).read_other hb (by simp)
  · exact s.land_read_other h hb
  · rfl

theorem State.point_busAddrs {s : State} (k : Atomicity) {a : Nat} (h : a ∉ s.busAddrs) : a ∉ (s.point k).busAddrs := by
  cases k
  · exact h
  · exact State.land_busAddrs h
  · exact h

/-! Several bytes: loads. -/

theorem State.loadBytes_sameButMemory (k : Atomicity) (n : Nat) (a : Word) (s : State) :
    s.SameButMemory (State.loadBytes k n a s).2 := by
  induction n generalizing a s with
  | zero => exact .refl s
  | succ n ih => exact ((s.point_sameButMemory k).trans (State.noteRead_sameButMemory _ _)).trans (ih _ _)

theorem State.afterLoad_sameButMemory (s : State) (k : Atomicity) (n : Nat) (a : Word) :
    s.SameButMemory (s.afterLoad k n a) := State.loadBytes_sameButMemory k n a s

@[simp] theorem State.loadBytes_length (k : Atomicity) (n : Nat) (a : Word) (s : State) :
    (State.loadBytes k n a s).1.length = n := by
  induction n generalizing a s with
  | zero => rfl
  | succ n ih => simp [State.loadBytes, ih]

@[simp] theorem State.afterLoad_writeSet (s : State) (k : Atomicity) (n : Nat) (a : Word) :
    (s.afterLoad k n a).writeSet = s.writeSet := by
  unfold State.afterLoad
  induction n generalizing a s with
  | zero => rfl
  | succ n ih => simp [State.loadBytes, ih]

/-- A load that other processors do not interrupt leaves shared memory and the store buffer but for what drains. -/
theorem State.afterLoad_queued {s : State} {k : Atomicity} (h : s.Quiet k) (n : Nat) (a : Word) : s.Queued [] (s.afterLoad k n a) := by
  unfold State.afterLoad
  induction n generalizing a s with
  | zero => exact .refl s
  | succ n ih =>
    have hp := (State.point_queued h).of_eq (State.noteRead_storeBuffer _ ((s.point k).phys a)) (State.noteRead_mem _ _)
    exact hp.trans (ih (h.of_bus (by simp [State.point_bus h])) _)

theorem State.afterLoad_bus {s : State} {k : Atomicity} (h : s.Quiet k) (n : Nat) (a : Word) : (s.afterLoad k n a).bus = s.bus := by
  unfold State.afterLoad
  induction n generalizing a s with
  | zero => rfl
  | succ n ih =>
    have hb : ((s.point k).noteRead ((s.point k).phys a)).bus = s.bus := by simp [State.point_bus h]
    exact (ih (h.of_bus hb) _).trans hb

/-- A single access changes the read set alone. -/
theorem State.afterLoad_single (s : State) (n : Nat) (a : Word) :
    (s.afterLoad .single n a).mem = s.mem ∧ (s.afterLoad .single n a).storeBuffer = s.storeBuffer
      ∧ (s.afterLoad .single n a).draws = s.draws ∧ (s.afterLoad .single n a).bus = s.bus := by
  unfold State.afterLoad
  induction n generalizing a s with
  | zero => exact ⟨rfl, rfl, rfl, rfl⟩
  | succ n ih => simpa [State.loadBytes] using ih (s.noteRead (s.phys a)) (s.wrap (a + 1))

/-- A locked load draws nothing. -/
theorem State.afterLoad_locked_draws (s : State) (n : Nat) (a : Word) : (s.afterLoad .locked n a).draws = s.draws := by
  unfold State.afterLoad
  induction n generalizing a s with
  | zero => rfl
  | succ n ih => simp [State.loadBytes, ih]

/-- A locked load leaves nothing waiting (rule R80). -/
theorem State.afterLoad_locked_buffer (s : State) {n : Nat} (hn : 0 < n) (a : Word) : (s.afterLoad .locked n a).storeBuffer = [] := by
  have hnil : ∀ n (a : Word) (s : State), s.storeBuffer = [] → (State.loadBytes .locked n a s).2.storeBuffer = [] := by
    intro n
    induction n with
    | zero => exact fun _ _ h => h
    | succ n ih => exact fun a s _ => ih _ _ (by simp)
  cases n with
  | zero => omega
  | succ n => exact hnil n _ _ (by simp)

theorem State.afterLoad_mem_wf {s : State} (h : s.mem.wf) (k : Atomicity) (n : Nat) (a : Word) :
    (s.afterLoad k n a).mem.wf := by
  unfold State.afterLoad
  induction n generalizing a s with
  | zero => exact h
  | succ n ih => exact ih (by simpa using State.point_mem_wf h k) _

theorem State.afterLoad_read_rising {s : State} (h : Cells.rising s.readSet) (k : Atomicity) (n : Nat) (a : Word) :
    Cells.rising (s.afterLoad k n a).readSet := by
  unfold State.afterLoad
  induction n generalizing a s with
  | zero => exact h
  | succ n ih => exact ih (State.noteRead_rising (by simpa using h) _) _

/-- Outside a region a load notes nothing. -/
theorem State.afterLoad_readSet_inactive {s : State} (h : s.rtmActive = false) (k : Atomicity) (n : Nat) (a : Word) :
    (s.afterLoad k n a).readSet = s.readSet := by
  unfold State.afterLoad
  induction n generalizing a s with
  | zero => rfl
  | succ n ih =>
    have hp : (s.point k).rtmActive = false := by simpa using h
    simp only [State.loadBytes, State.noteRead_inactive hp]
    rw [ih hp, State.point_readSet]

/-- What waits after a load waited before. -/
theorem State.afterLoad_buffer_mem {s : State} {k : Atomicity} {n : Nat} {a : Word} {c : Host.Cell}
    (h : c ∈ (s.afterLoad k n a).storeBuffer) : c ∈ s.storeBuffer := by
  unfold State.afterLoad at h
  induction n generalizing a s with
  | zero => exact h
  | succ n ih => exact State.point_buffer_mem (k := k) (by simpa using ih h)

theorem State.afterLoad_bufferAddrs {s : State} (k : Atomicity) (n : Nat) (a : Word) {x : Nat} (h : x ∉ s.bufferAddrs) :
    x ∉ (s.afterLoad k n a).bufferAddrs := by
  intro hc
  obtain ⟨c, hc, e⟩ := List.mem_map.1 hc
  exact h (List.mem_map.2 ⟨c, State.afterLoad_buffer_mem hc, e⟩)

/-- A load reads shared memory as it was but where other processors' stores land and this processor's drain. -/
theorem State.afterLoad_read_other (s : State) (k : Atomicity) (n : Nat) (a : Word) {x : Nat} (h : x ∉ s.busAddrs)
    (hb : x ∉ s.bufferAddrs) : (s.afterLoad k n a).mem.read x = s.mem.read x := by
  unfold State.afterLoad
  induction n generalizing a s with
  | zero => rfl
  | succ n ih =>
    have hp := State.point_busAddrs k h
    have hn : x ∉ ((s.point k).noteRead ((s.point k).phys a)).busAddrs := by simpa [State.busAddrs] using hp
    have hq : x ∉ ((s.point k).noteRead ((s.point k).phys a)).bufferAddrs := by
      simpa [State.bufferAddrs] using State.point_bufferAddrs k hb
    simp only [State.loadBytes]
    rw [ih _ _ hn hq, State.noteRead_mem, State.point_read_other _ _ h hb]

theorem State.afterLoad_busAddrs {s : State} (k : Atomicity) (n : Nat) (a : Word) {x : Nat} (h : x ∉ s.busAddrs) :
    x ∉ (s.afterLoad k n a).busAddrs := by
  unfold State.afterLoad
  induction n generalizing a s with
  | zero => exact h
  | succ n ih =>
    have hp := State.point_busAddrs k h
    refine ih _ (s := (s.point k).noteRead _) ?_
    simpa [State.busAddrs] using hp

/-- The bytes of a load that other processors do not interrupt are those this processor sees at the addresses of the access (rules
R62, R71, R75). -/
theorem State.loadBytes_quiet {s : State} {k : Atomicity} (h : s.Quiet k) (n : Nat) (a : Word) :
    (State.loadBytes k n a s).1 = (s.byteAddrs n a).map s.viewByte := by
  induction n generalizing a s with
  | zero => rfl
  | succ n ih =>
    have hq : ((s.point k).noteRead ((s.point k).phys a)).Quiet k := h.of_bus (by simp [State.point_bus h])
    have hp : ((s.point k).noteRead ((s.point k).phys a)).params = s.params := by simp
    simp only [State.loadBytes, State.byteAddrs, List.map_cons, State.point_viewByte h, State.phys_congr (s.point_params k),
      State.wrap_congr (s.point_params k)]
    rw [State.phys_congr (s.point_params k)] at hq hp
    rw [ih hq, State.byteAddrs_congr hp]
    congr 1
    exact List.map_congr_left fun x _ => by rw [State.noteRead_viewByte, State.point_viewByte h]

theorem State.loadValue_quiet {s : State} {k : Atomicity} (h : s.Quiet k) (n : Nat) (a : Word) :
    s.loadValue k n a = joinBytes ((s.byteAddrs n a).map s.viewByte) := by
  unfold State.loadValue; rw [State.loadBytes_quiet h]

theorem State.afterLoad_viewByte {s : State} {k : Atomicity} (h : s.Quiet k) (n : Nat) (a : Word) (x : Nat) :
    (s.afterLoad k n a).viewByte x = s.viewByte x :=
  State.viewByte_congr (s.afterLoad_sameButMemory k n a).region.active (s.afterLoad_writeSet k n a)
    (by simpa using (State.afterLoad_queued h n a).ownByte x)

/-- What a load enters in the read set (rule R75): inside a region, each byte of the access that neither set lists. -/
theorem State.afterLoad_lookup {s : State} {k : Atomicity} (h : s.Quiet k) (n : Nat) (a : Word) (x : Nat) :
    Cells.lookup (s.afterLoad k n a).readSet x =
      if x ∈ s.byteAddrs n a ∧ s.rtmActive = true ∧ Cells.lookup s.writeSet x = none ∧ Cells.lookup s.readSet x = none
      then some (s.ownByte x) else Cells.lookup s.readSet x := by
  unfold State.afterLoad
  induction n generalizing a s with
  | zero => simp [State.loadBytes, State.byteAddrs]
  | succ n ih =>
    have hq : ((s.point k).noteRead ((s.point k).phys a)).Quiet k := h.of_bus (by simp [State.point_bus h])
    have hp : ((s.point k).noteRead ((s.point k).phys a)).params = s.params := by simp
    simp only [State.loadBytes]
    rw [ih hq, State.byteAddrs_congr hp, State.noteRead_ownByte, State.point_ownByte h, State.noteRead_rtmActive, State.point_rtmActive,
      State.noteRead_writeSet, State.point_writeSet, State.noteRead_lookup, State.point_ownByte h, State.point_rtmActive,
      State.point_writeSet, State.point_readSet, State.phys_congr (s.point_params k), State.wrap_congr (s.point_params k)]
    simp only [State.byteAddrs, List.mem_cons]
    by_cases hx : x = s.phys a
    · subst hx
      by_cases h1 : s.rtmActive = true <;> by_cases h2 : Cells.lookup s.writeSet (s.phys a) = none <;>
        by_cases h3 : Cells.lookup s.readSet (s.phys a) = none <;> simp [h1, h2, h3]
    · simp [hx]

/-! Several bytes: stores. -/

theorem State.storeBytes_sameButMemory (k : Atomicity) (bs : List Byte) (a : Word) (s : State) :
    s.SameButMemory (State.storeBytes k bs a s) := by
  induction bs generalizing a s with
  | nil => exact .refl s
  | cons b bs ih => exact ((s.point_sameButMemory k).trans (State.storeByte_sameButMemory _ _ _ _)).trans (ih _ _)

theorem State.store_sameButMemory (s : State) (k : Atomicity) (n : Nat) (a v : Word) :
    s.SameButMemory (s.store k n a v) := State.storeBytes_sameButMemory k _ a s

@[simp] theorem State.storeBytes_readSet (k : Atomicity) (bs : List Byte) (a : Word) (s : State) :
    (State.storeBytes k bs a s).readSet = s.readSet := by
  induction bs generalizing a s with
  | nil => rfl
  | cons b bs ih => simp [State.storeBytes, ih]

@[simp] theorem State.store_readSet (s : State) (k : Atomicity) (n : Nat) (a v : Word) :
    (s.store k n a v).readSet = s.readSet := State.storeBytes_readSet k _ a s

theorem State.storeBytes_bus {s : State} {k : Atomicity} (h : s.Quiet k) (bs : List Byte) (a : Word) :
    (State.storeBytes k bs a s).bus = s.bus := by
  induction bs generalizing a s with
  | nil => rfl
  | cons b bs ih =>
    have hb : ((s.point k).storeByte k ((s.point k).phys a) b).bus = s.bus := by simp [State.point_bus h]
    exact (ih (h.of_bus hb) _).trans hb

/-- A locked store draws nothing. -/
theorem State.storeBytes_locked_draws (bs : List Byte) (a : Word) (s : State) :
    (State.storeBytes .locked bs a s).draws = s.draws := by
  induction bs generalizing a s with
  | nil => rfl
  | cons b bs ih => simp [State.storeBytes, ih]

theorem State.storeBytes_mem_wf {s : State} (h : s.mem.wf) (k : Atomicity) (bs : List Byte) (a : Word) :
    (State.storeBytes k bs a s).mem.wf := by
  induction bs generalizing a s with
  | nil => exact h
  | cons b bs ih => exact ih (State.storeByte_mem_wf (State.point_mem_wf h k) _ _ _) _

theorem State.storeBytes_write_rising {s : State} (h : Cells.rising s.writeSet) (k : Atomicity) (bs : List Byte) (a : Word) :
    Cells.rising (State.storeBytes k bs a s).writeSet := by
  induction bs generalizing a s with
  | nil => exact h
  | cons b bs ih => exact ih (State.storeByte_rising (by simpa using h) _ _ _) _

theorem State.storeBytes_writeSet_inactive {s : State} (h : s.rtmActive = false) (k : Atomicity) (bs : List Byte) (a : Word) :
    (State.storeBytes k bs a s).writeSet = s.writeSet := by
  induction bs generalizing a s with
  | nil => rfl
  | cons b bs ih =>
    have hp : (s.point k).rtmActive = false := by simpa using h
    simp only [State.storeBytes]
    rw [ih (by simpa using hp), State.storeByte_writeSet_inactive hp, State.point_writeSet]

/-- Every entry of the write set after a store was there or is at an address of the access. -/
theorem State.storeBytes_writeSet_mem (k : Atomicity) (bs : List Byte) (a : Word) (s : State) {c : Host.Cell}
    (h : c ∈ (State.storeBytes k bs a s).writeSet) : c ∈ s.writeSet ∨ c.1 ∈ s.byteAddrs bs.length a := by
  induction bs generalizing a s with
  | nil => exact .inl h
  | cons b bs ih =>
    rcases ih _ _ h with h | h
    · cases ha : (s.point k).rtmActive with
      | true =>
        rw [State.storeByte_active ha] at h
        rcases Cells.mem_put h with rfl | h
        · right; simp [State.byteAddrs, State.phys_congr (s.point_params k)]
        · left; simpa using h
      | false => rw [State.storeByte_writeSet_inactive ha] at h; left; simpa using h
    · right
      have hp : ((s.point k).storeByte k ((s.point k).phys a) b).params = s.params := by simp
      rw [State.byteAddrs_congr hp, State.wrap_congr (s.point_params k)] at h
      simp only [List.length_cons, State.byteAddrs, List.mem_cons]
      exact .inr h

/-- Whatever waits after a store waited before or is at an address of the access. -/
theorem State.storeBytes_buffer_mem (k : Atomicity) (bs : List Byte) (a : Word) (s : State) {c : Host.Cell}
    (h : c ∈ (State.storeBytes k bs a s).storeBuffer) : c ∈ s.storeBuffer ∨ c.1 ∈ s.byteAddrs bs.length a := by
  induction bs generalizing a s with
  | nil => exact .inl h
  | cons b bs ih =>
    simp only [List.length_cons, State.byteAddrs, List.mem_cons]
    rcases ih _ _ h with h | h
    · rcases State.storeByte_buffer_mem _ _ _ _ h with h | rfl
      · exact .inl (State.point_buffer_mem h)
      · exact .inr (.inl (by rw [State.phys_congr (s.point_params k)]))
    · have hp : ((s.point k).storeByte k ((s.point k).phys a) b).params = s.params := by simp
      rw [State.byteAddrs_congr hp, State.wrap_congr (s.point_params k)] at h
      exact .inr (.inr h)

/-- A store that reaches shared memory at once, from an empty store buffer, leaves it empty. -/
theorem State.storeBytes_buffer_nil {s : State} {k : Atomicity} (h : s.storesAtOnce k = true) (hs : s.storeBuffer = [])
    (bs : List Byte) (a : Word) : (State.storeBytes k bs a s).storeBuffer = [] := by
  induction bs generalizing a s with
  | nil => exact hs
  | cons b bs ih =>
    have hp : (s.point k).storesAtOnce k = true := by simpa [State.storesAtOnce] using h
    exact ih (by simpa [State.storesAtOnce] using h) (State.storeByte_buffer_at_once hp (State.point_buffer_nil hs k) _ _) _

/-- A locked store leaves nothing waiting (rule R80). -/
theorem State.storeBytes_locked_buffer (s : State) {bs : List Byte} (hb : bs ≠ []) (a : Word) :
    (State.storeBytes .locked bs a s).storeBuffer = [] := by
  cases bs with
  | nil => exact absurd rfl hb
  | cons b bs =>
    exact State.storeBytes_buffer_nil (by simp [State.storesAtOnce])
      (State.storeByte_buffer_at_once (by simp [State.storesAtOnce]) (by simp) _ _) _ _

/-- Outside a region, a store that other processors do not interrupt is its bytes, in order, among this processor's stores. -/
theorem State.storeBytes_queued {s : State} {k : Atomicity} (h : s.Quiet k) (ha : s.rtmActive = false) (bs : List Byte) (a : Word) :
    s.Queued ((s.byteAddrs bs.length a).zip bs) (State.storeBytes k bs a s) := by
  induction bs generalizing a s with
  | nil => exact State.Queued.refl s
  | cons b bs ih =>
    have hpa : (s.point k).rtmActive = false := by simpa using ha
    have h1 := (State.point_queued h).trans (State.storeByte_queued hpa k ((s.point k).phys a) b)
    have hb : ((s.point k).storeByte k ((s.point k).phys a) b).bus = s.bus := by simp [State.point_bus h]
    have hp : ((s.point k).storeByte k ((s.point k).phys a) b).params = s.params := by simp
    have h2 := h1.trans (ih (h.of_bus hb) (by simpa using hpa) ((s.point k).wrap (a + 1)))
    rw [State.byteAddrs_congr hp, State.wrap_congr (s.point_params k), State.phys_congr (s.point_params k)] at h2
    simpa [State.byteAddrs, State.storeBytes, State.phys_congr (s.point_params k), State.wrap_congr (s.point_params k)] using h2

/-- Inside a region, a store that other processors do not interrupt leaves shared memory and the store buffer but for what drains. -/
theorem State.storeBytes_queued_active {s : State} {k : Atomicity} (h : s.Quiet k) (ha : s.rtmActive = true) (bs : List Byte) (a : Word) :
    s.Queued [] (State.storeBytes k bs a s) := by
  induction bs generalizing a s with
  | nil => exact .refl s
  | cons b bs ih =>
    have hpa : (s.point k).rtmActive = true := by simpa using ha
    have hb : ((s.point k).storeByte k ((s.point k).phys a) b).bus = s.bus := by simp [State.point_bus h]
    have h1 : s.Queued [] ((s.point k).storeByte k ((s.point k).phys a) b) := by
      rw [State.storeByte_active hpa]; exact (State.point_queued h).of_eq rfl rfl
    exact h1.trans (ih (h.of_bus hb) (by simpa using hpa) _)

/-- A store writes shared memory at the addresses of the access alone, but where other processors' stores land and this
processor's earlier ones drain. -/
theorem State.storeBytes_read_other (k : Atomicity) (bs : List Byte) (a : Word) (s : State) {x : Nat}
    (hx : x ∉ s.byteAddrs bs.length a) (hb : x ∉ s.busAddrs) (hq : x ∉ s.bufferAddrs) :
    (State.storeBytes k bs a s).mem.read x = s.mem.read x := by
  induction bs generalizing a s with
  | nil => rfl
  | cons b bs ih =>
    simp only [List.length_cons, State.byteAddrs, List.mem_cons, not_or] at hx
    have hp : ((s.point k).storeByte k ((s.point k).phys a) b).params = s.params := by simp
    have hpb := State.point_busAddrs k hb
    have hpq := State.point_bufferAddrs k hq
    have hne : x ≠ (s.point k).phys a := by rw [State.phys_congr (s.point_params k)]; exact hx.1
    simp only [State.storeBytes]
    rw [ih, State.storeByte_read_other _ _ _ hne hpq, State.point_read_other _ _ hb hq]
    · rw [State.byteAddrs_congr hp, State.wrap_congr (s.point_params k)]; exact hx.2
    · simpa [State.busAddrs] using hpb
    · intro hc
      obtain ⟨c, hc, e⟩ := List.mem_map.1 hc
      rcases State.storeByte_buffer_mem _ _ _ _ hc with hc | rfl
      · exact hpq (List.mem_map.2 ⟨c, hc, e⟩)
      · exact hne e.symm

/-- Inside a region shared memory changes only where other processors' stores land and this processor's earlier ones drain (rules
R76, R79). -/
theorem State.storeBytes_read_active (k : Atomicity) (bs : List Byte) (a : Word) {s : State} (h : s.rtmActive = true) {x : Nat}
    (hb : x ∉ s.busAddrs) (hq : x ∉ s.bufferAddrs) : (State.storeBytes k bs a s).mem.read x = s.mem.read x := by
  induction bs generalizing a s with
  | nil => rfl
  | cons b bs ih =>
    have hp : (s.point k).rtmActive = true := by simpa using h
    have hpb := State.point_busAddrs k hb
    have hpq := State.point_bufferAddrs k hq
    simp only [State.storeBytes]
    rw [ih _ (by simpa using hp) (by simpa [State.busAddrs] using hpb)
      (by rw [State.storeByte_active hp]; simpa [State.bufferAddrs] using hpq), State.storeByte_active hp]
    exact State.point_read_other _ _ hb hq

/-- What this processor sees outside the addresses of a store that other processors do not interrupt. -/
theorem State.storeBytes_viewByte_other {s : State} {k : Atomicity} (h : s.Quiet k) (bs : List Byte) (a : Word) {x : Nat}
    (hx : x ∉ s.byteAddrs bs.length a) : (State.storeBytes k bs a s).viewByte x = s.viewByte x := by
  induction bs generalizing a s with
  | nil => rfl
  | cons b bs ih =>
    simp only [List.length_cons, State.byteAddrs, List.mem_cons, not_or] at hx
    have hb : ((s.point k).storeByte k ((s.point k).phys a) b).bus = s.bus := by simp [State.point_bus h]
    have hp : ((s.point k).storeByte k ((s.point k).phys a) b).params = s.params := by simp
    simp only [State.storeBytes]
    rw [ih (h.of_bus hb), State.storeByte_viewByte, if_neg, State.point_viewByte h]
    · rw [State.phys_congr (s.point_params k)]; exact hx.1
    · rw [State.byteAddrs_congr hp, State.wrap_congr (s.point_params k)]
      exact hx.2

/-- What this processor sees at the addresses of such a store, where they are distinct: the bytes stored (rule R63). -/
theorem State.storeBytes_viewByte {s : State} {k : Atomicity} (hk : s.Quiet k) (bs : List Byte) (a : Word)
    (h : (s.byteAddrs bs.length a).Nodup) : (s.byteAddrs bs.length a).map (State.storeBytes k bs a s).viewByte = bs := by
  induction bs generalizing a s with
  | nil => rfl
  | cons b bs ih =>
    simp only [List.length_cons, State.byteAddrs, List.nodup_cons] at h
    have hb : ((s.point k).storeByte k ((s.point k).phys a) b).bus = s.bus := by simp [State.point_bus hk]
    have hp : ((s.point k).storeByte k ((s.point k).phys a) b).params = s.params := by simp
    have hba := State.byteAddrs_congr hp bs.length (s.wrap (a + 1))
    simp only [List.length_cons, State.byteAddrs, State.storeBytes, List.map_cons, List.cons.injEq,
      State.wrap_congr (s.point_params k), State.phys_congr (s.point_params k)] at hba hb ⊢
    constructor
    · rw [State.storeBytes_viewByte_other (hk.of_bus hb) _ _ (by rw [hba]; exact h.1), State.storeByte_viewByte, if_pos rfl]
    · have := ih (hk.of_bus hb) (s.wrap (a + 1)) (by rw [hba]; exact h.2)
      rwa [hba] at this

/-! Admission. -/

/-- Nothing stops a read-modify-write exactly when it is admitted and stores to no program text. -/
theorem State.rmwStop_eq_none {s : State} {m : MemRef} {n : Nat} :
    s.rmwStop m n = none ↔ s.askAdmit .rmw m n = none ∧ s.storeHitsText n m.addr = false := by
  unfold State.rmwStop
  cases s.askAdmit .rmw m n <;> simp

/-- What stops a read-modify-write is never a next state. -/
theorem State.rmwStop_not_next {s : State} {m : MemRef} {n : Nat} {r : Result} (h : s.rmwStop m n = some r) (t : State) :
    r ≠ .next t := by
  unfold State.rmwStop at h
  cases he : s.askAdmit .rmw m n with
  | some e => rw [he] at h; cases h; simp [raise]
  | none =>
    rw [he] at h
    simp only [Option.ite_none_right_eq_some, Option.some.injEq] at h
    rw [← h.2]; simp

/-! Aborts. -/

/-- The state after RTM abort processing (rule R164). -/
theorem State.aborted_abortedTo (s : State) (r : Saved) (f : Word) (status : BitVec 32) :
    s.AbortedTo r f status (s.aborted r f status) := by
  have hreg : ∀ n, (s.aborted r f status).getReg n =
      ((s.restore r).emptySets.writeReg .w32 0#4 false (status.setWidth 64)).getReg n := fun _ => rfl
  refine ⟨fun n hn => ?_, ?_, rfl, rfl, ⟨rfl, rfl⟩, fun _ => rfl, rfl, rfl, rfl, rfl, rfl, rfl, rfl⟩
  · rw [hreg, State.getReg_writeReg_other _ _ hn]; rfl
  · rw [hreg, State.getReg_writeReg]
    simp only [homeReg, reduceCtorEq, false_and, if_false, if_true, mergeBits]
    apply BitVec.eq_of_toNat_eq
    rw [low_toNat, BitVec.toNat_setWidth]
    have := status.isLt
    omega

/-- RTM abort processing answers a next state only from a saved state and a fallback address. -/
theorem rtmAbort_next {status : BitVec 32} {s t : State} (h : rtmAbort status s = .next t) :
    ∃ r f, s.rtmSaved = some r ∧ s.fallback = some f ∧ t = s.aborted r f status := by
  unfold rtmAbort at h
  split at h
  · next r f hr hf => exact ⟨r, f, hr, hf, by cases h; rfl⟩
  · cases h

theorem rtmAbort_of_record {s : State} {r : Saved} {f : Word} (hr : s.rtmSaved = some r) (hf : s.fallback = some f)
    (status : BitVec 32) : rtmAbort status s = .next (s.aborted r f status) := by
  simp [rtmAbort, hr, hf]

/-! Commit. -/

/-- The read set validates when every byte in it still stands in shared memory (rule R77). -/
theorem State.readSetValid_iff (s : State) : s.readSetValid = true ↔ ∀ c ∈ s.readSet, s.mem.read c.1 = c.2 := by
  simp [State.readSetValid]

/-- A commit publishes the write set (rule R77). -/
theorem State.publish_read {s : State} (h : Cells.rising s.writeSet) (a : Nat) :
    s.publish.mem.read a = (Cells.lookup s.writeSet a).getD (s.mem.read a) := Memory.read_writeAll s.mem h a

theorem State.publish_mem_wf {s : State} (h : s.mem.wf) : s.publish.mem.wf := Memory.wf_writeAll h _

end Sys2Proof.Machine
end

