-- ==== Sys2Proof/Laws/Interleaving.lean ====
section
/-! SUPPORT. What a plain access of several bytes leaves when other processors' stores land between its bytes: which byte each read
gives, and what becomes of each byte stored. -/

namespace Sys2Proof.Machine

/-! A landing looks at no set. -/

theorem State.drainSome_setReadSet (s : State) (v : List Host.Cell) : (s.setReadSet v).drainSome = s.drainSome.setReadSet v := by
  unfold State.drainSome
  rw [State.setReadSet_storeBuffer]
  split_ifs <;> rfl

theorem State.landStores_setReadSet (cs : List Host.Cell) (s : State) (v : List Host.Cell) :
    State.landStores cs (s.setReadSet v) = (State.landStores cs s).setReadSet v := by
  induction cs generalizing s with
  | nil => exact s.drainSome_setReadSet v
  | cons c cs ih => rw [State.landStores, State.drainSome_setReadSet]; exact ih (s.drainSome.landByte c)

theorem State.land_setReadSet (s : State) (v : List Host.Cell) : (s.setReadSet v).land = s.land.setReadSet v := by
  unfold State.land; rw [State.setReadSet_bus, State.landStores_setReadSet]; rfl

theorem State.iterate_land_setReadSet (k : Nat) (s : State) (v : List Host.Cell) :
    State.land^[k] (s.setReadSet v) = (State.land^[k] s).setReadSet v := by
  induction k generalizing s with
  | zero => rfl
  | succ k ih => rw [Function.iterate_succ_apply, Function.iterate_succ_apply, State.land_setReadSet, ih]

/-- A noted read changes nothing of what later landings leave but the read set. -/
theorem State.iterate_land_noteRead (k : Nat) (s : State) (a : Nat) :
    State.land^[k] (s.noteRead a) = (State.land^[k] s).setReadSet (s.noteRead a).readSet := by
  have h : s.noteRead a = s.setReadSet (s.noteRead a).readSet := by unfold State.noteRead; split_ifs <;> rfl
  rw [h, State.iterate_land_setReadSet]; rfl

theorem State.iterate_land_params (k : Nat) (s : State) : (State.land^[k] s).params = s.params := by
  induction k generalizing s with
  | zero => rfl
  | succ k ih => rw [Function.iterate_succ_apply, ih, State.land_params]

theorem State.iterate_land_rtmActive (k : Nat) (s : State) : (State.land^[k] s).rtmActive = s.rtmActive := by
  induction k generalizing s with
  | zero => rfl
  | succ k ih => rw [Function.iterate_succ_apply, ih, State.land_rtmActive]

theorem State.iterate_land_writeSet (k : Nat) (s : State) : (State.land^[k] s).writeSet = s.writeSet := by
  induction k generalizing s with
  | zero => rfl
  | succ k ih => rw [Function.iterate_succ_apply, ih, State.land_writeSet]

/-! Plain loads. -/

@[simp] theorem State.point_plain (s : State) : s.point .plain = s.land := rfl

/-- Byte `k` of a plain load is what this processor sees once `k + 1` batches have landed (rule R72). -/
theorem State.loadBytes_plain (n : Nat) (a : Word) (s : State) (k : Nat) (h : k < n) :
    (State.loadBytes .plain n a s).1[k]? =
      some ((State.land^[k + 1] s).viewByte ((s.byteAddrs n a)[k]'(by simpa using h))) := by
  induction n generalizing a s k with
  | zero => omega
  | succ n ih =>
    have hp : (s.land.noteRead (s.land.phys a)).params = s.params := by simp
    cases k with
    | zero => simp [State.loadBytes, State.byteAddrs, State.phys_congr s.land_params]
    | succ k =>
      have hb := State.byteAddrs_congr hp n (s.land.wrap (a + 1))
      rw [State.wrap_congr s.land_params] at hb
      simp only [State.loadBytes, List.getElem?_cons_succ, State.point_plain, State.wrap_congr s.land_params]
      rw [ih _ _ _ (by omega)]
      simp only [State.byteAddrs, List.getElem_cons_succ, hb]
      rw [State.iterate_land_noteRead, Function.iterate_succ_apply (n := k + 1)]
      rfl

theorem State.afterLoad_plain_bus (n : Nat) (a : Word) (s : State) : (s.afterLoad .plain n a).bus = s.bus.drop n := by
  unfold State.afterLoad
  induction n generalizing a s with
  | zero => rfl
  | succ n ih => simp only [State.loadBytes]; rw [ih]; simp

/-- A load changes no byte's entry in the read set outside its addresses. -/
theorem State.afterLoad_lookup_other (k : Atomicity) (n : Nat) (a : Word) (s : State) {x : Nat} (h : x ∉ s.byteAddrs n a) :
    Cells.lookup (s.afterLoad k n a).readSet x = Cells.lookup s.readSet x := by
  unfold State.afterLoad
  induction n generalizing a s with
  | zero => rfl
  | succ n ih =>
    simp only [State.byteAddrs, List.mem_cons, not_or] at h
    have hp : ((s.point k).noteRead ((s.point k).phys a)).params = s.params := by simp
    simp only [State.loadBytes]
    rw [ih, State.noteRead_lookup, if_neg, State.point_readSet]
    · rw [State.phys_congr (s.point_params k)]; exact fun e => h.1 e.1
    · rw [State.byteAddrs_congr hp, State.wrap_congr (s.point_params k)]; exact h.2

/-- What a plain load of distinct addresses enters in the read set inside a region (rule R75): each byte as it was read. -/
theorem State.afterLoad_plain_lookup (n : Nat) (a : Word) (s : State) (ha : s.rtmActive = true) (hn : (s.byteAddrs n a).Nodup)
    (k : Nat) (h : k < (s.byteAddrs n a).length) :
    Cells.lookup (s.afterLoad .plain n a).readSet (s.byteAddrs n a)[k] =
      if Cells.lookup s.writeSet (s.byteAddrs n a)[k] = none ∧ Cells.lookup s.readSet (s.byteAddrs n a)[k] = none
      then some ((State.land^[k + 1] s).ownByte (s.byteAddrs n a)[k]) else Cells.lookup s.readSet (s.byteAddrs n a)[k] := by
  induction n generalizing a s k with
  | zero => simp [State.byteAddrs] at h
  | succ n ih =>
    have hp : (s.land.noteRead (s.land.phys a)).params = s.params := by simp
    have hb := State.byteAddrs_congr hp n (s.wrap (a + 1))
    simp only [State.byteAddrs, List.nodup_cons] at hn
    simp only [State.afterLoad, State.loadBytes, State.point_plain, State.byteAddrs, State.phys_congr s.land_params,
      State.wrap_congr s.land_params] at hb hp ⊢
    cases k with
    | zero =>
      have := State.afterLoad_lookup_other .plain n (s.wrap (a + 1)) (s.land.noteRead (s.phys a)) (x := s.phys a)
        (by rw [hb]; exact hn.1)
      unfold State.afterLoad at this
      simp only [List.getElem_cons_zero, this, State.noteRead_lookup, State.land_rtmActive, State.land_writeSet, State.land_readSet, ha]
      simp
    | succ k =>
      have hk : k < (s.byteAddrs n (s.wrap (a + 1))).length := by simpa [State.byteAddrs] using h
      have hne : (s.byteAddrs n (s.wrap (a + 1)))[k] ≠ s.phys a := fun e => hn.1 (e ▸ List.getElem_mem hk)
      have := ih (s.wrap (a + 1)) (s.land.noteRead (s.phys a)) (by simpa using ha) (by rw [hb]; exact hn.2) k (by rw [hb]; exact hk)
      simp only [hb, State.afterLoad] at this
      simp only [List.getElem_cons_succ, this, State.noteRead_writeSet, State.land_writeSet, State.noteRead_lookup, hne, false_and, if_false,
        State.land_readSet]
      rw [State.iterate_land_noteRead, Function.iterate_succ_apply (n := k + 1)]
      rfl

/-! Stores into the write set. -/

/-- Inside a region a store enters its bytes, at distinct addresses, in the write set, and no other (rule R76). -/
theorem State.storeBytes_lookup (k : Atomicity) (bs : List Byte) (a : Word) (s : State) (ha : s.rtmActive = true)
    (hn : (s.byteAddrs bs.length a).Nodup) :
    (∀ x, x ∉ s.byteAddrs bs.length a → Cells.lookup (State.storeBytes k bs a s).writeSet x = Cells.lookup s.writeSet x)
      ∧ ∀ (i : Nat) (h : i < bs.length),
        Cells.lookup (State.storeBytes k bs a s).writeSet ((s.byteAddrs bs.length a)[i]'(by simpa using h)) = some bs[i] := by
  induction bs generalizing a s with
  | nil => exact ⟨fun _ _ => rfl, fun i h => by simp at h⟩
  | cons b bs ih =>
    have hpa : (s.point k).rtmActive = true := by simpa using ha
    have hp : ((s.point k).storeByte k (s.phys a) b).params = s.params := by simp
    have hb := State.byteAddrs_congr hp bs.length (s.wrap (a + 1))
    have hs : ((s.point k).storeByte k (s.phys a) b).writeSet = Cells.put s.writeSet (s.phys a) b := by
      rw [State.storeByte_active hpa]; simp
    simp only [List.length_cons, State.byteAddrs, List.nodup_cons] at hn
    obtain ⟨i1, i2⟩ := ih (s.wrap (a + 1)) ((s.point k).storeByte k (s.phys a) b) (by simpa using ha) (by rw [hb]; exact hn.2)
    simp only [hb, hs] at i1 i2
    simp only [State.storeBytes, State.phys_congr (s.point_params k), State.wrap_congr (s.point_params k), List.length_cons,
      State.byteAddrs, List.mem_cons, not_or]
    refine ⟨fun x hx => by rw [i1 x hx.2, Cells.lookup_put_other _ _ hx.1], fun i h => ?_⟩
    cases i with
    | zero => simp only [List.getElem_cons_zero]; rw [i1 _ hn.1, Cells.lookup_put_same]
    | succ i => simpa using i2 i (by simpa using h)

/-! What waits in the store buffer. -/

theorem State.land_buffer_suffix (s : State) : s.land.storeBuffer <:+ s.storeBuffer := by
  obtain ⟨n, h⟩ := s.land_buffer; rw [h]; exact List.drop_suffix _ _

theorem State.point_buffer_suffix (s : State) (k : Atomicity) : (s.point k).storeBuffer <:+ s.storeBuffer := by
  obtain ⟨n, h⟩ := s.point_buffer k; rw [h]; exact List.drop_suffix _ _

theorem State.afterLoad_buffer_suffix (s : State) (k : Atomicity) (n : Nat) (a : Word) :
    (s.afterLoad k n a).storeBuffer <:+ s.storeBuffer := by
  unfold State.afterLoad
  induction n generalizing a s with
  | zero => exact List.suffix_refl _
  | succ n ih => exact (ih _ _).trans (by simpa using s.point_buffer_suffix k)

/-- What waits after a store is the newest part of what waited before with, outside a region, the bytes stored (rules R76, R80). -/
theorem State.storeBytes_buffer_suffix (k : Atomicity) (bs : List Byte) (a : Word) (s : State) :
    (State.storeBytes k bs a s).storeBuffer <:+
      s.storeBuffer ++ (if s.rtmActive then [] else (s.byteAddrs bs.length a).zip bs) := by
  induction bs generalizing a s with
  | nil => simp [State.storeBytes, State.byteAddrs]
  | cons b bs ih =>
    have hp : ((s.point k).storeByte k (s.phys a) b).params = s.params := by simp
    have h := ih (s.wrap (a + 1)) ((s.point k).storeByte k (s.phys a) b)
    rw [State.storeByte_rtmActive, State.point_rtmActive, State.byteAddrs_congr hp] at h
    have hs : ((s.point k).storeByte k (s.phys a) b).storeBuffer <:+
        s.storeBuffer ++ (if s.rtmActive then [] else [(s.phys a, b)]) := by
      obtain ⟨l, hl⟩ := s.point_buffer_suffix k
      rcases (s.point k).storeByte_cases k (s.phys a) b with ⟨h1, e⟩ | ⟨h1, -, e⟩ | ⟨h1, -, e⟩ <;> rw [e] <;>
        rw [State.point_rtmActive] at h1 <;> simp only [h1, if_true, Bool.false_eq_true, if_false]
      · exact ⟨l, by simpa using hl⟩
      · simp
      · exact ⟨l, by simp [State.push, ← hl]⟩
    simp only [State.storeBytes, State.phys_congr (s.point_params k), State.wrap_congr (s.point_params k)]
    refine h.trans ?_
    obtain ⟨l, hl⟩ := hs
    refine ⟨l, ?_⟩
    cases ha : s.rtmActive <;> simp only [ha, if_true, Bool.false_eq_true, if_false, List.append_nil] at hl ⊢
    · rw [← List.append_assoc, hl]; simp [State.byteAddrs]
    · exact hl

/-! What becomes of a byte stored outside a region. -/

/-- A byte `b` stored to `x` since when the stores `cells` of other processors landed: it still waits, or it drained after the first
`j` of them and the rest may have overwritten it; under sequential consistency it drained before all of them. -/
def State.Tracks (s : State) (x : Nat) (b : Byte) (cells : List Host.Cell) : Prop :=
  (Cells.newest s.storeBuffer x = some b ∧ s.params.consistency ≠ .sc)
    ∨ (Cells.newest s.storeBuffer x = none ∧ ∃ j ≤ cells.length, (s.params.consistency = .sc → j = 0)
        ∧ s.mem.read x = (Cells.newest (cells.drop j) x).getD b)

theorem State.Tracks.of_eq {s t : State} {x : Nat} {b : Byte} {cells : List Host.Cell} (h : s.Tracks x b cells)
    (hb : t.storeBuffer = s.storeBuffer) (hm : t.mem = s.mem) (hp : t.params = s.params) : t.Tracks x b cells := by
  unfold State.Tracks; rw [hb, hm, hp]; exact h

/-- What this processor then sees. -/
theorem State.Tracks.ownByte {s : State} {x : Nat} {b : Byte} {cells : List Host.Cell} (h : s.Tracks x b cells) :
    ∃ j, (s.params.consistency = .sc → j = 0) ∧ s.ownByte x = (Cells.newest (cells.drop j) x).getD b := by
  rcases h with ⟨h, hc⟩ | ⟨h, j, -, hj, hm⟩
  · exact ⟨cells.length, fun e => absurd e hc, by simp [State.ownByte, h]⟩
  · exact ⟨j, hj, by simp [State.ownByte, h, hm]⟩

theorem State.Tracks.drainTo {s : State} {x : Nat} {b : Byte} {cells : List Host.Cell} (h : s.Tracks x b cells) (n : Nat) :
    (s.drainTo n).Tracks x b cells := by
  have e : Cells.newest s.storeBuffer x = (Cells.newest (s.storeBuffer.drop n) x).or (Cells.newest (s.storeBuffer.take n) x) := by
    rw [← Cells.newest_append, List.take_append_drop]
  unfold State.Tracks
  rw [State.drainTo_storeBuffer, State.drainTo_mem, State.drainTo_params, Memory.read_writeAll_newest]
  rcases h with ⟨h, hc⟩ | ⟨h, j, hl, hj, hm⟩ <;> rw [e] at h
  · cases hd : Cells.newest (s.storeBuffer.drop n) x with
    | some v => rw [hd, Option.some_or] at h; exact .inl ⟨h, hc⟩
    | none =>
      rw [hd, Option.none_or] at h
      exact .inr ⟨rfl, cells.length, le_refl _, fun e => absurd e hc, by simp [h]⟩
  · rw [Option.or_eq_none_iff] at h
    exact .inr ⟨h.1, j, hl, hj, by simp [h.2, hm]⟩

theorem State.Tracks.drainSome {s : State} {x : Nat} {b : Byte} {cells : List Host.Cell} (h : s.Tracks x b cells) :
    s.drainSome.Tracks x b cells := by
  obtain ⟨n, d, e⟩ := s.drainSome_eq
  rw [e]; exact (h.drainTo n).of_eq rfl rfl rfl

theorem State.Tracks.landByte {s : State} {x : Nat} {b : Byte} {cells : List Host.Cell} (h : s.Tracks x b cells) (c : Host.Cell) :
    (s.landByte c).Tracks x b (cells ++ [c]) := by
  rcases h with h | ⟨h, j, hl, hj, hm⟩
  · exact .inl h
  · refine .inr ⟨h, j, by simp; omega, hj, ?_⟩
    rw [List.drop_append_of_le_length hl, Cells.newest_append, Option.getD_or, ← hm]
    obtain ⟨y, v⟩ := c
    rw [Cells.newest_singleton]
    show (s.mem.write y v).read x = _
    rw [Memory.read_write]
    split_ifs <;> rfl

theorem State.Tracks.landStores {s : State} {x : Nat} {b : Byte} {cells : List Host.Cell} (h : s.Tracks x b cells)
    (cs : List Host.Cell) : (State.landStores cs s).Tracks x b (cells ++ cs) := by
  induction cs generalizing s cells with
  | nil => rw [List.append_nil]; exact h.drainSome
  | cons c cs ih => simpa [State.landStores] using ih (h.drainSome.landByte c)

theorem State.Tracks.land {s : State} {x : Nat} {b : Byte} {cells : List Host.Cell} (h : s.Tracks x b cells) :
    s.land.Tracks x b (cells ++ s.bus.headD []) := (h.landStores _).of_eq rfl rfl rfl

/-- A plain store elsewhere leaves it. -/
theorem State.Tracks.storeByte {s : State} {x : Nat} {b : Byte} {cells : List Host.Cell} (h : s.Tracks x b cells)
    {y : Nat} (hy : y ≠ x) (v : Byte) : (s.storeByte .plain y v).Tracks x b cells := by
  have hpush : (s.push y v).Tracks x b cells := by
    have e : Cells.newest (s.push y v).storeBuffer x = Cells.newest s.storeBuffer x := by
      simp [State.push, Cells.newest_append, hy.symm]
    rcases h with h | h
    · exact .inl ⟨e.trans h.1, h.2⟩
    · exact .inr ⟨e.trans h.1, h.2⟩
  rcases s.storeByte_cases .plain y v with ⟨-, e⟩ | ⟨-, -, e⟩ | ⟨-, -, e⟩ <;> rw [e]
  · exact h.of_eq rfl rfl rfl
  · exact hpush.drainTo _
  · exact hpush

/-- A byte just stored outside a region. -/
theorem State.tracks_storeByte {s : State} (ha : s.rtmActive = false) (x : Nat) (b : Byte) :
    (s.storeByte .plain x b).Tracks x b [] := by
  have hn : Cells.newest (s.push x b).storeBuffer x = some b := by simp [State.push, Cells.newest_append]
  rcases s.storeByte_cases .plain x b with ⟨h, -⟩ | ⟨-, -, e⟩ | ⟨-, hc, e⟩
  · rw [ha] at h; cases h
  · rw [e]
    exact .inr ⟨by simp, 0, le_refl _, fun _ => rfl, by rw [State.drain_mem, Memory.read_writeAll_newest, hn]; rfl⟩
  · rw [e]
    exact .inl ⟨hn, fun e => by simp [State.storesAtOnce, show s.params.consistency = .sc from e] at hc⟩

theorem State.storeBytes_plain_bus (bs : List Byte) (a : Word) (s : State) :
    (State.storeBytes .plain bs a s).bus = s.bus.drop bs.length := by
  induction bs generalizing a s with
  | nil => rfl
  | cons b bs ih => simp only [State.storeBytes]; rw [ih]; simp

theorem flatten_take_succ (l : List (List Host.Cell)) (n : Nat) : (l.take (n + 1)).flatten = l.headD [] ++ (l.tail.take n).flatten := by
  cases l <;> simp

/-- The batches that land during a plain store elsewhere are added to those that landed since. -/
theorem State.Tracks.storeBytes {s : State} {x : Nat} {b : Byte} {cells : List Host.Cell} (h : s.Tracks x b cells) (bs : List Byte)
    (a : Word) (hx : x ∉ s.byteAddrs bs.length a) :
    (State.storeBytes .plain bs a s).Tracks x b (cells ++ (s.bus.take bs.length).flatten) := by
  induction bs generalizing a s cells with
  | nil => simpa [State.storeBytes] using h
  | cons v bs ih =>
    simp only [List.length_cons, State.byteAddrs, List.mem_cons, not_or] at hx
    have hp : (s.land.storeByte .plain (s.land.phys a) v).params = s.params := by simp
    have := ih (h.land.storeByte (y := s.land.phys a) (by rw [State.phys_congr s.land_params]; exact fun e => hx.1 e.symm) v)
      (s.land.wrap (a + 1)) (by rw [State.byteAddrs_congr hp, State.wrap_congr s.land_params]; exact hx.2)
    rw [State.storeByte_bus, State.land_bus, List.append_assoc, ← flatten_take_succ] at this
    exact this

/-- What becomes of byte `i` of a plain store outside a region to distinct addresses: only the batches that land after it can
overwrite it (rules R70, R72, R183). -/
theorem State.storeBytes_tracks {s : State} (ha : s.rtmActive = false) (bs : List Byte) (a : Word)
    (hn : (s.byteAddrs bs.length a).Nodup) (i : Nat) (h : i < bs.length) :
    (State.storeBytes .plain bs a s).Tracks ((s.byteAddrs bs.length a)[i]'(by simpa using h)) bs[i]
      ((s.bus.take bs.length).drop (i + 1)).flatten := by
  induction bs generalizing a s i with
  | nil => simp at h
  | cons b bs ih =>
    have hp : (s.land.storeByte .plain (s.phys a) b).params = s.params := by simp
    have hb := State.byteAddrs_congr hp bs.length (s.wrap (a + 1))
    simp only [List.length_cons, State.byteAddrs, List.nodup_cons] at hn
    simp only [State.storeBytes, State.point_plain, State.phys_congr s.land_params, State.wrap_congr s.land_params]
    have hla : s.land.rtmActive = false := by simpa using ha
    cases i with
    | zero =>
      have := (State.tracks_storeByte hla (s.phys a) b).storeBytes bs (s.wrap (a + 1)) (by rw [hb]; exact hn.1)
      have hd : (s.bus.take (bs.length + 1)).tail = s.bus.tail.take bs.length := by cases s.bus <;> simp
      simpa [State.byteAddrs, hd] using this
    | succ i =>
      have hi : i < bs.length := by simpa using h
      have := ih (s := s.land.storeByte .plain (s.phys a) b) (by simpa using ha) (s.wrap (a + 1)) (by rw [hb]; exact hn.2) i hi
      simp only [hb] at this
      have hd : ((s.bus.take (bs.length + 1)).drop (i + 1 + 1)) = ((s.bus.tail.take bs.length).drop (i + 1)) := by
        cases s.bus <;> simp
      simpa [State.byteAddrs, hd] using this

/-! Under sequential consistency, with nothing waiting. -/

/-- The batches of the points of a plain load are written in order. -/
theorem State.afterLoad_plain_sc {s : State} (hs : s.storeBuffer = []) (n : Nat) (a : Word) :
    (s.afterLoad .plain n a).mem = s.mem.writeAll (s.bus.take n).flatten ∧ (s.afterLoad .plain n a).storeBuffer = []
      ∧ (s.afterLoad .plain n a).draws = s.draws := by
  unfold State.afterLoad
  induction n generalizing a s with
  | zero => exact ⟨rfl, hs, rfl⟩
  | succ n ih =>
    have hl := State.land_of_buffer_nil hs
    obtain ⟨h1, h2, h3⟩ := ih (s := s.land.noteRead (s.land.phys a)) (by simp [hl, hs]) (s.land.wrap (a + 1))
    simp only [State.loadBytes, State.point_plain]
    refine ⟨?_, h2, ?_⟩
    · rw [h1, flatten_take_succ, Memory.writeAll_append]; simp [hl]
    · rw [h3]; simp [hl]

/-- Addresses that a plain store is not to, and inside a region every address, take the batches in order. -/
theorem State.storeBytes_plain_sc {s : State} (hc : s.params.consistency = .sc) (hs : s.storeBuffer = []) (bs : List Byte) (a : Word) :
    (State.storeBytes .plain bs a s).storeBuffer = [] ∧ (State.storeBytes .plain bs a s).draws = s.draws
      ∧ ∀ x, s.rtmActive = true ∨ x ∉ s.byteAddrs bs.length a →
        (State.storeBytes .plain bs a s).mem.read x = (Cells.newest (s.bus.take bs.length).flatten x).getD (s.mem.read x) := by
  induction bs generalizing a s with
  | nil => exact ⟨hs, rfl, fun _ _ => rfl⟩
  | cons b bs ih =>
    have hl := State.land_of_buffer_nil hs
    have hlb : s.land.storeBuffer = [] := by simp [hl, hs]
    have hk : s.land.storesAtOnce .plain = true := by simp [State.storesAtOnce, hc]
    have hp : (s.land.storeByte .plain (s.phys a) b).params = s.params := by simp
    obtain ⟨h1, h2, h3⟩ := ih (s := s.land.storeByte .plain (s.phys a) b) (by rw [hp]; exact hc)
      (State.storeByte_buffer_at_once hk hlb _ _) (s.wrap (a + 1))
    simp only [State.storeBytes, State.point_plain, State.phys_congr s.land_params, State.wrap_congr s.land_params]
    refine ⟨h1, by rw [h2]; simp [hl], fun x hx => ?_⟩
    rw [State.byteAddrs_congr hp, State.storeByte_rtmActive, State.land_rtmActive] at h3
    simp only [List.length_cons, State.byteAddrs, List.mem_cons, not_or] at hx
    have hm : (s.land.storeByte .plain (s.phys a) b).mem.read x = s.land.mem.read x := by
      cases ha : s.rtmActive with
      | true => rw [State.storeByte_active (by simpa using ha)]; rfl
      | false =>
        rw [ha] at hx
        exact State.storeByte_read_other _ _ _ (hx.resolve_left (by simp)).1 (by simp [State.bufferAddrs, hlb])
    rw [h3 x (hx.imp_right And.right), hm, List.length_cons, flatten_take_succ, Cells.newest_append, State.storeByte_bus, State.land_bus,
      Option.getD_or]
    congr 1
    simp [hl, Memory.read_writeAll_newest]

end Sys2Proof.Machine
end

