-- ==== Sys2Proof/Laws/Meanings.lean ====
section
/-! SUPPORT. For each shared meaning, once, everything it can do when it answers a next state, and when it stops. -/

namespace Sys2Proof.Machine

/-! Aborts. -/

theorem abortOther_of_record {s : State} {r : Saved} {f : Word} (hr : s.rtmSaved = some r) (hf : s.fallback = some f) :
    abortOther s = .next (s.afterDraw.aborted r f s.abortStatusOther) :=
  rtmAbort_of_record (s := s.afterDraw) hr hf _

theorem abortOther_next {s t : State} (h : abortOther s = .next t) :
    ∃ r f, s.rtmSaved = some r ∧ s.fallback = some f ∧ t = s.afterDraw.aborted r f s.abortStatusOther :=
  rtmAbort_next (s := s.afterDraw) h

/-- Abort processing looks at the source of free values only for its status. -/
theorem State.AbortedTo.of_same {s s' t : State} {r : Saved} {f : Word} {status : BitVec 32} (h : s'.AbortedTo r f status t)
    (hm : s'.mem = s.mem) (hq : s'.storeBuffer = s.storeBuffer) (he : s'.hleElided = s.hleElided)
    (hp : s'.params = s.params) (hb : s'.bus = s.bus) : s.AbortedTo r f status t :=
  { h with
    mem := fun a => by rw [h.mem a, hm]
    storeBuffer := h.storeBuffer.trans hq
    elided := h.elided.trans he
    params := h.params.trans hp
    bus := h.bus.trans hb }

/-- Every status is the 32 drawn bits of some draw (rule R165). -/
theorem status_drawn (status : BitVec 32) : (status.setWidth 64).extractLsb' 0 32 = status := by
  apply BitVec.eq_of_toNat_eq
  have := status.isLt
  simp
  omega

/-! XADD and XCHG. -/

/-- The next state of XADD with a register destination. -/
def xaddRegState (w : Width) (p : Pfx) (m : ModRM) (len : Nat) (s : State) : State :=
  let a := s.readReg w (m.rmNum p) p.hasRex
  let b := s.readReg w (m.regNum p) p.hasRex
  (((s.writeReg w (m.regNum p) p.hasRex a).writeReg w (m.rmNum p) p.hasRex (addValue w a b)).setFlags (addFlags w a b)).advance len

theorem xadd_next {w : Width} {p : Pfx} {m : ModRM} {len : Nat} {s t : State} (h : xadd w p m len s = .next t) :
    (m.isMem = false ∧ t = xaddRegState w p m len s)
      ∨ (m.isMem = true ∧ s.rmwStop (s.memRef p m len) w.bytes = none ∧ t = xaddMemBody w p m len s) := by
  unfold xadd at h
  split_ifs at h with hm
  · unfold xaddMem at h
    cases hs : s.rmwStop (s.memRef p m len) w.bytes with
    | some stop => rw [hs] at h; exact absurd h (State.rmwStop_not_next hs t)
    | none => rw [hs] at h; cases h; exact .inr ⟨hm, rfl, rfl⟩
  · cases h; exact .inl ⟨by simpa using hm, rfl⟩

theorem xadd_reg {m : ModRM} (hm : m.isMem = false) (w : Width) (p : Pfx) (len : Nat) (s : State) :
    xadd w p m len s = .next (xaddRegState w p m len s) := by
  unfold xadd; rw [hm]; rfl

theorem xadd_mem {m : ModRM} (hm : m.isMem = true) {w : Width} {p : Pfx} {len : Nat} {s : State}
    (h : s.rmwStop (s.memRef p m len) w.bytes = none) : xadd w p m len s = .next (xaddMemBody w p m len s) := by
  unfold xadd xaddMem; rw [if_pos hm, h]

theorem xadd_stop {m : ModRM} (hm : m.isMem = true) {w : Width} {p : Pfx} {len : Nat} {s : State} {r : Result}
    (h : s.rmwStop (s.memRef p m len) w.bytes = some r) : xadd w p m len s = r := by
  unfold xadd xaddMem; rw [if_pos hm, h]

/-- The next state of XCHG of two registers with a ModRM byte. -/
def xchgRegState (w : Width) (p : Pfx) (m : ModRM) (len : Nat) (s : State) : State :=
  ((s.writeReg w (m.rmNum p) p.hasRex (s.readReg w (m.regNum p) p.hasRex)).writeReg w (m.regNum p) p.hasRex
    (s.readReg w (m.rmNum p) p.hasRex)).advance len

theorem xchg_next {w : Width} {p : Pfx} {m : ModRM} {len : Nat} {s t : State} (h : xchg w p m len s = .next t) :
    (m.isMem = false ∧ t = xchgRegState w p m len s)
      ∨ (m.isMem = true ∧ s.rmwStop (s.memRef p m len) w.bytes = none ∧ t = xchgMemBody w p m len s) := by
  unfold xchg at h
  split_ifs at h with hm
  · unfold xchgMem at h
    cases hs : s.rmwStop (s.memRef p m len) w.bytes with
    | some stop => rw [hs] at h; exact absurd h (State.rmwStop_not_next hs t)
    | none => rw [hs] at h; cases h; exact .inr ⟨hm, rfl, rfl⟩
  · cases h; exact .inl ⟨by simpa using hm, rfl⟩

theorem xchg_reg {m : ModRM} (hm : m.isMem = false) (w : Width) (p : Pfx) (len : Nat) (s : State) :
    xchg w p m len s = .next (xchgRegState w p m len s) := by
  unfold xchg; rw [hm]; rfl

theorem xchg_mem {m : ModRM} (hm : m.isMem = true) {w : Width} {p : Pfx} {len : Nat} {s : State}
    (h : s.rmwStop (s.memRef p m len) w.bytes = none) : xchg w p m len s = .next (xchgMemBody w p m len s) := by
  unfold xchg xchgMem; rw [if_pos hm, h]

theorem xchg_stop {m : ModRM} (hm : m.isMem = true) {w : Width} {p : Pfx} {len : Nat} {s : State} {r : Result}
    (h : s.rmwStop (s.memRef p m len) w.bytes = some r) : xchg w p m len s = r := by
  unfold xchg xchgMem; rw [if_pos hm, h]

/-- XCHG with the accumulator always answers a next state. -/
theorem xchgAcc_next (w : Width) (p : Pfx) (r : BitVec 3) (len : Nat) (s : State) :
    xchgAcc w p r len s = .next
      ((if p.rexB = false ∧ r = 0#3 then s
        else (s.writeReg w 0#4 p.hasRex (s.readReg w (regNum p.rexB r) p.hasRex)).writeReg w (regNum p.rexB r) p.hasRex
          (s.readReg w 0#4 p.hasRex)).advance len) := by
  unfold xchgAcc
  by_cases h : p.rexB = false ∧ r = 0#3
  · rw [if_pos h, if_pos (by simp [h.1, h.2])]
  · rw [if_neg h, if_neg (by simpa using h)]

/-! A width as a constructor of `Instr`. -/

theorem exec_xaddRm (w : Width) (p : Pfx) (m : ModRM) (s : State) :
    exec (Instr.xaddRm w p m) s = xadd w p m (p.length + 2 + m.length) s := by
  cases w <;> rfl

theorem exec_xchgRm (w : Width) (p : Pfx) (m : ModRM) (s : State) :
    exec (Instr.xchgRm w p m) s = xchg w p m (p.length + 1 + m.length) s := by
  cases w <;> rfl

theorem exec_xchgAcc (o : OpSize) (p : Pfx) (r : BitVec 3) (s : State) :
    exec (Instr.xchgAcc o p r) s = xchgAcc o.width p r (p.length + 1) s := by
  cases o <;> rfl

/-! Hints. -/

theorem hintedPlain_eq (h : Hinted) (s : State) : hintedPlain h s = exec h.plain s := by
  obtain ⟨op, p, m⟩ := h
  cases op with
  | xadd w => cases w <;> rfl
  | xchg w => cases w <;> rfl

theorem onNext_next {f : State → State} {r : Result} {t : State} (h : onNext f r = .next t) :
    ∃ u, r = .next u ∧ t = f u := by
  cases r <;> cases h
  exact ⟨_, rfl, rfl⟩

/-- An XACQUIRE hint changes `hle_elided` alone. -/
theorem acquireElision_eq (a : Word) (s : State) :
    acquireElision a s = s.setElided (if s.params.cpuidHle then some a else s.hleElided) := by
  unfold acquireElision; split_ifs <;> rfl

/-- An XRELEASE hint changes `hle_elided` alone. -/
theorem releaseElision_eq (a : Word) (s : State) :
    releaseElision a s = s.setElided (if s.params.cpuidHle && s.hleElided == some a then none else s.hleElided) := by
  unfold releaseElision; split_ifs <;> rfl

/-! XABORT, XBEGIN, XEND. -/

theorem needsRtm_of {s : State} (h : s.params.cpuidRtm = true) (r : Result) : needsRtm s r = r := by
  unfold needsRtm; rw [if_pos h]

theorem needsRtm_next {s t : State} {r : Result} (h : needsRtm s r = .next t) : s.params.cpuidRtm = true ∧ r = .next t := by
  unfold needsRtm at h
  split_ifs at h with hc
  · exact ⟨hc, h⟩
  · cases h

theorem execXabort_next {p : Pfx} {imm8 : BitVec 8} {s t : State} (h : execXabort p imm8 s = .next t) :
    s.params.cpuidRtm = true ∧
      ((s.rtmActive = false ∧ t = s.advance (p.length + 3))
        ∨ (s.rtmActive = true ∧ ∃ r f, s.rtmSaved = some r ∧ s.fallback = some f
          ∧ t = s.afterDraw.aborted r f (s.abortStatusXabort imm8))) := by
  obtain ⟨hc, h⟩ := needsRtm_next h
  refine ⟨hc, ?_⟩
  split_ifs at h with ha
  · exact .inr ⟨ha, rtmAbort_next (s := s.afterDraw) h⟩
  · cases h; exact .inl ⟨by simpa using ha, rfl⟩

theorem xbegin_next {target : Word} {len : Nat} {s t : State} (h : xbegin target len s = .next t) :
    s.params.cpuidRtm = true ∧
      ((s.rtmNest = s.params.maxNest ∧ ∃ r f, s.rtmSaved = some r ∧ s.fallback = some f
          ∧ t = s.afterDraw.aborted r f s.abortStatusOther)
        ∨ (s.rtmNest ≠ s.params.maxNest ∧ s.rtmActive = true ∧ t = (s.setNest (s.rtmNest + 1)).advance len)
        ∨ (s.rtmNest ≠ s.params.maxNest ∧ s.rtmActive = false
          ∧ t = ((s.beginRegion target).setNest (s.rtmNest + 1)).advance len)) := by
  obtain ⟨hc, h⟩ := needsRtm_next h
  refine ⟨hc, ?_⟩
  split_ifs at h with hn ha
  · exact .inl ⟨hn, abortOther_next h⟩
  · cases h; exact .inr (.inl ⟨hn, ha, rfl⟩)
  · cases h; exact .inr (.inr ⟨hn, by simpa using ha, rfl⟩)

theorem commit_next {len : Nat} {s t : State} (h : commit len s = .next t) :
    (s.drain.readSetValid = true ∧ s.chosen = false ∧ t = (s.drain.afterDraw.publish.endRegion).advance len)
      ∨ ((s.drain.readSetValid = false ∨ s.chosen = true) ∧ ∃ r f, s.rtmSaved = some r ∧ s.fallback = some f
        ∧ t = s.drain.afterDraw.afterDraw.aborted r f s.afterDraw.abortStatusOther) := by
  unfold commit at h
  simp only at h
  split_ifs at h with hv
  · cases h
    simp only [Bool.and_eq_true, Bool.not_eq_true'] at hv
    exact .inl ⟨hv.1, hv.2, rfl⟩
  · refine .inr ⟨?_, abortOther_next (s := s.drain.afterDraw) h⟩
    have e : s.drain.chosen = s.chosen := rfl
    rw [e] at hv
    cases h1 : s.drain.readSetValid <;> cases h2 : s.chosen <;> simp_all

/-- The read set validates once the store buffer has drained (rule R77, decision D33). -/
theorem State.drain_readSetValid (s : State) : s.drain.readSetValid = true ↔ ∀ c ∈ s.readSet, s.ownByte c.1 = c.2 := by
  rw [State.readSetValid_iff]
  simp only [State.drain_readSet, State.drain_read]

theorem execXend_active {p : Pfx} {s : State} (hc : s.params.cpuidRtm = true) (ha : s.rtmActive = true) :
    execXend p s =
      if s.rtmNest - 1 = 0 then commit (p.length + 3) (s.setNest (s.rtmNest - 1))
      else .next ((s.setNest (s.rtmNest - 1)).advance (p.length + 3)) := by
  unfold execXend
  simp only [needsRtm_of hc, ha, if_true]
  rfl

theorem execXend_next {p : Pfx} {s t : State} (h : execXend p s = .next t) :
    s.params.cpuidRtm = true ∧ s.rtmActive = true ∧
      ((s.rtmNest - 1 = 0 ∧ commit (p.length + 3) (s.setNest (s.rtmNest - 1)) = .next t)
        ∨ (s.rtmNest - 1 ≠ 0 ∧ t = (s.setNest (s.rtmNest - 1)).advance (p.length + 3))) := by
  obtain ⟨hc, h2⟩ := needsRtm_next h
  cases ha : s.rtmActive with
  | false => rw [ha] at h2; cases h2
  | true =>
    rw [execXend_active hc ha] at h
    refine ⟨hc, rfl, ?_⟩
    split_ifs at h with hn
    · exact .inl ⟨hn, h⟩
    · cases h; exact .inr ⟨hn, rfl⟩

/-! XGETBV and XLAT. -/

theorem execXgetbv_next {p : Pfx} {s t : State} (h : execXgetbv p s = .next t) :
    s.params.osxsave = true ∧ (s.getReg 1#4).low 32 = 0
      ∧ t = ((s.afterDraw).writeEdxEax s.xcr0Value).advance (p.length + 3) := by
  unfold execXgetbv at h
  split_ifs at h with h1 h2
  · cases h; exact ⟨h1, h2, rfl⟩
  · cases h
  · cases h

theorem execXlat_next {p : Pfx} {s t : State} (h : execXlat p s = .next t) :
    s.askAdmit .read (s.xlatRef p) 1 = none
      ∧ t = ((s.afterLoad .single 1 (s.xlatRef p).addr).writeReg .w8 0#4 p.hasRex
        (s.loadValue .single 1 (s.xlatRef p).addr)).advance (p.length + 1) := by
  unfold execXlat at h
  cases ha : s.askAdmit .read (s.xlatRef p) 1 with
  | some e => simp only [ha] at h; cases h
  | none => simp only [ha] at h; cases h; exact ⟨rfl, rfl⟩

/-! The step. -/

/-- What stops a fetch is never a next state. -/
theorem State.fetch_not_next (s t : State) : s.fetch ≠ .stop (.next t) := by
  unfold State.fetch
  simp only
  split
  · simp
  · intro h
    injection h with h
    unfold State.windowStop at h
    split at h <;> cases h
  · intro h; injection h with h; cases h
  · intro h; injection h with h; cases h

theorem step_next {s t : State} (h : step s = .next t) :
    s.busHitsText = false ∧
      ((s.rtmActive = true ∧ s.land.chosen = true ∧ abortOther s.land.afterDraw = .next t)
        ∨ ∃ u, u = (if s.rtmActive then s.land.afterDraw else s.land) ∧ (s.rtmActive = true → s.land.chosen = false)
          ∧ ∃ i, u.fetch = .instr i ∧ exec i u = .next t) := by
  unfold step oneStep at h
  split_ifs at h with hb
  refine ⟨by simpa using hb, ?_⟩
  unfold boundary at h
  have hrun : ∀ u, runInstr u = .next t → ∃ i, u.fetch = .instr i ∧ exec i u = .next t := by
    intro u hu
    unfold runInstr at hu
    cases hf : u.fetch with
    | instr i => rw [hf] at hu; exact ⟨i, rfl, hu⟩
    | stop r =>
      rw [hf] at hu
      subst hu
      exact absurd hf (State.fetch_not_next _ _)
  rw [State.land_rtmActive] at h
  cases ha : s.rtmActive with
  | true =>
    simp only [ha, if_true] at h
    split_ifs at h with hc
    · exact .inl ⟨rfl, hc, h⟩
    · exact .inr ⟨_, rfl, fun _ => by simpa using hc, hrun _ h⟩
  | false =>
    simp only [ha, Bool.false_eq_true, if_false] at h
    exact .inr ⟨_, rfl, fun hx => by simp at hx, hrun _ h⟩

end Sys2Proof.Machine
end

