-- ==== Sys2Proof/Laws/PerInstr.lean ====
section
/-! SUPPORT. Statements for all instructions, one lemma per instruction. -/

namespace Sys2Proof.Laws

theorem Pfx.bytes_length (p : Pfx) : p.bytes.length = p.length := by
  obtain ⟨ls, rex⟩ := p
  cases rex <;> simp [Pfx.bytes, Pfx.length, Pfx.hasRex]

theorem Disp.bytes_length (d : Disp) : d.bytes.length = d.length := by cases d <;> rfl

theorem ModRM.bytes_length (m : ModRM) : m.bytes.length = m.length := by
  obtain ⟨mod, reg, rm, sib, disp⟩ := m
  cases sib <;> simp [ModRM.bytes, ModRM.length, Disp.bytes_length] <;> omega

theorem HintOp.opcode_length (o : HintOp) : o.opcode.length = o.opcodeLength := by
  cases o with
  | xadd w => cases w <;> rfl
  | xchg w => cases w <;> rfl

theorem bytes_append_length (p : Pfx) (op : List Byte) (m : ModRM) :
    (p.bytes ++ op ++ m.bytes).length = p.length + op.length + m.length := by
  rw [List.length_append, List.length_append, Pfx.bytes_length, ModRM.bytes_length]

/-- The length of an instruction (rule R92) is the number of bytes of its encoding. -/
def EncodeLength.Statement (i : Instr) : Prop := (encode i).length = i.length

theorem EncodeLength.xacquire (h : Hinted) : EncodeLength.Statement (.xacquire h) := by
  rw [EncodeLength.Statement, encode, bytes_append_length, HintOp.opcode_length]
  rfl

theorem EncodeLength.xrelease (h : Hinted) : EncodeLength.Statement (.xrelease h) := by
  rw [EncodeLength.Statement, encode, bytes_append_length, HintOp.opcode_length]
  rfl

theorem EncodeLength.xabort (p : Pfx) (imm8 : BitVec 8) : EncodeLength.Statement (.xabort p imm8) := by
  simp [EncodeLength.Statement, encode, Instr.length, Pfx.bytes_length]

theorem EncodeLength.xaddRm8 (p : Pfx) (m : ModRM) : EncodeLength.Statement (.xaddRm8 p m) := by
  rw [EncodeLength.Statement, encode, bytes_append_length]
  rfl

theorem EncodeLength.xaddRm16 (p : Pfx) (m : ModRM) : EncodeLength.Statement (.xaddRm16 p m) := by
  rw [EncodeLength.Statement, encode, bytes_append_length]
  rfl

theorem EncodeLength.xaddRm32 (p : Pfx) (m : ModRM) : EncodeLength.Statement (.xaddRm32 p m) := by
  rw [EncodeLength.Statement, encode, bytes_append_length]
  rfl

theorem EncodeLength.xaddRm64 (p : Pfx) (m : ModRM) : EncodeLength.Statement (.xaddRm64 p m) := by
  rw [EncodeLength.Statement, encode, bytes_append_length]
  rfl

theorem EncodeLength.xbeginRel16 (p : Pfx) (rel : BitVec 16) : EncodeLength.Statement (.xbeginRel16 p rel) := by
  simp [EncodeLength.Statement, encode, Instr.length, Pfx.bytes_length, split16]

theorem EncodeLength.xbeginRel32 (p : Pfx) (rel : BitVec 32) : EncodeLength.Statement (.xbeginRel32 p rel) := by
  simp [EncodeLength.Statement, encode, Instr.length, Pfx.bytes_length, split32]

theorem EncodeLength.xchgAcc16 (p : Pfx) (r : BitVec 3) : EncodeLength.Statement (.xchgAcc16 p r) := by
  simp [EncodeLength.Statement, encode, Instr.length, Pfx.bytes_length]

theorem EncodeLength.xchgAcc32 (p : Pfx) (r : BitVec 3) : EncodeLength.Statement (.xchgAcc32 p r) := by
  simp [EncodeLength.Statement, encode, Instr.length, Pfx.bytes_length]

theorem EncodeLength.xchgAcc64 (p : Pfx) (r : BitVec 3) : EncodeLength.Statement (.xchgAcc64 p r) := by
  simp [EncodeLength.Statement, encode, Instr.length, Pfx.bytes_length]

theorem EncodeLength.xchgRm8 (p : Pfx) (m : ModRM) : EncodeLength.Statement (.xchgRm8 p m) := by
  rw [EncodeLength.Statement, encode, bytes_append_length]
  rfl

theorem EncodeLength.xchgRm16 (p : Pfx) (m : ModRM) : EncodeLength.Statement (.xchgRm16 p m) := by
  rw [EncodeLength.Statement, encode, bytes_append_length]
  rfl

theorem EncodeLength.xchgRm32 (p : Pfx) (m : ModRM) : EncodeLength.Statement (.xchgRm32 p m) := by
  rw [EncodeLength.Statement, encode, bytes_append_length]
  rfl

theorem EncodeLength.xchgRm64 (p : Pfx) (m : ModRM) : EncodeLength.Statement (.xchgRm64 p m) := by
  rw [EncodeLength.Statement, encode, bytes_append_length]
  rfl

theorem EncodeLength.xend (p : Pfx) : EncodeLength.Statement (.xend p) := by
  simp [EncodeLength.Statement, encode, Instr.length, Pfx.bytes_length]

theorem EncodeLength.xgetbv (p : Pfx) : EncodeLength.Statement (.xgetbv p) := by
  simp [EncodeLength.Statement, encode, Instr.length, Pfx.bytes_length]

theorem EncodeLength.xlat (p : Pfx) : EncodeLength.Statement (.xlat p) := by
  simp [EncodeLength.Statement, encode, Instr.length, Pfx.bytes_length]

end Sys2Proof.Laws
end

