-- ==== Sys2Proof/Tests/Slice0.lean ====
section
/-! SUPPORT. Tests on fixed values: well-formedness, decoding of words written out from the spec's encodings, one step or one
instruction of the spec's worked examples, and for every statement with hypotheses a case that meets them. -/

namespace Sys2Proof.Tests

open Sys2Proof.Machine

/-! Helpers. -/

/-- No prefix. -/
def np : Pfx := { legacy := [], rex := none }

/-- Legacy prefixes alone. -/
def lp (ls : List Legacy) : Pfx := { legacy := ls, rex := none }

/-- A REX prefix alone. -/
def rexp (w r x b : Bool) : Pfx := { legacy := [], rex := some { w, r, x, b } }

/-- A ModRM byte with neither SIB nor displacement. -/
def modrm (mod : BitVec 2) (reg rm : BitVec 3) : ModRM := { mod, reg, rm, sib := none, disp := .none }

def c64 : CodeSize := { mode := .mode64, csD := .d32 }
def c32 : CodeSize := { mode := .modeNon64, csD := .d32 }
def c16 : CodeSize := { mode := .modeNon64, csD := .d16 }

/-- A result is a next state that passes a check. -/
def goes (r : Result) (check : State → Bool) : Bool :=
  match r with
  | .next t => check t
  | _ => false

/-- A result is this exception. -/
def faults (r : Result) (e : Exc) (code : Option (BitVec 32)) : Bool :=
  match r with
  | .fault (.exception e' c _) => e' == e && c == code
  | _ => false

/-- A result is a refusal of a store to the program text. -/
def refusesText (r : Result) : Bool :=
  match r with
  | .refused .storeToText => true
  | _ => false

/-- The state after reset. -/
abbrev s0 : State := State.reset

/-- Bytes at the pc. -/
def State.code (s : State) (bs : List Byte) : State := s.place bs s.pc

/-- Given values for the coming draws. -/
def State.given (s : State) (vs : List Word) : State := s.setDraws { given := vs, count := 0 }

/-- A region with nesting count 1 that began at reset, with the fallback address 0x2000. -/
def region : State :=
  ((((State.given s0 [0, 0]).setActive true).setNest 1).setFallback (some 0x2000)).setSaved (some s0.toSaved)

/-- The launch parameters changed. -/
def State.launch (s : State) (f : Params → Params) : State := { s with params := f s.params }

/-- The total-store-order alternative (20_memory.md rule R80). -/
def State.tso (s : State) : State := State.launch s fun p => { p with consistency := .tso }

/-- A mode and a default size. -/
def State.inMode (s : State) (c : CodeSize) : State := State.launch s fun p => { p with code := c }

/-- A rule of `Admit` that denies a kind of access everywhere with #PF. -/
def denyRule (k : AccessKind) : AdmitRule where
  kinds := [k]
  segs := [.es, .cs, .ss, .ds, .fs, .gs]
  offLo := 0
  offHi := 2 ^ 64
  addrLo := 0
  addrHi := 2 ^ 64
  nLo := 0
  nHi := 8
  answer := some { exc := .pf, code := some 4#32 }

/-- `Admit` denies a kind of access. -/
def State.deny (s : State) (k : AccessKind) : State := State.launch s fun p => { p with admitRules := [denyRule k] }

/-! Well-formedness: a term that passes, and for each check a term that fails it. -/

theorem test_wf_passes : (Instr.xaddRm32 np (modrm 3 0 1)).wf c64 = true := by decide
theorem test_wf_refuses_rex_outside_mode64 : (Instr.xaddRm8 (rexp false false false false) (modrm 3 0 1)).wf c32 = false := by decide
theorem test_wf_refuses_missing_sib : (Instr.xchgRm32 np (modrm 0 0 4)).wf c64 = false := by decide
theorem test_wf_refuses_missing_disp : (Instr.xchgRm32 np (modrm 0 0 5)).wf c64 = false := by decide
theorem test_wf_refuses_wrong_width : (Instr.xchgRm16 np (modrm 3 0 1)).wf c64 = false := by decide
theorem test_wf_refuses_rel16_at_os32 : (Instr.xbeginRel16 np 0).wf c64 = false := by decide
theorem test_wf_refuses_rel32_at_os16 : (Instr.xbeginRel32 (lp [.opSize]) 0).wf c64 = false := by decide
theorem test_wf_refuses_acc16_at_os32 : (Instr.xchgAcc16 np 1).wf c64 = false := by decide
theorem test_wf_refuses_acc32_at_os64 : (Instr.xchgAcc32 (rexp true false false false) 1).wf c64 = false := by decide
theorem test_wf_refuses_acc64_at_os32 : (Instr.xchgAcc64 np 1).wf c64 = false := by decide
theorem test_wf_refuses_lock_on_register : (Instr.xaddRm32 (lp [.lock]) (modrm 3 0 1)).wf c64 = false := by decide
theorem test_wf_refuses_unhinted_rep : (Instr.xlat (lp [.rep])).wf c64 = false := by decide
theorem test_wf_refuses_opSize_on_xend : (Instr.xend (lp [.opSize])).wf c64 = false := by decide
theorem test_wf_refuses_xacquire_of_f3 :
    (Instr.xacquire { op := .xchg .w32, p := lp [.rep], m := modrm 0 0 3 }).wf c64 = false := by decide
theorem test_wf_refuses_xrelease_of_register :
    (Instr.xrelease { op := .xchg .w32, p := lp [.rep], m := modrm 3 0 3 }).wf c64 = false := by decide
theorem test_wf_refuses_xacquire_of_unlocked_xadd :
    (Instr.xacquire { op := .xadd .w32, p := lp [.repne], m := modrm 0 0 3 }).wf c64 = false := by decide
theorem test_wf_refuses_sixteen_bytes : (Instr.xlat (lp (List.replicate 15 .ds))).wf c64 = false := by decide
theorem test_wf_passes_fifteen_bytes : (Instr.xlat (lp (List.replicate 14 .ds))).wf c64 = true := by decide

/-! Decoding: bytes of 95_test_vectors.md B1 and B2, at least one for each constructor. -/

theorem test_decode_xacquire : decode c64 [0xF3, 0xF2, 0x87, 0x03] =
    .ok (.xacquire { op := .xchg .w32, p := lp [.rep, .repne], m := modrm 0 0 3 }) := by decide
theorem test_decode_xrelease : decode c64 [0xF2, 0x66, 0xF3, 0xF0, 0x0F, 0xC1, 0x03] =
    .ok (.xrelease { op := .xadd .w16, p := lp [.repne, .opSize, .rep, .lock], m := modrm 0 0 3 }) := by decide
theorem test_decode_xabort : decode c64 [0xC6, 0xF8, 0x42] = .ok (.xabort np 0x42) := by decide
theorem test_decode_xaddRm8 : decode c64 [0x0F, 0xC0, 0x47, 0xFF] =
    .ok (.xaddRm8 np { mod := 1, reg := 0, rm := 7, sib := none, disp := .d8 0xFF }) := by decide
theorem test_decode_xaddRm16 : decode c64 [0x66, 0x0F, 0xC1, 0x03] = .ok (.xaddRm16 (lp [.opSize]) (modrm 0 0 3)) := by decide
theorem test_decode_xaddRm32 : decode c64 [0x0F, 0xC1, 0x44, 0x8B, 0x10] =
    .ok (.xaddRm32 np { mod := 1, reg := 0, rm := 4, sib := some { scale := 2, index := 1, base := 3 }, disp := .d8 0x10 }) := by
  decide
theorem test_decode_xaddRm64 : decode c64 [0x4C, 0x0F, 0xC1, 0x00] = .ok (.xaddRm64 (rexp true true false false) (modrm 0 0 0)) := by
  decide
theorem test_decode_xaddRm64_rex_wins : decode c64 [0x66, 0x48, 0x0F, 0xC1, 0xC1] =
    .ok (.xaddRm64 { legacy := [.opSize], rex := some { w := true, r := false, x := false, b := false } } (modrm 3 0 1)) := by decide
theorem test_decode_xbeginRel16 : decode c64 [0x66, 0xC7, 0xF8, 0x0A, 0x00] = .ok (.xbeginRel16 (lp [.opSize]) 10) := by decide
theorem test_decode_xbeginRel32 : decode c64 [0x48, 0xC7, 0xF8, 0xFA, 0xFF, 0xFF, 0xFF] =
    .ok (.xbeginRel32 (rexp true false false false) 0xFFFFFFFA) := by decide
theorem test_decode_xbeginRel32_cs16 : decode c16 [0x66, 0xC7, 0xF8, 0x0A, 0x00, 0x00, 0x00] =
    .ok (.xbeginRel32 (lp [.opSize]) 10) := by decide
theorem test_decode_xchgAcc16 : decode c64 [0x66, 0x91] = .ok (.xchgAcc16 (lp [.opSize]) 1) := by decide
theorem test_decode_xchgAcc32 : decode c64 [0x91] = .ok (.xchgAcc32 np 1) := by decide
theorem test_decode_xchgAcc64 : decode c64 [0x49, 0x97] = .ok (.xchgAcc64 (rexp true false false true) 7) := by decide
theorem test_decode_xchgRm8 : decode c64 [0x40, 0x86, 0xE0] = .ok (.xchgRm8 (rexp false false false false) (modrm 3 4 0)) := by decide
theorem test_decode_xchgRm16 : decode c16 [0x87, 0x06, 0x34, 0x12] =
    .ok (.xchgRm16 np { mod := 0, reg := 0, rm := 6, sib := none, disp := .d16 0x1234 }) := by decide
theorem test_decode_xchgRm32 : decode c64 [0x87, 0x05, 0x10, 0x00, 0x00, 0x00] =
    .ok (.xchgRm32 np { mod := 0, reg := 0, rm := 5, sib := none, disp := .d32 0x10 }) := by decide
theorem test_decode_xchgRm64 : decode c64 [0x48, 0x87, 0x03] = .ok (.xchgRm64 (rexp true false false false) (modrm 0 0 3)) := by decide
theorem test_decode_xend : decode c64 [0x0F, 0x01, 0xD5] = .ok (.xend np) := by decide
theorem test_decode_xgetbv : decode c64 [0x0F, 0x01, 0xD0] = .ok (.xgetbv np) := by decide
theorem test_decode_xlat : decode c64 [0x64, 0xD7] = .ok (.xlat (lp [.fs])) := by decide
theorem test_decode_refusals :
    decode c64 [0xC6, 0x00, 0x42] = .refuse .notInFragment ∧ decode c64 [0x0F, 0x01, 0xD1] = .refuse .notInFragment
      ∧ decode c32 [0x48, 0xD7] = .refuse .notInFragment ∧ decode c64 [0x48, 0x66, 0x0F, 0xC1, 0xC1] = .refuse .rexNotLast
      ∧ decode c64 [0xF3, 0xD7] = .refuse .hintUndefined ∧ decode c64 [0xF2, 0x86, 0xC1] = .refuse .hintUndefined := by decide
theorem test_decode_invalid_opcodes :
    decode c64 [0xF0, 0x91] = .ud ∧ decode c64 [0xF0, 0x87, 0xC1] = .ud ∧ decode c64 [0xF0, 0xD7] = .ud
      ∧ decode c64 [0xF2, 0xC5] = .ud ∧ decode c64 [0xF3, 0xC4] = .ud ∧ decode c64 [0x66, 0x0F, 0x01, 0xD5] = .ud := by decide

/-! Steps and instructions: the spec's worked examples. -/

/-- 40_xacquire_xrelease.md rule R157, first instruction. -/
theorem test_xacquire : goes (step (State.code ((s0.setReg 3 0x1000).setReg 0 1) [0xF2, 0x87, 0x03])) (fun t =>
    t.mem.read 0x1000 == 1 && t.getReg 0 == 0 && t.hleElided == some 0x1000 && t.pc == 0x400003) = true := by decide

/-- 40_xacquire_xrelease.md rule R157, second instruction. -/
theorem test_xrelease : goes (step (State.code (((s0.setReg 3 0x1000).setElided (some 0x1000)).place [1] 0x1000) [0xF3, 0x87, 0x03]))
    (fun t => t.mem.read 0x1000 == 0 && t.getReg 0 == 1 && t.hleElided == none) = true := by decide

/-- 95_test_vectors.md B2: CPUID_HLE = 0, the hint is ignored. -/
theorem test_xacquire_without_feature :
    goes (step (State.code (State.launch ((s0.setReg 3 0x1000).setReg 0 1) fun p => { p with cpuidHle := false }) [0xF2, 0x87, 0x03]))
      (fun t => t.mem.read 0x1000 == 1 && t.hleElided == none && t.pc == 0x400003) = true := by decide

/-- 41_xabort.md rule R171, with the draw 1 for the low 24 bits. -/
theorem test_xabort_inside : goes (step (State.code ((State.given ((region.setReg 0 5).setReg 1 9) [0, 1]).setWriteSet [(0x3000, 0xAA)])
    [0xC6, 0xF8, 0x42])) (fun t => t.getReg 0 == 0x42000001 && t.getReg 1 == 0 && t.pc == 0x2000 && t.rtmNest == 0
      && t.writeSet == [] && t.mem.read 0x3000 == 0) = true := by decide

/-- 41_xabort.md rule R171, outside a region. -/
theorem test_xabort_outside : goes (step (State.code (s0.setReg 0 5) [0xC6, 0xF8, 0x42]))
    (fun t => t.getReg 0 == 5 && t.pc == 0x400003) = true := by decide

/-- 95_test_vectors.md B4: XADD SPL, AL with a REX prefix. -/
theorem test_xaddRm8 : goes (step (State.code ((s0.setReg 4 0x10FF).setReg 0 0x0201) [0x40, 0x0F, 0xC0, 0xC4])) (fun t =>
    t.getReg 4 == 0x1000 && t.getReg 0 == 0x02FF
      && t.flags == { cf := true, pf := true, af := true, zf := true, sf := false, of := false }) = true := by decide

/-- 95_test_vectors.md B4: XADD [RBX], AX at an odd address. -/
theorem test_xaddRm16 : goes (step (State.code (((s0.setReg 3 0x1001).setReg 0 0xAAAA0001).place [0xFF, 0xFF, 0x77] 0x1001)
    [0x66, 0x0F, 0xC1, 0x03])) (fun t => t.mem.read 0x1001 == 0 && t.mem.read 0x1002 == 0 && t.mem.read 0x1003 == 0x77
      && t.getReg 0 == 0xAAAAFFFF) = true := by decide

/-- 95_test_vectors.md B4: XADD EAX, EAX ends as twice the value, zero-extended. -/
theorem test_xaddRm32_same_register : goes (step (State.code (s0.setReg 0 0xFFFFFFFF40000000) [0x0F, 0xC1, 0xC0])) (fun t =>
    t.getReg 0 == 0x80000000
      && t.flags == { cf := false, pf := true, af := false, zf := false, sf := true, of := true }) = true := by decide

/-- 95_test_vectors.md B4: XADD [RAX], EAX takes its address from the old RAX. -/
theorem test_xaddRm32_address : goes (step (State.code ((s0.setReg 0 0x1000).place [1] 0x1000) [0x0F, 0xC1, 0x00])) (fun t =>
    t.mem.read 0x1000 == 1 && t.mem.read 0x1001 == 0x10 && t.getReg 0 == 1) = true := by decide

/-- 95_test_vectors.md B4: XADD [RBX], RCX, 8 bytes, little-endian. -/
theorem test_xaddRm64 : goes (step (State.code (((s0.setReg 3 0x1000).setReg 1 1).place [0xFF, 0xFF, 0xFF, 0xFF] 0x1000)
    [0x48, 0x0F, 0xC1, 0x0B])) (fun t => t.getReg 1 == 0xFFFFFFFF && t.mem.read 0x1000 == 0 && t.mem.read 0x1004 == 1) = true := by
  decide

/-- 43_xbegin.md rule R199, second example. -/
theorem test_xbeginRel16 : goes (step (State.code (State.inMode (s0.setPc 0x1000) c32) [0x66, 0xC7, 0xF8, 0x0A, 0x00])) (fun t =>
    t.fallback == some 0x100F && t.pc == 0x1005) = true := by decide

/-- 95_test_vectors.md B8: the fallback address of a rel16 wraps at 16 bits. -/
theorem test_xbeginRel16_wraps : goes (step (State.code (State.inMode (s0.setPc 0xFFF0) c16) [0xC7, 0xF8, 0x20, 0x00])) (fun t =>
    t.fallback == some 0x0014 && t.pc == 0xFFF4) = true := by decide

/-- 43_xbegin.md rule R199, first example. -/
theorem test_xbeginRel32 : goes (step (State.code (s0.setReg 0 0xDEAD) [0xC7, 0xF8, 0x0A, 0x00, 0x00, 0x00])) (fun t =>
    t.rtmActive && t.rtmNest == 1 && t.fallback == some 0x400010 && t.getReg 0 == 0xDEAD && t.pc == 0x400006
      && t.rtmSaved == some (s0.setReg 0 0xDEAD).toSaved) = true := by decide

/-- 95_test_vectors.md B8: rel32 = -2^31 is sign-extended to 64 bits. -/
theorem test_xbeginRel32_sign : goes (step (State.code s0 [0xC7, 0xF8, 0x00, 0x00, 0x00, 0x80])) (fun t =>
    t.fallback == some 0xFFFFFFFF80400006) = true := by decide

/-- A 16-bit exchange keeps the bits above (10_state.md rule R24). -/
theorem test_xchgAcc16 : goes (step (State.code ((s0.setReg 0 0xAAAA1111).setReg 1 0xBBBB2222) [0x66, 0x91])) (fun t =>
    t.getReg 0 == 0xAAAA2222 && t.getReg 1 == 0xBBBB1111) = true := by decide

/-- 95_test_vectors.md B5: opcode 90 writes nothing. -/
theorem test_xchgAcc32_90 : goes (step (State.code (s0.setReg 0 0x1111111100000001) [0x90])) (fun t =>
    t.getReg 0 == 0x1111111100000001 && t.pc == 0x400001) = true := by decide

/-- 95_test_vectors.md P1, the instruction at 0x400009. -/
theorem test_xchgAcc32 : goes (step (State.code ((s0.setReg 0 5).setReg 1 0x2A) [0x91])) (fun t =>
    t.getReg 0 == 0x2A && t.getReg 1 == 5) = true := by decide

/-- 95_test_vectors.md B5: with REX.B = 1 opcode 90 exchanges. -/
theorem test_xchgAcc64 : goes (step (State.code ((s0.setReg 0 0x1111111100000001).setReg 8 0x3333333300000003) [0x49, 0x90])) (fun t =>
    t.getReg 0 == 0x3333333300000003 && t.getReg 8 == 0x1111111100000001) = true := by decide

/-- 95_test_vectors.md A5: XCHG AL, AH reverses AX. -/
theorem test_xchgRm8 : goes (step (State.code (s0.setReg 0 0x1234) [0x86, 0xE0])) (fun t => t.getReg 0 == 0x3412) = true := by decide

/-- 95_test_vectors.md B5: with a REX prefix, field 4 is SPL. -/
theorem test_xchgRm8_rex : goes (step (State.code ((s0.setReg 0 0x1234).setReg 4 0x10FF) [0x40, 0x86, 0xE0])) (fun t =>
    t.getReg 0 == 0x12FF && t.getReg 4 == 0x1034) = true := by decide

/-- 30_encoding.md rule R104: XCHG [0x1234], AX at a 16-bit address. -/
theorem test_xchgRm16 : goes (step (State.code ((State.inMode (s0.setReg 0 0xBEEF) c16).place [0x22, 0x11] 0x1234) [0x87, 0x06, 0x34, 0x12]))
    (fun t => t.getReg 0 == 0x1122 && t.mem.read 0x1234 == 0xEF && t.mem.read 0x1235 == 0xBE) = true := by decide

/-- 95_test_vectors.md B5: XCHG [RAX], EAX takes its address from the old RAX. -/
theorem test_xchgRm32 : goes (step (State.code ((s0.setReg 0 0x1000).place [0x78, 0x56, 0x34, 0x12] 0x1000) [0x87, 0x00])) (fun t =>
    t.getReg 0 == 0x12345678 && t.mem.read 0x1000 == 0 && t.mem.read 0x1001 == 0x10) = true := by decide

/-- 95_test_vectors.md P2: XCHG [RBX], EAX in a region works on the sets. -/
theorem test_xchgRm32_region : goes (exec (.xchgRm32 np (modrm 0 0 3))
    (((region.setReg 3 0x1000).setReg 0 1).place [0x78, 0x56, 0x34, 0x12] 0x1000)) (fun t =>
      t.getReg 0 == 0x12345678 && t.mem.read 0x1000 == 0x78
        && t.readSet == [(0x1000, 0x78), (0x1001, 0x56), (0x1002, 0x34), (0x1003, 0x12)]
        && t.writeSet == [(0x1000, 1), (0x1001, 0), (0x1002, 0), (0x1003, 0)]) = true := by decide

/-- 95_test_vectors.md B5: XCHG [RBX], RAX. -/
theorem test_xchgRm64 : goes (step (State.code (((s0.setReg 3 0x1000).setReg 0 0x0102030405060708).place
    [0x11, 0x22, 0x33, 0x44, 0x55, 0x66, 0x77, 0x88] 0x1000) [0x48, 0x87, 0x03])) (fun t =>
      t.getReg 0 == 0x8877665544332211 && t.mem.read 0x1000 == 8 && t.mem.read 0x1007 == 1) = true := by decide

/-- 45_xend.md rule R227, outcome A. -/
theorem test_xend_commits : goes (step (State.code (((region.setReg 0 7).setReadSet [(0x1000, 0)]).setWriteSet [(0x1000, 1)])
    [0x0F, 0x01, 0xD5])) (fun t => t.mem.read 0x1000 == 1 && !t.rtmActive && t.rtmNest == 0 && t.getReg 0 == 7 && t.pc == 0x400003)
      = true := by decide

/-- 45_xend.md rule R227, another processor's store to 0x1000 makes outcome B the only one. -/
theorem test_xend_fails : goes (step (State.code ((((State.given (region.setReg 0 7) [0, 0, 9]).setReadSet [(0x1000, 0)]).setWriteSet
    [(0x1000, 1)]).setBus [[(0x1000, 5)]]) [0x0F, 0x01, 0xD5])) (fun t =>
      t.mem.read 0x1000 == 5 && !t.rtmActive && t.getReg 0 == 9 && t.pc == 0x2000) = true := by decide

/-- 46_xgetbv.md rule R236. -/
theorem test_xgetbv : goes (step (State.code ((((s0.setXcr0 0x80000001000000E7).setReg 1 0xFFFFFFFF00000000).setReg 0 1).setReg 2 1)
    [0x0F, 0x01, 0xD0])) (fun t => t.getReg 0 == 0xE7 && t.getReg 2 == 0x80000001 && t.pc == 0x400003) = true := by decide

/-- 95_test_vectors.md B7: ECX = 1, and the feature check before it. -/
theorem test_xgetbv_faults :
    faults (step (State.code (s0.setReg 1 1) [0x0F, 0x01, 0xD0])) .gp (some 0) = true
      ∧ faults (step (State.code (State.launch (s0.setReg 1 1) fun p => { p with osxsave := false }) [0x0F, 0x01, 0xD0])) .ud none
        = true := by decide

/-- 47_xlat.md rule R248, second example. -/
theorem test_xlat_wraps : goes (step (State.code ((State.inMode (State.launch ((s0.setReg 3 0xFFF0).setReg 0 0x20)
    fun p => { p with segBase := { p.segBase with ds := 0x10000 } }) c16).place [0x5A] 0x10010) [0xD7])) (fun t =>
      t.getReg 0 == 0x5A && t.pc == 0x400001) = true := by decide

/-- 47_xlat.md rule R248, first example. -/
theorem test_xlat : goes (step (State.code (((s0.setReg 3 0x2000).setReg 0 0x1122334455667703).place [0x10, 0x20, 0x30, 0x40] 0x2000)
    [0x48, 0xD7])) (fun t => t.getReg 0 == 0x1122334455667740 && t.pc == 0x400002) = true := by decide

/-- 20_memory.md rule R80, the total-store-order alternative: under a draw of 0 nothing drains, so the bytes of a plain XADD wait
in the store buffer, where this processor alone sees them. -/
theorem test_tso_xadd_waits :
    goes (exec (.xaddRm16 np (modrm 0 0 3)) (State.given (State.tso ((s0.setReg 3 0x1000).setReg 0 7)) [0, 0, 0, 0])) (fun t =>
      t.mem.read 0x1000 == 0 && t.storeBuffer == [(0x1000, 7), (0x1001, 0)] && t.viewByte 0x1000 == 7) = true := by decide

/-- 20_memory.md rule R80: a locked access drains the store buffer before it begins, and leaves nothing in it. -/
theorem test_tso_xchg_drains :
    goes (exec (.xchgRm8 np (modrm 0 0 3)) ((State.tso ((s0.setReg 3 0x1000).setReg 0 7)).setBuffer [(0x1000, 5), (0x2000, 9)]))
      (fun t => t.mem.read 0x1000 == 7 && t.mem.read 0x2000 == 9 && t.storeBuffer == [] && t.getReg 0 == 5) = true := by decide

/-! Cases that meet the hypotheses of the statements, by the statement's name. -/

theorem witness_DecodeOfEncodeGivesTheInstruction :
    (Instr.xaddRm32 np { mod := 1, reg := 0, rm := 4, sib := some { scale := 2, index := 1, base := 3 }, disp := .d8 0x10 }).wf c64
      = true ∧ (Instr.xacquire { op := .xchg .w8, p := lp [.repne], m := modrm 0 0 3 }).wf c64 = true
      ∧ (Instr.xabort (lp (List.replicate 12 .ds)) 0xFF).wf c16 = true := by decide

theorem witness_DecodedBytesAreTheEncoding : decode c64 [0x0F, 0x01, 0xD5, 0x90] = .ok (.xend np) := by decide

/-- Fifteen bytes with LOCK, a register form. -/
def lockedRegister : Instr := .xchgRm32 (lp (.lock :: List.replicate 12 .ds)) (modrm 3 0 1)

/-- Fifteen bytes with LOCK, a memory form. -/
def lockedMemory : Instr := .xaddRm32 (lp (.lock :: List.replicate 11 .ds)) (modrm 0 0 3)

theorem witness_LockIsLegalOnMemoryFormsOnly_register :
    lockedRegister.isHinted = false ∧ lockedRegister.pfx.wf c64 = true ∧ lockedRegister.operandsOk c64 = true
      ∧ lockedRegister.length ≤ 15 ∧ lockedRegister.pfx.lock = true ∧ lockedRegister.isRmw = false := by decide

theorem witness_LockIsLegalOnMemoryFormsOnly_memory :
    lockedMemory.isHinted = false ∧ lockedMemory.pfx.wf c64 = true ∧ lockedMemory.operandsOk c64 = true
      ∧ lockedMemory.length ≤ 15 ∧ lockedMemory.pfx.lock = true ∧ lockedMemory.isRmw = true ∧ lockedMemory.pfx.rep = none := by
  decide

/-- XADD with LOCK under F3. -/
def hintable : Hinted := { op := .xadd .w32, p := lp [.repne, .rep, .lock], m := modrm 0 0 3 }

/-- XADD without LOCK under F2. -/
def unhintable : Hinted := { op := .xadd .w32, p := lp [.repne], m := modrm 0 0 3 }

theorem witness_HintBytesMakeHintedInstructions_hint :
    hintable.plain.isHinted = false ∧ hintable.plain.pfx.wf c64 = true ∧ hintable.plain.operandsOk c64 = true
      ∧ hintable.plain.length ≤ 15 ∧ hintable.plain.pfx.rep = some .f3 ∧ hintable.m.isMem = true ∧ hintable.p.lock = true := by
  decide

theorem witness_HintBytesMakeHintedInstructions_undefined :
    unhintable.plain.isHinted = false ∧ unhintable.plain.pfx.wf c64 = true ∧ unhintable.plain.operandsOk c64 = true
      ∧ unhintable.plain.length ≤ 15 ∧ unhintable.plain.pfx.rep = some .f2 ∧ unhintable.plain.pfx.lock = false
      ∧ (¬ ∃ p, unhintable.plain = .xend p)
      ∧ ∀ h : Hinted, unhintable.plain = h.plain → h.m.isMem = false ∨ ((∃ w, h.op = .xadd w) ∧ h.p.lock = false) := by
  refine ⟨by decide, by decide, by decide, by decide, by decide, by decide, by rintro ⟨_, ⟨⟩⟩, fun h e => ?_⟩
  have := congrArg Instr.asHinted e
  rw [Hinted.asHinted_plain, Hinted.asHinted_plain] at this
  cases this
  exact .inr ⟨⟨.w32, rfl⟩, by decide⟩

theorem witness_ClosestHintByteDecides : ∀ l ∈ [Legacy.lock, .opSize, .ds], l ≠ .repne ∧ l ≠ .rep := by decide

theorem witness_HintByteBeforeVexIsInvalidOpcode :
    (∀ n ∈ [0, 13, 14], Legacy.repne ∈ Legacy.repne :: List.replicate n Legacy.ds) ∧ (0xC5#8 = 0xC4#8 ∨ 0xC5#8 = 0xC5#8)
      ∧ decode c64 ((Legacy.repne :: List.replicate 13 Legacy.ds).map Legacy.byte ++ [0xC5]) = .ud
      ∧ decode c64 ((Legacy.repne :: List.replicate 14 Legacy.ds).map Legacy.byte ++ [0xC5]) = .refuse .tooLong := by decide

/-- Twelve prefixes, 66 and F2 among them. -/
def endPrefixes : Pfx := lp (.repne :: .opSize :: List.replicate 10 .ds)

theorem witness_OperandSizePrefixOnXendIsInvalidOpcode :
    endPrefixes.wf c64 = true ∧ endPrefixes.length + 3 ≤ 15 ∧ Legacy.opSize ∈ endPrefixes.legacy := by decide

/-- Sixteen bytes. -/
def sixteenBytes : Instr := .xlat (lp (List.replicate 15 .ds))

theorem witness_OverlongInstructionsAreRefused :
    sixteenBytes.isHinted = false ∧ sixteenBytes.pfx.wf c64 = true ∧ sixteenBytes.operandsOk c64 = true
      ∧ 15 < sixteenBytes.length := by decide

theorem witness_StepRunsTheDecodedInstruction_outside :
    (State.code s0 [0x91]).busHitsText = false ∧ (State.code s0 [0x91]).rtmActive = false
      ∧ decode c64 ((State.code s0 [0x91]).land.window maxLength (State.code s0 [0x91]).land.pc.toNat).1 = .ok (.xchgAcc32 np 1) := by
  decide

theorem witness_StepRunsTheDecodedInstruction_inside :
    (State.code region [0x91]).busHitsText = false ∧ (State.code region [0x91]).land.chosen = false
      ∧ decode c64 ((State.code region [0x91]).land.afterDraw.window maxLength
        (State.code region [0x91]).land.afterDraw.pc.toNat).1 = .ok (.xchgAcc32 np 1) := by decide

/-- XABORT 0x42 at the pc. -/
def withXabort : State := State.code s0 [0xC6, 0xF8, 0x42]

theorem witness_StepRunsTheEncodedInstructionInMemory :
    withXabort.busHitsText = false ∧ withXabort.rtmActive = false ∧ (Instr.xabort np 0x42).wf withXabort.params.code = true
      ∧ ∀ (k : Nat) (h : k < (encode (Instr.xabort np 0x42)).length),
        withXabort.pc.toNat + k < 2 ^ Mode.linearBits withXabort.mode
          ∧ withXabort.askAdmit .fetch ⟨.cs, BitVec.ofNat 64 (withXabort.pc.toNat + k), BitVec.ofNat 64 (withXabort.pc.toNat + k)⟩ 1 = none
          ∧ withXabort.land.viewByte (withXabort.phys (BitVec.ofNat 64 (withXabort.pc.toNat + k)))
            = (encode (Instr.xabort np 0x42))[k] := by decide

/-- Every fetch denied, the pc at the top of the address space. -/
def deniedFetch : State := (State.deny s0 .fetch).setPc 0xFFFFFFFFFFFFFFFF

theorem witness_DeniedFetchFaults :
    deniedFetch.busHitsText = false ∧ deniedFetch.rtmActive = false ∧ deniedFetch.pc.toNat < 2 ^ Mode.linearBits deniedFetch.mode
      ∧ deniedFetch.askAdmit .fetch { seg := .cs, off := deniedFetch.pc, addr := deniedFetch.pc } 1
        = some { exc := .pf, code := some 4 } := by decide

theorem s0_inv : s0.Inv where
  region := ⟨by decide, by decide, by decide, fun h => absurd h (by decide), fun h => absurd h (by decide)⟩
  memory := ⟨by decide, by decide, by decide, by decide, fun c h => absurd h (List.not_mem_nil)⟩
  buffer := ⟨fun _ => rfl, fun c h => absurd h (List.not_mem_nil)⟩
  pc_fits := by show _ = _; decide

theorem region_inv : region.Inv where
  region := ⟨by decide, by decide, by decide, fun _ => ⟨s0.toSaved, rfl, rfl⟩, fun _ => ⟨0x2000, rfl, by show _ = _; decide⟩⟩
  memory := ⟨by decide, by decide, by decide, by decide, fun c h => absurd h (List.not_mem_nil)⟩
  buffer := ⟨fun _ => rfl, fun c h => absurd h (List.not_mem_nil)⟩
  pc_fits := by show _ = _; decide

/-- XCHG [RBX], EAX at the pc of a region. -/
def regionCode : State := State.code region [0x87, 0x03]

theorem regionCode_inv : regionCode.Inv where
  region := ⟨by decide, by decide, by decide, fun _ => ⟨s0.toSaved, rfl, rfl⟩, fun _ => ⟨0x2000, rfl, by show _ = _; decide⟩⟩
  memory := ⟨by decide, by decide, by decide, by decide, fun c h => absurd h (List.not_mem_nil)⟩
  buffer := ⟨fun _ => rfl, fun c h => absurd h (List.not_mem_nil)⟩
  pc_fits := by show _ = _; decide

theorem witness_EveryStepKeepsTheInvariant : regionCode.Inv ∧ goes (step regionCode) (fun t => t.writeSet.length == 4) = true :=
  ⟨regionCode_inv, by decide⟩

theorem witness_StepKeepsParametersAndXcr0 : regionCode.Inv ∧ goes (step regionCode) (fun _ => true) = true :=
  ⟨regionCode_inv, by decide⟩

theorem witness_NoAbortWithoutRecord : region.Inv := region_inv

theorem witness_OnlyAbortsTransferControl :
    region.Inv ∧ goes (exec (.xlat np) region) (fun t => t.pc == 0x400001) = true
      ∧ goes (exec (.xabort np 0) region) (fun t => t.pc == 0x2000) = true := ⟨region_inv, by decide, by decide⟩

theorem witness_OnlyXaddAndAbortsWriteFlags :
    region.Inv ∧ s0.Inv ∧ (Instr.xabort np 0).addsFlags = false ∧ goes (exec (.xabort np 0) region) (fun t => !t.rtmActive) = true
      ∧ goes (exec (.xabort np 0) s0) (fun _ => true) = true := ⟨region_inv, s0_inv, by decide, by decide, by decide⟩

/-- No RTM, no XGETBV. -/
def featureless : State := State.launch s0 fun p => { p with cpuidRtm := false, osxsave := false }

theorem witness_ExceptionsAreThoseOfTheTable :
    faults (exec (.xend np) featureless) .ud none = true ∧ faults (exec (.xgetbv np) featureless) .ud none = true
      ∧ faults (exec (.xend np) s0) .gp (some 0) = true ∧ faults (exec (.xgetbv np) (s0.setReg 1 1)) .gp (some 0) = true
      ∧ faults (exec (.xchgRm8 np (modrm 0 0 3)) (State.deny s0 .rmw)) .pf (some 4) = true
      ∧ faults (exec (.xlat np) (State.deny s0 .read)) .pf (some 4) = true := by decide

/-- The bytes at 0 to 3 are program text. -/
def textAtZero : State := State.launch s0 fun p => { p with text := [{ lo := 0, hi := 3 }] }

theorem witness_OnlyStoresToTextAreRefused : refusesText (exec (.xchgRm8 np (modrm 0 0 3)) (textAtZero.setReg 3 3)) = true := by decide

theorem witness_FlagsOfAnAddition :
    (0xFF#64).toNat < 2 ^ Width.w8.bits ∧ (0xFFFFFFFFFFFFFFFF#64).toNat < 2 ^ Width.w64.bits := by decide

theorem witness_SixteenBitAddresses :
    (State.inMode s0 c16).params.code.addrSize np = .a16 ∧ (modrm 0 0 6).isMem = true := by decide

theorem witness_AddressesWithoutSib :
    s0.params.code.addrSize np ≠ .a16 ∧ (modrm 0 0 5).isMem = true ∧ (modrm 0 0 5).sib = none := by decide

/-- A ModRM byte with a SIB byte: no index, base RSP. -/
def sibModrm : ModRM := { mod := 0, reg := 0, rm := 4, sib := some { scale := 0, index := 4, base := 4 }, disp := .none }

theorem witness_AddressesWithSib :
    s0.params.code.addrSize np ≠ .a16 ∧ sibModrm.isMem = true ∧ sibModrm.sib = some { scale := 0, index := 4, base := 4 } := by decide

theorem witness_BytesOfAnAccessAreDistinct : s0.params.translate = [] ∧ 8 ≤ 8 ∧ s0.wrap 0xFFFFFFFFFFFFFFFF = 0xFFFFFFFFFFFFFFFF := by
  decide

/-- Two bytes in the store buffer of the total-store-order alternative. -/
def buffered : State := (State.tso s0).setBuffer [(0x1000, 5), (0x1000, 6)]

theorem witness_LoadsSeeTheStoredBytes :
    8 ≤ 8 ∧ buffered.bus = [] ∧ (buffered.byteAddrs 8 0xFFFFFFFFFFFFFFFF).Nodup
      ∧ (region.setBus [[(0, 1)]]).bus ≠ [] ∧ ((region.setBus [[(0, 1)]]).byteAddrs 8 0xFFFFFFFFFFFFFFFF).Nodup := by decide

theorem witness_StoreBufferDrainsInOrder :
    buffered.bus = [] ∧ buffered.storeBuffer.length < 2 ^ 64 ∧ (State.given buffered [1]).land.storeBuffer = [(0x1000, 6)] := by decide

theorem witness_LandingKeepsOwnView : buffered.rtmActive = false ∧ buffered.viewByte 0x1000 = 6 := by decide

theorem witness_register_forms : (modrm 3 7 0).isMem = false := by decide

/-- XADD and XCHG [RBX], 8 bytes: outside a region, and inside one with a store of another processor pending. -/
theorem witness_memory_forms :
    (modrm 0 0 3).isMem = true ∧ (lp [.lock]).lock = true ∧ s0.bus = []
      ∧ s0.askAdmit .rmw (s0.memRef (lp [.lock]) (modrm 0 0 3) 4) 8 = none
      ∧ s0.storeHitsText 8 (s0.memRef (lp [.lock]) (modrm 0 0 3) 4).addr = false
      ∧ (s0.byteAddrs 8 (s0.memRef (lp [.lock]) (modrm 0 0 3) 4).addr).Nodup
      ∧ (region.setBus [[(0, 1)]]).askAdmit .rmw (region.memRef (lp [.lock]) (modrm 0 0 3) 4) 8 = none
      ∧ (region.setBus [[(0, 1)]]).storeHitsText 8 (region.memRef (lp [.lock]) (modrm 0 0 3) 4).addr = false
      ∧ ((region.setBus [[(0, 1)]]).byteAddrs 8 (region.memRef (lp [.lock]) (modrm 0 0 3) 4).addr).Nodup := by decide

/-- XADD [RBX], 4 bytes, without LOCK, the store buffer not empty. -/
theorem witness_XaddMemoryForm_buffered :
    np.lock = false ∧ buffered.bus = [] ∧ buffered.askAdmit .rmw (buffered.memRef np (modrm 0 0 3) 3) 4 = none
      ∧ buffered.storeHitsText 4 (buffered.memRef np (modrm 0 0 3) 3).addr = false
      ∧ (buffered.byteAddrs 4 (buffered.memRef np (modrm 0 0 3) 3).addr).Nodup := by decide

/-- Stores of other processors pending: one before each read of a 2-byte XADD at 0, one between its reads and its writes. -/
def busy : State := s0.setBus [[(0, 1)], [(1, 2)], [(0, 9)]]

/-- The statement's hypotheses, and the lost update of 42_xadd.md rule R183. -/
theorem witness_UnlockedXaddIsInterleaved :
    (modrm 0 0 3).isMem = true ∧ np.lock = false ∧ busy.askAdmit .rmw (busy.memRef np (modrm 0 0 3) 3) 2 = none
      ∧ busy.storeHitsText 2 (busy.memRef np (modrm 0 0 3) 3).addr = false
      ∧ (busy.byteAddrs 2 (busy.memRef np (modrm 0 0 3) 3).addr).Nodup
      ∧ goes (exec (.xaddRm16 np (modrm 0 0 3)) busy) (fun t => t.mem.read 0 == 1 && t.mem.read 1 == 2 && t.getReg 0 == 0x201)
        = true := by decide

theorem witness_UnlockedXaddIsInterleaved_region :
    (region.setBus busy.bus).askAdmit .rmw ((region.setBus busy.bus).memRef np (modrm 0 0 3) 3) 2 = none
      ∧ (region.setBus busy.bus).storeHitsText 2 ((region.setBus busy.bus).memRef np (modrm 0 0 3) 3).addr = false
      ∧ ((region.setBus busy.bus).byteAddrs 2 ((region.setBus busy.bus).memRef np (modrm 0 0 3) 3).addr).Nodup := by decide

theorem witness_XchgWritesNoFlag :
    goes (exec (Instr.xchgRm .w32 np (modrm 0 0 3)) s0) (fun _ => true) = true
      ∧ goes (exec (Instr.xchgAcc .o32 np 1) s0) (fun _ => true) = true := by decide

theorem witness_DeniedReadModifyWriteStops_denied :
    hintable.m.isMem = true
      ∧ (State.deny s0 .rmw).askAdmit .rmw ((State.deny s0 .rmw).memRef hintable.p hintable.m hintable.plain.length) 4
        = some { exc := .pf, code := some 4 } := by decide

theorem witness_DeniedReadModifyWriteStops_text :
    hintable.m.isMem = true ∧ textAtZero.askAdmit .rmw (textAtZero.memRef hintable.p hintable.m hintable.plain.length) 4 = none
      ∧ textAtZero.storeHitsText 4 (textAtZero.memRef hintable.p hintable.m hintable.plain.length).addr = true := by decide

theorem witness_XacquireRunsItsInstruction :
    hintable.m.isMem = true ∧ s0.askAdmit .rmw (s0.memRef hintable.p hintable.m hintable.plain.length) 4 = none
      ∧ s0.storeHitsText 4 (s0.memRef hintable.p hintable.m hintable.plain.length).addr = false := by decide

theorem witness_XreleaseRunsItsInstruction :
    hintable.m.isMem = true ∧ s0.askAdmit .rmw (s0.memRef hintable.p hintable.m hintable.plain.length) 4 = none
      ∧ s0.storeHitsText 4 (s0.memRef hintable.p hintable.m hintable.plain.length).addr = false
      ∧ (s0.setElided (some 0)).hleElided = some (s0.memRef hintable.p hintable.m hintable.plain.length).addr := by decide

theorem witness_XabortOutsideARegionIsANop : s0.params.cpuidRtm = true ∧ s0.rtmActive = false := by decide

theorem witness_XabortInsideARegionAborts :
    region.params.cpuidRtm = true ∧ region.rtmActive = true ∧ region.rtmSaved = some s0.toSaved ∧ region.fallback = some 0x2000 := by
  decide

theorem witness_XabortRestoresTheFlagsOfXbegin :
    goes (exec (.xabort np 0) region) (fun _ => true) = true ∧ goes (exec (.xabort np 0) s0) (fun _ => true) = true
      ∧ goes (step (State.code s0 [0xC7, 0xF8, 0, 0, 0, 0])) (·.rtmActive) = true
      ∧ goes (step (State.code region [0xC7, 0xF8, 0, 0, 0, 0])) (·.rtmActive) = true := by decide

theorem witness_RtmInstructionsNeedTheFeature :
    (Instr.xbeginRel16 np 0).isRtm = true ∧ (Instr.xabort np 0).isRtm = true ∧ (Instr.xend np).isRtm = true
      ∧ featureless.params.cpuidRtm = false := by decide

theorem witness_OutermostXbeginOpensARegion :
    s0.params.cpuidRtm = true ∧ s0.rtmActive = false ∧ s0.rtmNest ≠ s0.params.maxNest := by decide

theorem witness_NestedXbeginCountsOrAborts_counts :
    region.params.cpuidRtm = true ∧ region.rtmActive = true ∧ (region.setNest 6).rtmNest ≠ (region.setNest 6).params.maxNest := by decide

theorem witness_NestedXbeginCountsOrAborts_aborts :
    (region.setNest 7).params.cpuidRtm = true ∧ (region.setNest 7).rtmActive = true
      ∧ (region.setNest 7).rtmNest = (region.setNest 7).params.maxNest ∧ (region.setNest 7).rtmSaved = some s0.toSaved
      ∧ (region.setNest 7).fallback = some 0x2000 := by decide

theorem witness_XendOutsideARegionFaults : s0.params.cpuidRtm = true ∧ s0.rtmActive = false := by decide

theorem witness_InnerXendCountsDown :
    (region.setNest 2).params.cpuidRtm = true ∧ (region.setNest 2).rtmActive = true ∧ 2 ≤ (region.setNest 2).rtmNest := by decide

/-- A region with one byte read and one byte written. -/
def endingRegion : State := (region.setReadSet [(0x1000, 0)]).setWriteSet [(0x1000, 1)]

theorem witness_OutermostXendCommits :
    endingRegion.params.cpuidRtm = true ∧ endingRegion.rtmActive = true ∧ endingRegion.rtmNest = 1
      ∧ Cells.rising endingRegion.writeSet
      ∧ (∀ c ∈ endingRegion.readSet, (Cells.newest endingRegion.storeBuffer c.1).getD (endingRegion.mem.read c.1) = c.2)
      ∧ endingRegion.chosen = false := by decide

/-- The byte read had been taken from the store buffer. -/
theorem witness_OutermostXendCommits_buffered :
    Cells.rising endingRegion.writeSet
      ∧ (∀ c ∈ ((endingRegion.setBuffer [(0x1000, 5)]).setReadSet [(0x1000, 5)]).readSet,
        (Cells.newest [((0x1000 : Nat), (5 : Byte))] c.1).getD (endingRegion.mem.read c.1) = c.2) := by decide

theorem witness_OutermostXendMayFail_conflict :
    endingRegion.rtmNest = 1 ∧ endingRegion.rtmSaved = some s0.toSaved ∧ endingRegion.fallback = some 0x2000
      ∧ ∃ c ∈ endingRegion.readSet,
        (Cells.newest (endingRegion.setBuffer [(0x1000, 5)]).storeBuffer c.1).getD (endingRegion.mem.read c.1) ≠ c.2 := by decide

theorem witness_OutermostXendMayFail_chosen : (State.given endingRegion [1]).chosen = true := by decide

theorem witness_RegionMayAbortAtEveryBoundary :
    region.rtmActive = true ∧ region.rtmSaved = some s0.toSaved ∧ region.fallback = some 0x2000 ∧ region.busHitsText = false := by
  decide

theorem witness_TransactionalReadsAreNoted :
    endingRegion.rtmActive = true ∧ endingRegion.bus = [] ∧ (endingRegion.setBuffer [(0x1001, 5)]).viewByte 0x1001 = 5 := by decide

theorem witness_TransactionalWritesAreBuffered :
    endingRegion.rtmActive = true ∧ (endingRegion.byteAddrs 8 0xFFFFFFFFFFFFFFFF).Nodup := by decide

theorem witness_RegionLeavesSharedMemory :
    region.rtmActive = true ∧ goes (exec (.xchgRm32 np (modrm 0 0 3)) (region.setReg 0 1)) (fun t => t.writeSet.length == 4) = true
      ∧ 2 ≤ (region.setNest 2).rtmNest ∧ goes (exec (.xend np) (region.setNest 2)) (fun _ => true) = true := by decide

/-- XCR0 with three implemented bits. -/
def narrowXcr0 : State := State.launch s0 fun p => { p with xcr0ImplMask := 7 }

theorem witness_XgetbvReadsXcr0 :
    narrowXcr0.params.osxsave = true ∧ ((narrowXcr0.setReg 1 0xFFFFFFFF00000000).getReg 1).toNat % 2 ^ 32 = 0
      ∧ narrowXcr0.params.xcr0ImplMask.getLsbD 2 = true ∧ narrowXcr0.params.xcr0ImplMask.getLsbD 3 = false
      ∧ narrowXcr0.params.xcr0ImplMask.getLsbD 63 = false ∧ s0.params.xcr0ImplMask.getLsbD 63 = true
      ∧ ((s0.setReg 1 0xFFFFFFFF).getReg 1).toNat % 2 ^ 32 ≠ 0 := by decide

theorem witness_XgetbvWritesNoFlag : goes (exec (.xgetbv np) narrowXcr0) (fun _ => true) = true := by decide

theorem witness_XgetbvNeedsTheFeature : featureless.params.osxsave = false := by decide

/-- The table entry at the top of the address space wraps to address 1 (95_test_vectors.md B6). -/
theorem witness_XlatReadsTheTable :
    s0.askAdmit .read { seg := .ds, off := BitVec.ofNat 64 ((2 ^ 64 - 1 + 2) % 2 ^ 64), addr := 1 } 1 = none := by decide

theorem witness_DeniedXlatFaults :
    (State.deny s0 .read).askAdmit .read ((State.deny s0 .read).xlatRef np) 1 = some { exc := .pf, code := some 4 } := by decide

end Sys2Proof.Tests
end

