-- ==== Sys2Proof/Proofs/HintBytes.lean ====
section
/-! Which prefix decides where several of one group stand before an opcode (rules R93, R146). -/

namespace Sys2Proof

section LastOf

variable {α : Type} {f : Legacy → Option α}

/-- The later part of a prefix list answers before the earlier one. -/
theorem lastOf_append (ls ms : List Legacy) : lastOf f (ls ++ ms) = (lastOf f ms).orElse fun _ => lastOf f ls := by
  induction ls with
  | nil => simp [lastOf]
  | cons l ls ih => simp [lastOf, ih, Option.or_assoc]

theorem lastOf_eq_none {ls : List Legacy} (h : ∀ l ∈ ls, f l = none) : lastOf f ls = none := by
  induction ls with
  | nil => rfl
  | cons l ls ih =>
    obtain ⟨hl, hls⟩ := List.forall_mem_cons.mp h
    simp [lastOf, hl, ih hls]

/-- A prefix that answers, with none that answers behind it, decides, whatever stands before it. -/
theorem lastOf_append_cons {l : Legacy} {a : α} (hl : f l = some a) (before : List Legacy) {after : List Legacy}
    (h : ∀ m ∈ after, f m = none) : lastOf f (before ++ l :: after) = some a := by
  simp [lastOf_append, lastOf, lastOf_eq_none h, hl]

end LastOf

/-- F2 and F3 are the only hint bytes (rule R141). -/
theorem Legacy.hint_eq_none {l : Legacy} (h : l ≠ .repne ∧ l ≠ .rep) : l.hint = none := by
  obtain ⟨hf2, hf3⟩ := h
  cases l with
  | repne => exact absurd rfl hf2
  | rep => exact absurd rfl hf3
  | _ => rfl

/-- The last hint byte among the prefixes is `rep`. -/
theorem Pfx.rep_of_last_hint {l : Legacy} {b : HintByte} (hl : l.hint = some b) (before : List Legacy) {after : List Legacy}
    (rex : Option Rex) (h : ∀ m ∈ after, m.hint = none) :
    ({ legacy := before ++ l :: after, rex := rex } : Pfx).rep = some b :=
  lastOf_append_cons hl before h

/-- Settles O6: no prefix behind the deciding byte is a hint byte. -/
theorem closestHintByteDecides : Obligations.ClosestHintByteDecides := by
  intro before after rex hafter
  have noHint : ∀ l ∈ after, l.hint = none := fun l hl => Legacy.hint_eq_none (hafter l hl)
  exact ⟨Pfx.rep_of_last_hint rfl before rex noHint, Pfx.rep_of_last_hint rfl before rex noHint⟩

end Sys2Proof
end

section
/-! Where the flags that XABORT restores come from (rules R45, R163, R164, R168): only the instructions of RTM touch the region, and
no step touches the saved state of a region that stays open. -/

namespace Sys2Proof.Machine

/-! Updates of registers, flags, the elided address and the pc leave the region. -/

theorem State.writeReg_sameRegion (s : State) (w : Width) (n : RegNum) (rex : Bool) (v : Word) :
    s.SameRegion (s.writeReg w n rex v) := ⟨rfl, rfl, rfl, rfl⟩

theorem State.setFlags_sameRegion (s : State) (f : Flags) : s.SameRegion (s.setFlags f) := ⟨rfl, rfl, rfl, rfl⟩

theorem State.setElided_sameRegion (s : State) (e : Option Word) : s.SameRegion (s.setElided e) := ⟨rfl, rfl, rfl, rfl⟩

theorem State.writeEdxEax_sameRegion (s : State) (v : Word) : s.SameRegion (s.writeEdxEax v) := ⟨rfl, rfl, rfl, rfl⟩

theorem State.advance_sameRegion (s : State) (len : Nat) : s.SameRegion (s.advance len) := ⟨rfl, rfl, rfl, rfl⟩

theorem State.afterDraw_sameButMemory (s : State) : s.SameButMemory s.afterDraw :=
  ⟨rfl, rfl, rfl, rfl, ⟨rfl, rfl, rfl, rfl⟩, rfl, rfl⟩

/-! The instructions outside RTM leave the region. -/

theorem xadd_sameRegion {w : Width} {p : Pfx} {m : ModRM} {len : Nat} {s t : State} (h : xadd w p m len s = .next t) :
    s.SameRegion t := by
  rcases xadd_next h with ⟨-, rfl⟩ | ⟨-, -, rfl⟩
  · exact (s.writeReg_sameRegion ..).trans <| (State.writeReg_sameRegion ..).trans <|
      (State.setFlags_sameRegion ..).trans (State.advance_sameRegion ..)
  · exact (s.afterLoad_sameButMemory ..).region.trans <| (State.writeReg_sameRegion ..).trans <|
      (State.store_sameButMemory ..).region.trans <| (State.setFlags_sameRegion ..).trans (State.advance_sameRegion ..)

theorem xchg_sameRegion {w : Width} {p : Pfx} {m : ModRM} {len : Nat} {s t : State} (h : xchg w p m len s = .next t) :
    s.SameRegion t := by
  rcases xchg_next h with ⟨-, rfl⟩ | ⟨-, -, rfl⟩
  · exact (s.writeReg_sameRegion ..).trans <| (State.writeReg_sameRegion ..).trans (State.advance_sameRegion ..)
  · exact (s.afterLoad_sameButMemory ..).region.trans <| (State.store_sameButMemory ..).region.trans <|
      (State.writeReg_sameRegion ..).trans (State.advance_sameRegion ..)

theorem xchgAcc_sameRegion {w : Width} {p : Pfx} {r : BitVec 3} {len : Nat} {s t : State}
    (h : xchgAcc w p r len s = .next t) : s.SameRegion t := by
  rw [xchgAcc_next] at h
  cases h
  split_ifs
  · exact s.advance_sameRegion len
  · exact (s.writeReg_sameRegion ..).trans <| (State.writeReg_sameRegion ..).trans (State.advance_sameRegion ..)

theorem hintedPlain_sameRegion {h : Hinted} {s t : State} (hx : hintedPlain h s = .next t) : s.SameRegion t := by
  obtain ⟨op, p, m⟩ := h
  cases op with
  | xadd w => exact xadd_sameRegion hx
  | xchg w => exact xchg_sameRegion hx

theorem execXacquire_sameRegion {h : Hinted} {s t : State} (hx : execXacquire h s = .next t) : s.SameRegion t := by
  obtain ⟨u, hu, rfl⟩ := onNext_next hx
  rw [acquireElision_eq]
  exact (hintedPlain_sameRegion hu).trans (u.setElided_sameRegion _)

theorem execXrelease_sameRegion {h : Hinted} {s t : State} (hx : execXrelease h s = .next t) : s.SameRegion t := by
  obtain ⟨u, hu, rfl⟩ := onNext_next hx
  rw [releaseElision_eq]
  exact (hintedPlain_sameRegion hu).trans (u.setElided_sameRegion _)

theorem execXgetbv_sameRegion {p : Pfx} {s t : State} (h : execXgetbv p s = .next t) : s.SameRegion t := by
  obtain ⟨-, -, rfl⟩ := execXgetbv_next h
  exact s.afterDraw_sameButMemory.region.trans <| (State.writeEdxEax_sameRegion ..).trans (State.advance_sameRegion ..)

theorem execXlat_sameRegion {p : Pfx} {s t : State} (h : execXlat p s = .next t) : s.SameRegion t := by
  obtain ⟨-, rfl⟩ := execXlat_next h
  exact (s.afterLoad_sameButMemory ..).region.trans <| (State.writeReg_sameRegion ..).trans (State.advance_sameRegion ..)

/-- Only the instructions of RTM open, count or close a region (rules R42 to R45). -/
theorem exec_sameRegion {i : Instr} {s t : State} (hi : i.isRtm = false) (h : exec i s = .next t) : s.SameRegion t := by
  cases i with
  | xacquire _ => exact execXacquire_sameRegion h
  | xrelease _ => exact execXrelease_sameRegion h
  | xaddRm8 _ _ | xaddRm16 _ _ | xaddRm32 _ _ | xaddRm64 _ _ => exact xadd_sameRegion h
  | xchgAcc16 _ _ | xchgAcc32 _ _ | xchgAcc64 _ _ => exact xchgAcc_sameRegion h
  | xchgRm8 _ _ | xchgRm16 _ _ | xchgRm32 _ _ | xchgRm64 _ _ => exact xchg_sameRegion h
  | xgetbv _ => exact execXgetbv_sameRegion h
  | xlat _ => exact execXlat_sameRegion h
  | xabort _ _ | xbeginRel16 _ _ | xbeginRel32 _ _ | xend _ => simp [Instr.isRtm] at hi

/-! The saved state of an open region (rule R45). -/

/-- If `t` is in a region, its saved state is that of `s` where the region was open there already, and otherwise holds the flags of
`s`. -/
def State.KeepsSavedFlags (s t : State) : Prop :=
  t.rtmActive = true → if s.rtmActive = true then t.rtmSaved = s.rtmSaved else ∃ r, t.rtmSaved = some r ∧ r.flags = s.flags

theorem State.KeepsSavedFlags.of_closed {s t : State} (h : t.rtmActive = false) : s.KeepsSavedFlags t := by
  intro ht
  simp [h] at ht

theorem State.KeepsSavedFlags.of_open {s t : State} (hs : s.rtmActive = true) (h : t.rtmSaved = s.rtmSaved) :
    s.KeepsSavedFlags t := by
  intro _
  rwa [if_pos hs]

theorem State.KeepsSavedFlags.of_opened {s t : State} {r : Saved} (hs : s.rtmActive = false) (h : t.rtmSaved = some r)
    (hf : r.flags = s.flags) : s.KeepsSavedFlags t := by
  intro _
  rw [if_neg (by simp [hs])]
  exact ⟨r, h, hf⟩

theorem State.SameRegion.keepsSavedFlags {s t : State} (h : s.SameRegion t) : s.KeepsSavedFlags t := by
  cases hs : s.rtmActive with
  | true => exact .of_open hs h.saved
  | false => exact .of_closed (h.active.trans hs)

/-- What only moves memory before a step changes nothing of what the step keeps. -/
theorem State.SameButMemory.keepsSavedFlags_trans {s u t : State} (h : s.SameButMemory u) (k : u.KeepsSavedFlags t) :
    s.KeepsSavedFlags t := by
  unfold State.KeepsSavedFlags at k
  rwa [h.region.active, h.region.saved, h.flags] at k

theorem abortOther_rtmActive {s t : State} (h : abortOther s = .next t) : t.rtmActive = false := by
  obtain ⟨r, f, -, -, rfl⟩ := abortOther_next h
  exact State.aborted_rtmActive ..

theorem commit_rtmActive {len : Nat} {s t : State} (h : commit len s = .next t) : t.rtmActive = false := by
  rcases commit_next h with ⟨-, -, rfl⟩ | ⟨-, r, f, -, -, rfl⟩
  · rfl
  · exact State.aborted_rtmActive ..

theorem execXabort_rtmActive {p : Pfx} {imm8 : BitVec 8} {s t : State} (h : execXabort p imm8 s = .next t) :
    t.rtmActive = false := by
  obtain ⟨-, ⟨hs, rfl⟩ | ⟨-, r, f, -, -, rfl⟩⟩ := execXabort_next h
  · exact hs
  · exact State.aborted_rtmActive ..

/-- The outermost XBEGIN saves the flags it finds; a nested one leaves what is saved (rule R194). -/
theorem xbegin_keepsSavedFlags {target : Word} {len : Nat} {s t : State} (h : xbegin target len s = .next t) :
    s.KeepsSavedFlags t := by
  obtain ⟨-, ⟨-, r, f, -, -, rfl⟩ | ⟨-, hs, rfl⟩ | ⟨-, hs, rfl⟩⟩ := xbegin_next h
  case inl => exact .of_closed (State.aborted_rtmActive ..)
  case inr.inl => exact .of_open hs rfl
  case inr.inr => exact .of_opened hs (s.beginRegion_rtmSaved target) rfl

/-- An inner XEND leaves what is saved; the outermost one closes the region, whether it commits or aborts (rule R222). -/
theorem execXend_keepsSavedFlags {p : Pfx} {s t : State} (h : execXend p s = .next t) : s.KeepsSavedFlags t := by
  obtain ⟨-, hs, ⟨-, hcommit⟩ | ⟨-, rfl⟩⟩ := execXend_next h
  · exact .of_closed (commit_rtmActive hcommit)
  · exact .of_open hs rfl

theorem exec_keepsSavedFlags {i : Instr} {s t : State} (h : exec i s = .next t) : s.KeepsSavedFlags t := by
  cases hi : i.isRtm with
  | false => exact (exec_sameRegion hi h).keepsSavedFlags
  | true =>
    cases i with
    | xabort _ _ => exact .of_closed (execXabort_rtmActive h)
    | xbeginRel16 _ _ | xbeginRel32 _ _ => exact xbegin_keepsSavedFlags h
    | xend _ => exact execXend_keepsSavedFlags h
    | _ => simp [Instr.isRtm] at hi

/-- The state in which a step fetches its instruction differs from the one it began in by what landed and, inside a region, by the
draw that decides a spontaneous abort (rules R166, R264). -/
theorem State.fetchState_sameButMemory (s : State) :
    s.SameButMemory (if s.rtmActive then s.land.afterDraw else s.land) := by
  split_ifs
  · exact s.land_sameButMemory.trans s.land.afterDraw_sameButMemory
  · exact s.land_sameButMemory

theorem step_keepsSavedFlags {s t : State} (h : step s = .next t) : s.KeepsSavedFlags t := by
  obtain ⟨-, ⟨-, -, habort⟩ | ⟨u, rfl, -, i, -, hexec⟩⟩ := step_next h
  · exact .of_closed (abortOther_rtmActive habort)
  · exact s.fetchState_sameButMemory.keepsSavedFlags_trans (exec_keepsSavedFlags hexec)

/-! XABORT. -/

theorem execXabort_flags {p : Pfx} {imm8 : BitVec 8} {s t : State} (h : execXabort p imm8 s = .next t) :
    (s.rtmActive = false → t.flags = s.flags) ∧ (s.rtmActive = true → ∃ r, s.rtmSaved = some r ∧ t.flags = r.flags) := by
  obtain ⟨-, ⟨hs, rfl⟩ | ⟨hs, r, f, hr, -, rfl⟩⟩ := execXabort_next h
  · exact ⟨fun _ => rfl, fun ha => by simp [hs] at ha⟩
  · exact ⟨fun ha => by simp [hs] at ha, fun _ => ⟨r, hr, State.aborted_flags ..⟩⟩

/-- Settles O44: an abort restores the saved flags, and every step, whatever it executes, keeps the saved state of an open region or
fills it with the flags it found. -/
theorem xabortRestoresTheFlagsOfXbegin : Obligations.XabortRestoresTheFlagsOfXbegin :=
  ⟨fun _ _ _ _ h => execXabort_flags h, fun _ _ h => step_keepsSavedFlags h⟩

end Sys2Proof.Machine
end

section
/-! The decoder and the encoder are inverse (rules R90 to R116): what the decoder answers for the bytes of an instruction is the
check of its prefixes, and bytes that are read as an instruction are its bytes. -/

namespace Sys2Proof

/-! The check of the prefixes (rules R90, R121, R147, R153, R224). -/

/-- LOCK and 66 stand where they may (rules R121, R224). -/
def Instr.PrefixesLegal (i : Instr) : Prop := (i.pfx.lock = true → i.lockable = true) ∧ i.opSizeIllegal = false

theorem Instr.prefixesLegal_iff (i : Instr) :
    i.PrefixesLegal ↔ ((i.pfx.lock && !i.lockable) || i.opSizeIllegal) = false := by
  unfold Instr.PrefixesLegal
  cases i.pfx.lock <;> cases i.lockable <;> simp

theorem checkPrefixes_tooLong {i : Instr} (h : 15 < i.length) : checkPrefixes i = .refuse .tooLong := by
  unfold checkPrefixes; rw [if_pos h]

theorem checkPrefixes_ud {i : Instr} (hl : i.length ≤ 15) (h : ¬ i.PrefixesLegal) : checkPrefixes i = .ud := by
  rw [Instr.prefixesLegal_iff, Bool.not_eq_false] at h
  unfold checkPrefixes; rw [if_neg (by omega), if_pos h]

/-- What the check says of an instruction of at most fifteen bytes whose LOCK and 66 are legal. -/
theorem checkPrefixes_legal {i : Instr} (hl : i.length ≤ 15) (h : i.PrefixesLegal) :
    checkPrefixes i =
      match i.pfx.rep with
      | none => .ok i
      | some b =>
        match i.asHinted with
        | some h => if h.eligible then .ok (b.wrap h) else .refuse .hintUndefined
        | none => .refuse .hintUndefined := by
  rw [Instr.prefixesLegal_iff] at h
  unfold checkPrefixes; rw [if_neg (by omega), h]; rfl

theorem checkPrefixes_noHint {i : Instr} (hl : i.length ≤ 15) (h : i.PrefixesLegal) (hr : i.pfx.rep = none) :
    checkPrefixes i = .ok i := by
  rw [checkPrefixes_legal hl h, hr]

theorem checkPrefixes_hint {i : Instr} {h : Hinted} {b : HintByte} (hl : i.length ≤ 15) (hi : i.PrefixesLegal)
    (hr : i.pfx.rep = some b) (ha : i.asHinted = some h) (he : h.eligible = true) : checkPrefixes i = .ok (b.wrap h) := by
  simp [checkPrefixes_legal hl hi, hr, ha, he]

theorem checkPrefixes_hintUndefined {i : Instr} {b : HintByte} (hl : i.length ≤ 15) (hi : i.PrefixesLegal)
    (hr : i.pfx.rep = some b) (hn : ∀ h, i.asHinted = some h → h.eligible = false) :
    checkPrefixes i = .refuse .hintUndefined := by
  rw [checkPrefixes_legal hl hi, hr]
  cases ha : i.asHinted with
  | none => rfl
  | some h => simp [hn h ha]

/-- An instruction passes the check unchanged, or as the hinted instruction that its hint byte makes of it. -/
theorem checkPrefixes_eq_ok {i j : Instr} (h : checkPrefixes i = .ok j) :
    i.length ≤ 15 ∧ i.PrefixesLegal ∧
      ((i.pfx.rep = none ∧ j = i) ∨ ∃ b k, i.pfx.rep = some b ∧ i = Hinted.plain k ∧ k.eligible = true ∧ j = b.wrap k) := by
  have hl : i.length ≤ 15 := by
    by_contra hl; simp [checkPrefixes_tooLong (Nat.lt_of_not_le hl)] at h
  have hp : i.PrefixesLegal := by
    by_contra hp; simp [checkPrefixes_ud hl hp] at h
  refine ⟨hl, hp, ?_⟩
  cases hr : i.pfx.rep with
  | none =>
    rw [checkPrefixes_noHint hl hp hr] at h
    cases h; exact .inl ⟨rfl, rfl⟩
  | some b =>
    by_cases hk : ∃ k, i.asHinted = some k ∧ k.eligible = true
    · obtain ⟨k, ha, he⟩ := hk
      rw [checkPrefixes_hint hl hp hr ha he] at h
      cases h; exact .inr ⟨b, k, rfl, Instr.asHinted_eq_some ha, he, rfl⟩
    · rw [checkPrefixes_hintUndefined hl hp hr fun k ha => by simpa using fun he => hk ⟨k, ha, he⟩] at h
      cases h

/-! An instruction that may be hinted, without its hint. -/

theorem Instr.lockable_eq_isRmw (i : Instr) : i.lockable = i.isRmw := by cases i <;> rfl

section Plain

variable (h : Hinted)

@[simp] theorem Hinted.plain_pfx : h.plain.pfx = h.p := by
  obtain ⟨op, p, m⟩ := h
  cases op with
  | xadd w | xchg w => cases w <;> rfl

theorem Hinted.plain_length : h.plain.length = h.p.length + h.op.opcodeLength + h.m.length := by
  obtain ⟨op, p, m⟩ := h
  cases op with
  | xadd w | xchg w => cases w <;> rfl

theorem Hinted.plain_isRmw : h.plain.isRmw = h.m.isMem := by
  obtain ⟨op, p, m⟩ := h
  cases op with
  | xadd w | xchg w => cases w <;> rfl

theorem Hinted.plain_opSizeIllegal : h.plain.opSizeIllegal = false := by
  obtain ⟨op, p, m⟩ := h
  cases op with
  | xadd w | xchg w => cases w <;> rfl

theorem Hinted.plain_isHinted : h.plain.isHinted = false := by
  obtain ⟨op, p, m⟩ := h
  cases op with
  | xadd w | xchg w => cases w <;> rfl

theorem Hinted.plain_operandsOk (c : CodeSize) : h.plain.operandsOk c = rmOk c h.p h.m h.op.width := by
  obtain ⟨op, p, m⟩ := h
  cases op with
  | xadd w | xchg w => cases w <;> rfl

theorem Hinted.encode_plain : encode h.plain = h.p.bytes ++ h.op.opcode ++ h.m.bytes := by
  obtain ⟨op, p, m⟩ := h
  cases op with
  | xadd w | xchg w => cases w <;> rfl

theorem Hinted.plain_prefixesLegal (hm : h.m.isMem = true) : h.plain.PrefixesLegal :=
  ⟨fun _ => by rw [Instr.lockable_eq_isRmw, h.plain_isRmw, hm], h.plain_opSizeIllegal⟩

theorem Hinted.eligible_iff :
    h.eligible = true ↔ h.m.isMem = true ∧ ((∃ w, h.op = .xchg w) ∨ h.p.lock = true) := by
  obtain ⟨op, p, m⟩ := h
  cases op <;> simp [Hinted.eligible]

/-- The hinted instruction has the bytes, the length and the prefixes of the plain one (rule R148). -/
theorem HintByte.wrap_same (b : HintByte) :
    encode (b.wrap h) = encode h.plain ∧ (b.wrap h).length = h.plain.length ∧ (b.wrap h).pfx = h.p := by
  rw [h.encode_plain, h.plain_length]
  cases b <;> exact ⟨rfl, rfl, rfl⟩

end Plain

/-! From the encoding to the instruction. -/

theorem withModRM_bytes {as : AddrSize} {m : ModRM} (h : m.wf as = true) (rest : List Byte) (f : ModRM → Instr) :
    withModRM as (m.bytes ++ rest) f = .ok (f m) := by
  unfold withModRM; rw [takeModRM_bytes as h]

/-- What the opcode map reads after the prefixes is checked. -/
theorem decode_opcode {c : CodeSize} {p : Pfx} (hp : p.wf c = true) {b : Byte} (hb : isOpcodeByte b) {bs : List Byte} {i : Instr}
    (h : decodeOp c p (b :: bs) = .ok i) : decode c (p.bytes ++ b :: bs) = checkPrefixes i := by
  rw [decode_prefixes c hp hb, h]; rfl

theorem rmOk_iff {c : CodeSize} {p : Pfx} {m : ModRM} {w : Width} :
    rmOk c p m w = true ↔ m.wf (c.addrSize p) = true ∧ (w = .w8 ∨ w = (c.opSize p).width) := by
  simp [rmOk, widthOk]

theorem OpSize.width_ne_w8 (o : OpSize) : o.width ≠ .w8 := by cases o <;> simp [OpSize.width]

/-- The opcode byte of a width other than 8 bits does not name the width: the operand size does (rule R115). -/
theorem HintOp.opcode_xadd {w : Width} (h : w ≠ .w8) : (HintOp.xadd w).opcode = [0x0F#8, 0xC1#8] := by
  cases w with
  | w8 => exact absurd rfl h
  | w16 | w32 | w64 => rfl

theorem HintOp.opcode_xchg {w : Width} (h : w ≠ .w8) : (HintOp.xchg w).opcode = [0x87#8] := by
  cases w with
  | w8 => exact absurd rfl h
  | w16 | w32 | w64 => rfl

theorem decode_encode_plain {c : CodeSize} {op : HintOp} {p : Pfx} {m : ModRM} (hp : p.wf c = true)
    (ho : rmOk c p m op.width = true) (rest : List Byte) :
    decode c (encode (Hinted.plain ⟨op, p, m⟩) ++ rest) = checkPrefixes (Hinted.plain ⟨op, p, m⟩) := by
  obtain ⟨hm, hw⟩ := rmOk_iff.1 ho
  rw [Hinted.encode_plain, List.append_assoc, List.append_assoc]
  cases op with
  | xadd w =>
    obtain rfl | hw : w = .w8 ∨ w = _ := hw
    · exact decode_opcode hp (by decide) (withModRM_bytes hm rest _)
    · rw [HintOp.opcode_xadd (hw ▸ OpSize.width_ne_w8 _), hw]
      exact decode_opcode hp (by decide) (withModRM_bytes hm rest _)
  | xchg w =>
    obtain rfl | hw : w = .w8 ∨ w = _ := hw
    · exact decode_opcode hp (by decide) (withModRM_bytes hm rest _)
    · rw [HintOp.opcode_xchg (hw ▸ OpSize.width_ne_w8 _), hw]
      exact decode_opcode hp (by decide) (withModRM_bytes hm rest _)

/-- The bytes `90` to `97` (rule R206). -/
theorem accByte_fields (r : BitVec 3) :
    isOpcodeByte (accByte r) ∧ (accByte r).extractLsb' 3 5 = 0b10010#5 ∧ (accByte r).extractLsb' 0 3 = r
      ∧ ∀ b ∈ [0xC6#8, 0xC7#8, 0x0F#8, 0x86#8, 0x87#8], accByte r ≠ b := by
  revert r; decide

theorem decodeOp_accByte (c : CodeSize) (p : Pfx) (r : BitVec 3) (rest : List Byte) :
    decodeOp c p (accByte r :: rest) = .ok (Instr.xchgAcc (c.opSize p) p r) := by
  obtain ⟨-, hop, hr, hne⟩ := accByte_fields r
  simp only [List.forall_mem_cons] at hne
  obtain ⟨h1, h2, h3, h4, h5, -⟩ := hne
  simp [decodeOp, h1, h2, h3, h4, h5, hop, hr]

theorem decode_encode_xchgAcc {c : CodeSize} {p : Pfx} {o : OpSize} (hp : p.wf c = true) (ho : (c.opSize p == o) = true)
    (r : BitVec 3) (rest : List Byte) :
    decode c (p.bytes ++ [accByte r] ++ rest) = checkPrefixes (Instr.xchgAcc o p r) := by
  rw [List.append_assoc, ← eq_of_beq ho]
  exact decode_opcode hp (accByte_fields r).1 (decodeOp_accByte c p r rest)

theorem decode_encode_xbeginRel16 {c : CodeSize} {p : Pfx} (hp : p.wf c = true) (ho : c.opSize p = .o16) (rel : BitVec 16)
    (rest : List Byte) : decode c (encode (.xbeginRel16 p rel) ++ rest) = checkPrefixes (.xbeginRel16 p rel) := by
  simp only [encode, List.append_assoc]
  refine decode_opcode hp (by decide) ?_
  show decodeC7 c p (0xF8#8 :: (split16 rel ++ rest)) = _
  simp [decodeC7, ho, split16, join16_split16]

theorem decode_encode_xbeginRel32 {c : CodeSize} {p : Pfx} (hp : p.wf c = true) (ho : c.opSize p ≠ .o16) (rel : BitVec 32)
    (rest : List Byte) : decode c (encode (.xbeginRel32 p rel) ++ rest) = checkPrefixes (.xbeginRel32 p rel) := by
  simp only [encode, List.append_assoc]
  refine decode_opcode hp (by decide) ?_
  show decodeC7 c p (0xF8#8 :: (split32 rel ++ rest)) = _
  cases hs : c.opSize p with
  | o16 => exact absurd hs ho
  | o32 | o64 => simp [decodeC7, hs, split32, join32_split32]

/-- The decoder reads from the bytes of an instruction without a hint that instruction, and checks its prefixes. -/
theorem decode_encode {c : CodeSize} {i : Instr} (hh : i.isHinted = false) (hp : i.pfx.wf c = true) (ho : i.operandsOk c = true)
    (rest : List Byte) : decode c (encode i ++ rest) = checkPrefixes i := by
  cases i with
  | xacquire h | xrelease h => simp [Instr.isHinted] at hh
  | xaddRm8 p m => exact decode_encode_plain (op := .xadd .w8) hp ho rest
  | xaddRm16 p m => exact decode_encode_plain (op := .xadd .w16) hp ho rest
  | xaddRm32 p m => exact decode_encode_plain (op := .xadd .w32) hp ho rest
  | xaddRm64 p m => exact decode_encode_plain (op := .xadd .w64) hp ho rest
  | xchgRm8 p m => exact decode_encode_plain (op := .xchg .w8) hp ho rest
  | xchgRm16 p m => exact decode_encode_plain (op := .xchg .w16) hp ho rest
  | xchgRm32 p m => exact decode_encode_plain (op := .xchg .w32) hp ho rest
  | xchgRm64 p m => exact decode_encode_plain (op := .xchg .w64) hp ho rest
  | xchgAcc16 p r => exact decode_encode_xchgAcc (o := .o16) hp ho r rest
  | xchgAcc32 p r => exact decode_encode_xchgAcc (o := .o32) hp ho r rest
  | xchgAcc64 p r => exact decode_encode_xchgAcc (o := .o64) hp ho r rest
  | xbeginRel16 p rel => exact decode_encode_xbeginRel16 hp (eq_of_beq ho) rel rest
  | xbeginRel32 p rel => exact decode_encode_xbeginRel32 hp (bne_iff_ne.1 ho) rel rest
  | xabort p _ | xend p | xgetbv p | xlat p =>
    simp only [encode, List.append_assoc]
    exact decode_opcode hp (by decide) rfl

theorem Instr.wf_iff {c : CodeSize} {i : Instr} :
    i.wf c = true ↔ i.pfx.wf c = true ∧ i.operandsOk c = true ∧ i.prefixesOk = true ∧ i.length ≤ 15 := by
  simp [Instr.wf, and_assoc]

/-- Where the prefixes of an instruction may stand, without a hint (rules R121, R153, R224). -/
theorem Instr.prefixesOk_iff {i : Instr} (hh : i.isHinted = false) :
    i.prefixesOk = true ↔ i.PrefixesLegal ∧ i.pfx.rep = none := by
  cases i with
  | xacquire h | xrelease h => simp [Instr.isHinted] at hh
  | _ => simp [Instr.prefixesOk, Instr.PrefixesLegal, Bool.or_eq_true, imp_iff_not_or]

/-- Where a hint may stand (rules R147, R153). -/
theorem HintByte.wrap_prefixesOk (b : HintByte) (h : Hinted) :
    (b.wrap h).prefixesOk = true ↔ h.eligible = true ∧ h.p.rep = some b := by
  cases b <;> simp [HintByte.wrap, Instr.prefixesOk]

theorem HintByte.wrap_operandsOk (b : HintByte) (h : Hinted) (c : CodeSize) :
    (b.wrap h).operandsOk c = rmOk c h.p h.m h.op.width := by
  cases b <;> rfl

theorem decode_encode_wrap {c : CodeSize} {b : HintByte} {h : Hinted} (hw : (b.wrap h).wf c = true) (rest : List Byte) :
    decode c (encode (b.wrap h) ++ rest) = .ok (b.wrap h) := by
  obtain ⟨hp, ho, hx, hl⟩ := Instr.wf_iff.1 hw
  obtain ⟨hbytes, hlen, hpfx⟩ := HintByte.wrap_same h b
  obtain ⟨he, hr⟩ := (HintByte.wrap_prefixesOk b h).1 hx
  rw [HintByte.wrap_operandsOk] at ho
  rw [hbytes, decode_encode_plain (op := h.op) (p := h.p) (m := h.m) (hpfx ▸ hp) ho]
  exact checkPrefixes_hint (hlen ▸ hl) (h.plain_prefixesLegal (h.eligible_iff.1 he).1) (h.plain_pfx.symm ▸ hr) h.asHinted_plain he

/-- Settles O1: the bytes of an instruction are read as it, or, hinted, as the instruction that its hint byte hints. -/
theorem decodeOfEncodeGivesTheInstruction : Obligations.DecodeOfEncodeGivesTheInstruction := by
  intro c i rest hw
  cases hh : i.isHinted with
  | true =>
    cases i with
    | xacquire h => exact decode_encode_wrap (b := .f2) hw rest
    | xrelease h => exact decode_encode_wrap (b := .f3) hw rest
    | _ => simp [Instr.isHinted] at hh
  | false =>
    obtain ⟨hp, ho, hx, hl⟩ := Instr.wf_iff.1 hw
    obtain ⟨hlegal, hr⟩ := (Instr.prefixesOk_iff hh).1 hx
    rw [decode_encode hh hp ho, checkPrefixes_noHint hl hlegal hr]

/-! From the bytes to the instruction. -/

theorem Legacy.byte_of_ofByte {b : Byte} {l : Legacy} (h : Legacy.ofByte b = some l) : l.byte = b := by
  unfold Legacy.ofByte at h
  repeat' split at h
  all_goals cases h
  all_goals rename b = _ => hb; exact hb.symm

theorem Rex.byte_ofByte {b : Byte} (h : isRexByte b = true) : (Rex.ofByte b).byte = b := by
  revert b; decide

theorem takeLegacy_bytes (bs : List Byte) : (takeLegacy bs).1.map Legacy.byte ++ (takeLegacy bs).2 = bs := by
  induction bs with
  | nil => rfl
  | cons b bs ih =>
    unfold takeLegacy
    split
    · next l hl => simp [Legacy.byte_of_ofByte hl, ih]
    · rfl

theorem takeRex_bytes (mode : Mode) (bs : List Byte) :
    (takeRex mode bs).1.toList.map Rex.byte ++ (takeRex mode bs).2 = bs
      ∧ ((takeRex mode bs).1.isSome = true → mode = .mode64) := by
  cases bs with
  | nil => simp [takeRex]
  | cons b bs =>
    simp only [takeRex]
    split_ifs with h
    · simp [Rex.byte_ofByte h.2, h.1]
    · simp

/-- Any bytes are prefixes that may stand in this mode, and what the opcode map is given. -/
theorem decode_eq (c : CodeSize) (bytes : List Byte) :
    ∃ p bs, bytes = p.bytes ++ bs ∧ p.wf c = true ∧ decode c bytes = (decodeOp c p bs).checked checkPrefixes := by
  obtain ⟨hrex, hmode⟩ := takeRex_bytes c.mode (takeLegacy bytes).2
  refine ⟨⟨(takeLegacy bytes).1, (takeRex c.mode (takeLegacy bytes).2).1⟩, (takeRex c.mode (takeLegacy bytes).2).2, ?_, ?_, rfl⟩
  · conv_lhs => rw [← takeLegacy_bytes bytes, ← hrex]
    simp [Pfx.bytes]
  · unfold Pfx.wf Pfx.hasRex
    cases h : (takeRex c.mode (takeLegacy bytes).2).1.isSome with
    | true => simp [hmode h]
    | false => simp

theorem ModRM.byte_of_fields (b : Byte) : (b.extractLsb' 6 2 ++ b.extractLsb' 3 3 ++ b.extractLsb' 0 3 : Byte) = b := by
  revert b; decide

theorem Sib.byte_ofByte (b : Byte) : (Sib.ofByte b).byte = b := ModRM.byte_of_fields b

theorem accByte_of_fields {b : Byte} (h : b.extractLsb' 3 5 = 0b10010#5) : accByte (b.extractLsb' 0 3) = b := by
  revert b; decide

theorem split16_join16 (b0 b1 : Byte) : split16 (join16 b0 b1) = [b0, b1] := by
  have h0 : (join16 b0 b1).extractLsb' 0 8 = b0 := BitVec.extractLsb'_append_eq_right
  have h1 : (join16 b0 b1).extractLsb' 8 8 = b1 := BitVec.extractLsb'_append_eq_left
  rw [split16, h0, h1]

theorem split32_join32 (b0 b1 b2 b3 : Byte) : split32 (join32 b0 b1 b2 b3) = [b0, b1, b2, b3] := by
  have h0 : (join32 b0 b1 b2 b3).extractLsb' 0 8 = b0 := BitVec.extractLsb'_append_eq_right
  have h1 : (join32 b0 b1 b2 b3).extractLsb' 8 8 = b1 :=
    (BitVec.extractLsb'_append_eq_of_le (w := 8) (by norm_num)).trans BitVec.extractLsb'_append_eq_right
  have h2 : (join32 b0 b1 b2 b3).extractLsb' 16 8 = b2 :=
    (BitVec.extractLsb'_append_eq_of_le (w := 8) (by norm_num)).trans <|
      (BitVec.extractLsb'_append_eq_of_le (w := 8) (by norm_num)).trans BitVec.extractLsb'_append_eq_right
  have h3 : (join32 b0 b1 b2 b3).extractLsb' 24 8 = b3 :=
    (BitVec.extractLsb'_append_eq_of_le (w := 8) (by norm_num)).trans <|
      (BitVec.extractLsb'_append_eq_of_le (w := 8) (by norm_num)).trans BitVec.extractLsb'_append_eq_left
  rw [split32, h0, h1, h2, h3]

theorem takeDisp_eq_some {k : DispKind} {bs rest : List Byte} {d : Disp} (h : takeDisp k bs = some (d, rest)) :
    d.kind = k ∧ bs = d.bytes ++ rest := by
  unfold takeDisp at h
  split at h <;> cases h
  · exact ⟨rfl, rfl⟩
  · exact ⟨rfl, rfl⟩
  · exact ⟨rfl, by simp [Disp.bytes, split16_join16]⟩
  · exact ⟨rfl, by simp [Disp.bytes, split32_join32]⟩

theorem takeSib_eq_some {need : Bool} {bs rest : List Byte} {o : Option Sib} (h : takeSib need bs = some (o, rest)) :
    o.isSome = need ∧ bs = o.toList.map Sib.byte ++ rest := by
  unfold takeSib at h
  split at h <;> cases h
  · exact ⟨rfl, rfl⟩
  · exact ⟨rfl, by simp [Sib.byte_ofByte]⟩

/-- What is read as a ModRM byte with what it calls for is well-formed, and its bytes are those read. -/
theorem takeModRM_eq_some {as : AddrSize} {bs rest : List Byte} {m : ModRM} (h : takeModRM as bs = some (m, rest)) :
    m.wf as = true ∧ bs = m.bytes ++ rest := by
  cases bs with
  | nil => cases h
  | cons b bs =>
    simp only [takeModRM] at h
    split at h
    · cases h
    next sib bs1 hsib =>
    split at h
    · cases h
    next disp bs2 hdisp =>
    cases h
    obtain ⟨hneed, rfl⟩ := takeSib_eq_some hsib
    obtain ⟨hkind, rfl⟩ := takeDisp_eq_some hdisp
    refine ⟨by simp [ModRM.wf, hneed, hkind], ?_⟩
    simp [ModRM.bytes, ModRM.byte, ModRM.byte_of_fields]

theorem withModRM_eq_ok {as : AddrSize} {bs : List Byte} {f : ModRM → Instr} {j : Instr} (h : withModRM as bs f = .ok j) :
    ∃ m rest, m.wf as = true ∧ bs = m.bytes ++ rest ∧ j = f m := by
  unfold withModRM at h
  split at h
  · next m rest hm =>
    obtain ⟨hwf, hbs⟩ := takeModRM_eq_some hm
    cases h
    exact ⟨m, rest, hwf, hbs, rfl⟩
  · cases h

/-- The opcode map read `j` from the bytes `bs` that follow the prefixes `p`: no hint yet, operands that the encoding can hold, and
the bytes are those of `j`. -/
structure Instr.ReadFrom (c : CodeSize) (p : Pfx) (bs : List Byte) (j : Instr) : Prop where
  plain : j.isHinted = false
  pfx : j.pfx = p
  operands : j.operandsOk c = true
  bytes : ∃ rest, p.bytes ++ bs = encode j ++ rest

/-- An instruction with a ModRM byte, behind its opcode bytes. -/
theorem Instr.ReadFrom.of_plain {c : CodeSize} {p : Pfx} {op : HintOp} {bs : List Byte} {j : Instr}
    (hw : op.width = .w8 ∨ op.width = (c.opSize p).width)
    (h : withModRM (c.addrSize p) bs (fun m => Hinted.plain ⟨op, p, m⟩) = .ok j) : j.ReadFrom c p (op.opcode ++ bs) := by
  obtain ⟨m, rest, hm, rfl, rfl⟩ := withModRM_eq_ok h
  refine ⟨Hinted.plain_isHinted _, Hinted.plain_pfx _, ?_, rest, ?_⟩
  · rw [Hinted.plain_operandsOk]; exact rmOk_iff.2 ⟨hm, hw⟩
  · simp [Hinted.encode_plain]

theorem decodeC6_readFrom {c : CodeSize} {p : Pfx} {bs : List Byte} {j : Instr} (h : decodeC6 p bs = .ok j) :
    j.ReadFrom c p (0xC6#8 :: bs) := by
  unfold decodeC6 at h
  split at h
  · cases h
  next b bs =>
  split_ifs at h with hb
  split at h <;> cases h
  next imm rest => exact ⟨rfl, rfl, rfl, rest, by simp [encode, hb]⟩

theorem decodeC7_readFrom {c : CodeSize} {p : Pfx} {bs : List Byte} {j : Instr} (h : decodeC7 c p bs = .ok j) :
    j.ReadFrom c p (0xC7#8 :: bs) := by
  unfold decodeC7 at h
  split at h
  · cases h
  next b bs =>
  split_ifs at h with hb
  split at h <;> cases h
  next b0 b1 rest hs => exact ⟨rfl, rfl, by simp [Instr.operandsOk, hs], rest, by simp [encode, hb, split16_join16]⟩
  next b0 b1 b2 b3 rest hs =>
    exact ⟨rfl, rfl, by simp [Instr.operandsOk, hs], rest, by simp [encode, hb, split32_join32]⟩
  next b0 b1 b2 b3 rest hs =>
    exact ⟨rfl, rfl, by simp [Instr.operandsOk, hs], rest, by simp [encode, hb, split32_join32]⟩

theorem decode0F01_readFrom {c : CodeSize} {p : Pfx} {bs : List Byte} {j : Instr} (h : decode0F01 p bs = .ok j) :
    j.ReadFrom c p (0x0F#8 :: 0x01#8 :: bs) := by
  unfold decode0F01 at h
  split at h
  · cases h
  next b rest =>
  split_ifs at h with h1 h2 <;> cases h
  · exact ⟨rfl, rfl, rfl, rest, by simp [encode, h1]⟩
  · exact ⟨rfl, rfl, rfl, rest, by simp [encode, h2]⟩

theorem decode0F_readFrom {c : CodeSize} {p : Pfx} {bs : List Byte} {j : Instr} (h : decode0F c p bs = .ok j) :
    j.ReadFrom c p (0x0F#8 :: bs) := by
  unfold decode0F at h
  split at h
  · cases h
  next b bs =>
  split_ifs at h with h1 h2 h3
  · rw [h1]; exact .of_plain (op := .xadd .w8) (.inl rfl) h
  · have := Instr.ReadFrom.of_plain (op := .xadd (c.opSize p).width) (.inr rfl) h
    rwa [HintOp.opcode_xadd (OpSize.width_ne_w8 _), ← h2] at this
  · rw [h3]; exact decode0F01_readFrom h

theorem xchgAcc_readFrom (c : CodeSize) (p : Pfx) {b : Byte} (hb : b.extractLsb' 3 5 = 0b10010#5) (rest : List Byte) :
    (Instr.xchgAcc (c.opSize p) p (b.extractLsb' 0 3)).ReadFrom c p (b :: rest) := by
  have hacc := accByte_of_fields hb
  cases ho : c.opSize p <;> exact ⟨rfl, rfl, by simp [Instr.xchgAcc, Instr.operandsOk, ho], rest, by simp [Instr.xchgAcc, encode, hacc]⟩

/-- What the opcode map reads, by the first opcode byte. -/
theorem decodeOp_readFrom {c : CodeSize} {p : Pfx} {bs : List Byte} {j : Instr} (h : decodeOp c p bs = .ok j) :
    j.ReadFrom c p bs := by
  unfold decodeOp at h
  split at h
  · cases h
  next b bs =>
  split_ifs at h with hC6 hC7 h0F h86 h87 hacc hD7 hvex
  · rw [hC6]; exact decodeC6_readFrom h
  · rw [hC7]; exact decodeC7_readFrom h
  · rw [h0F]; exact decode0F_readFrom h
  · rw [h86]; exact .of_plain (op := .xchg .w8) (.inl rfl) h
  · have := Instr.ReadFrom.of_plain (op := .xchg (c.opSize p).width) (.inr rfl) h
    rwa [HintOp.opcode_xchg (OpSize.width_ne_w8 _), ← h87] at this
  · cases h; exact xchgAcc_readFrom c p hacc bs
  · cases h; exact ⟨rfl, rfl, rfl, bs, by simp [encode, hD7]⟩
  · unfold decodeVex at h; split_ifs at h

theorem Decoded.checked_eq_ok {check : Instr → Decoded} {d : Decoded} {i : Instr} (h : d.checked check = .ok i) :
    ∃ j, d = .ok j ∧ check j = .ok i := by
  cases d with
  | ok i => exact ⟨_, rfl, h⟩
  | _ => cases h

/-- What passes the check of its prefixes is well-formed and has the bytes that were read. -/
theorem checkPrefixes_wf {c : CodeSize} {i j : Instr} (h : checkPrefixes j = .ok i) (hh : j.isHinted = false)
    (hp : j.pfx.wf c = true) (ho : j.operandsOk c = true) : i.wf c = true ∧ encode i = encode j := by
  obtain ⟨hl, hlegal, ⟨hr, rfl⟩ | ⟨b, k, hr, rfl, he, rfl⟩⟩ := checkPrefixes_eq_ok h
  · exact ⟨Instr.wf_iff.2 ⟨hp, ho, (Instr.prefixesOk_iff hh).2 ⟨hlegal, hr⟩, hl⟩, rfl⟩
  · obtain ⟨hbytes, hlen, hpfx⟩ := HintByte.wrap_same k b
    rw [Hinted.plain_pfx] at hp hr
    rw [Hinted.plain_operandsOk] at ho
    refine ⟨Instr.wf_iff.2 ⟨hpfx ▸ hp, ?_, (HintByte.wrap_prefixesOk b k).2 ⟨he, hr⟩, hlen ▸ hl⟩, hbytes⟩
    rw [HintByte.wrap_operandsOk, ho]

/-- Settles O2: the prefixes and the opcode map each read their own bytes, and the check of the prefixes changes none. -/
theorem decodedBytesAreTheEncoding : Obligations.DecodedBytesAreTheEncoding := by
  intro c bytes i h
  obtain ⟨p, bs, rfl, hp, hd⟩ := decode_eq c bytes
  obtain ⟨j, hj, hcheck⟩ := Decoded.checked_eq_ok (hd ▸ h)
  obtain ⟨hh, rfl, ho, rest, hbytes⟩ := decodeOp_readFrom hj
  obtain ⟨hwf, henc⟩ := checkPrefixes_wf hcheck hh hp ho
  exact ⟨hwf, rest, by rw [hbytes, henc]⟩

/-! What the decoder refuses or faults. -/

theorem Instr.opSizeIllegal_of_isRmw {i : Instr} (h : i.isRmw = true) : i.opSizeIllegal = false := by
  cases i with
  | xend p => cases h
  | _ => rfl

/-- Settles O4: LOCK is legal on a form exactly when it is a read-modify-write. -/
theorem lockIsLegalOnMemoryFormsOnly : Obligations.LockIsLegalOnMemoryFormsOnly := by
  intro c i rest hh hp ho hl hlock
  rw [decode_encode hh hp ho]
  constructor
  · intro hrmw
    refine checkPrefixes_ud hl fun hlegal => ?_
    have := hlegal.1 hlock
    simp [Instr.lockable_eq_isRmw, hrmw] at this
  · intro hrmw hr
    refine checkPrefixes_noHint hl ⟨fun _ => by rw [Instr.lockable_eq_isRmw, hrmw], ?_⟩ hr
    exact Instr.opSizeIllegal_of_isRmw hrmw

theorem Instr.opSizeIllegal_eq_true {i : Instr} (h : i.opSizeIllegal = true) : ∃ p, i = .xend p ∧ Legacy.opSize ∈ p.legacy := by
  cases i with
  | xend p => exact ⟨p, rfl, by simpa [Instr.opSizeIllegal, Pfx.has] using h⟩
  | _ => cases h

/-- Settles O5: under a hint byte the check answers the hinted instruction where the conditions hold, and refuses where they do not. -/
theorem hintBytesMakeHintedInstructions : Obligations.HintBytesMakeHintedInstructions := by
  intro c i b rest hh hp ho hl hr
  rw [decode_encode hh hp ho]
  constructor
  · rintro h rfl hm hcond
    rw [checkPrefixes_hint hl (h.plain_prefixesLegal hm) hr h.asHinted_plain (h.eligible_iff.2 ⟨hm, hcond⟩)]
    cases b <;> rfl
  · intro hnot hlock h66
    have hlegal : i.PrefixesLegal := by
      refine ⟨fun h => by rw [Instr.lockable_eq_isRmw, hlock h], ?_⟩
      by_contra hill
      obtain ⟨p, rfl, hmem⟩ := Instr.opSizeIllegal_eq_true (by simpa using hill)
      exact h66 ⟨p, rfl⟩ hmem
    refine checkPrefixes_hintUndefined hl hlegal hr fun h ha => ?_
    rw [Bool.eq_false_iff]
    intro he
    obtain ⟨hm, hcond⟩ := h.eligible_iff.1 he
    rcases hnot h (Instr.asHinted_eq_some ha) with hm' | ⟨⟨w, hw⟩, hlk⟩
    · simp [hm] at hm'
    · simp [hw, hlk] at hcond

theorem lastOf_isSome_of_mem {α : Type} {f : Legacy → Option α} {l : Legacy} {ls : List Legacy} (hl : l ∈ ls)
    (hf : (f l).isSome = true) : (lastOf f ls).isSome = true := by
  induction ls with
  | nil => cases hl
  | cons m ls ih =>
    rcases List.mem_cons.1 hl with rfl | hl
    · cases h : lastOf f ls <;> simp [lastOf, h, hf]
    · simp [lastOf, Option.isSome_or, ih hl]

/-- Settles O7: the decoder looks for the hint byte only where the VEX byte is not too far behind. -/
theorem hintByteBeforeVexIsInvalidOpcode : Obligations.HintByteBeforeVexIsInvalidOpcode := by
  intro c ls b rest hhint hb
  have hrep : (lastOf Legacy.hint ls).isSome = true := by
    rcases hhint with h | h <;> exact lastOf_isSome_of_mem h rfl
  have hvex : decodeOp c ⟨ls, none⟩ (b :: rest) = decodeVex ⟨ls, none⟩ := by
    rcases hb with rfl | rfl <;> rfl
  have hop : isOpcodeByte b := by
    rcases hb with rfl | rfl <;> decide
  have hbytes : ls.map Legacy.byte = Pfx.bytes ⟨ls, none⟩ := by simp [Pfx.bytes]
  have hlen : Pfx.length ⟨ls, none⟩ = ls.length := rfl
  rw [hbytes, decode_prefixes c (by simp [Pfx.wf, Pfx.hasRex]) hop, hvex, decodeVex, hlen]
  by_cases h15 : ls.length < 15
  · rw [if_neg (Nat.not_le.2 h15), if_pos (by simp [Pfx.rep, hrep]), if_pos h15]; rfl
  · rw [if_pos (Nat.not_lt.1 h15), if_neg h15]; rfl

/-- Settles O8: 66 is illegal on XEND whatever else stands before it. -/
theorem operandSizePrefixOnXendIsInvalidOpcode : Obligations.OperandSizePrefixOnXendIsInvalidOpcode := by
  intro c p rest hp hl h66
  rw [decode_encode (i := .xend p) rfl hp rfl]
  refine checkPrefixes_ud hl fun hlegal => ?_
  have := hlegal.2
  simp [Instr.opSizeIllegal, Pfx.has, h66] at this

/-- Settles O9: the length is checked first. -/
theorem overlongInstructionsAreRefused : Obligations.OverlongInstructionsAreRefused := by
  intro c i rest hh hp ho hl
  rw [decode_encode hh hp ho, checkPrefixes_tooLong hl]

/-- Settles O3, by evaluation. -/
theorem wordsOfTheTableDecode : Obligations.WordsOfTheTableDecode := by
  unfold Obligations.WordsOfTheTableDecode
  decide

end Sys2Proof
end

section
/-! What an instruction can answer: a next state, in which it completed or aborted (rules R31, R34, R164), a fault (rule R254) or a
refusal (rule R83). -/

namespace Sys2Proof

/-- `i` is this instruction, with or without a hint (rule R148). -/
def Hinted.Forms (h : Hinted) (i : Instr) : Prop := i = h.plain ∨ i = .xacquire h ∨ i = .xrelease h

/-- The kinds of instructions, by the meaning they call. -/
theorem Instr.kinds (i : Instr) :
    (∃ h : Hinted, h.Forms i) ∨ (∃ o p r, i = .xchgAcc o p r) ∨ i.isRtm = true ∨ (∃ p, i = .xgetbv p) ∨ ∃ p, i = .xlat p := by
  cases i with
  | xacquire h => exact .inl ⟨h, .inr (.inl rfl)⟩
  | xrelease h => exact .inl ⟨h, .inr (.inr rfl)⟩
  | xaddRm8 p m => exact .inl ⟨⟨.xadd .w8, p, m⟩, .inl rfl⟩
  | xaddRm16 p m => exact .inl ⟨⟨.xadd .w16, p, m⟩, .inl rfl⟩
  | xaddRm32 p m => exact .inl ⟨⟨.xadd .w32, p, m⟩, .inl rfl⟩
  | xaddRm64 p m => exact .inl ⟨⟨.xadd .w64, p, m⟩, .inl rfl⟩
  | xchgRm8 p m => exact .inl ⟨⟨.xchg .w8, p, m⟩, .inl rfl⟩
  | xchgRm16 p m => exact .inl ⟨⟨.xchg .w16, p, m⟩, .inl rfl⟩
  | xchgRm32 p m => exact .inl ⟨⟨.xchg .w32, p, m⟩, .inl rfl⟩
  | xchgRm64 p m => exact .inl ⟨⟨.xchg .w64, p, m⟩, .inl rfl⟩
  | xchgAcc16 p r => exact .inr (.inl ⟨.o16, p, r, rfl⟩)
  | xchgAcc32 p r => exact .inr (.inl ⟨.o32, p, r, rfl⟩)
  | xchgAcc64 p r => exact .inr (.inl ⟨.o64, p, r, rfl⟩)
  | xabort | xbeginRel16 | xbeginRel32 | xend => exact .inr (.inr (.inl rfl))
  | xgetbv p => exact .inr (.inr (.inr (.inl ⟨p, rfl⟩)))
  | xlat p => exact .inr (.inr (.inr (.inr ⟨p, rfl⟩)))

/-- The kinds of RTM instructions (rule R2). -/
theorem Instr.isRtm_cases {i : Instr} (h : i.isRtm = true) :
    (∃ p imm8, i = .xabort p imm8) ∨ (∃ p rel, i = .xbeginRel16 p rel) ∨ (∃ p rel, i = .xbeginRel32 p rel) ∨ ∃ p, i = .xend p := by
  cases i with
  | xabort p imm8 => exact .inl ⟨p, imm8, rfl⟩
  | xbeginRel16 p rel => exact .inr (.inl ⟨p, rel, rfl⟩)
  | xbeginRel32 p rel => exact .inr (.inr (.inl ⟨p, rel, rfl⟩))
  | xend p => exact .inr (.inr (.inr ⟨p, rfl⟩))
  | _ => cases h

theorem Hinted.plain_addsFlags (h : Hinted) :
    h.plain.addsFlags = (match h.op with | .xadd _ => true | .xchg _ => false) := by
  obtain ⟨op, p, m⟩ := h
  cases op with
  | xadd w | xchg w => cases w <;> rfl

section Forms

variable {h : Hinted} {i : Instr}

theorem Hinted.Forms.length (hi : h.Forms i) : i.length = h.plain.length := by
  rcases hi with rfl | rfl | rfl
  · rfl
  · exact (HintByte.wrap_same h .f2).2.1
  · exact (HintByte.wrap_same h .f3).2.1

theorem Hinted.Forms.addsFlags (hi : h.Forms i) : i.addsFlags = h.plain.addsFlags := by
  rcases hi with rfl | rfl | rfl
  · rfl
  · exact h.plain_addsFlags.symm
  · exact h.plain_addsFlags.symm

theorem Hinted.Forms.isRtm (hi : h.Forms i) : i.isRtm = false := by
  rcases hi with rfl | rfl | rfl
  · obtain ⟨op, p, m⟩ := h
    cases op with
    | xadd w | xchg w => cases w <;> rfl
  · rfl
  · rfl

end Forms

end Sys2Proof

namespace Sys2Proof.Machine

/-! Read-modify-writes stop for one of two reasons, or complete (rules R67, R83). -/

theorem State.rmwStop_eq_some {s : State} {m : MemRef} {n : Nat} {r : Result} (h : s.rmwStop m n = some r) :
    (∃ e, s.askAdmit .rmw m n = some e ∧ r = raise e s)
      ∨ (s.askAdmit .rmw m n = none ∧ s.storeHitsText n m.addr = true ∧ r = .refused .storeToText) := by
  unfold State.rmwStop at h
  cases ha : s.askAdmit .rmw m n with
  | some e => rw [ha] at h; cases h; exact .inl ⟨e, rfl, rfl⟩
  | none =>
    rw [ha] at h
    simp only [Option.ite_none_right_eq_some, Option.some.injEq] at h
    exact .inr ⟨rfl, h.1, h.2.symm⟩

theorem State.rmwStop_denied {s : State} {m : MemRef} {n : Nat} {e : Raised} (h : s.askAdmit .rmw m n = some e) :
    s.rmwStop m n = some (raise e s) := by
  unfold State.rmwStop; rw [h]

theorem State.rmwStop_text {s : State} {m : MemRef} {n : Nat} (h : s.askAdmit .rmw m n = none)
    (ht : s.storeHitsText n m.addr = true) : s.rmwStop m n = some (.refused .storeToText) := by
  unfold State.rmwStop; rw [h, if_pos ht]

theorem xadd_cases (w : Width) (p : Pfx) (m : ModRM) (len : Nat) (s : State) :
    (∃ t, xadd w p m len s = .next t)
      ∨ (m.isMem = true ∧ s.rmwStop (s.memRef p m len) w.bytes = some (xadd w p m len s)) := by
  cases hm : m.isMem with
  | false => exact .inl ⟨_, xadd_reg hm w p len s⟩
  | true =>
    cases hs : s.rmwStop (s.memRef p m len) w.bytes with
    | none => exact .inl ⟨_, xadd_mem hm hs⟩
    | some r => exact .inr ⟨rfl, by rw [xadd_stop hm hs]⟩

theorem xchg_cases (w : Width) (p : Pfx) (m : ModRM) (len : Nat) (s : State) :
    (∃ t, xchg w p m len s = .next t)
      ∨ (m.isMem = true ∧ s.rmwStop (s.memRef p m len) w.bytes = some (xchg w p m len s)) := by
  cases hm : m.isMem with
  | false => exact .inl ⟨_, xchg_reg hm w p len s⟩
  | true =>
    cases hs : s.rmwStop (s.memRef p m len) w.bytes with
    | none => exact .inl ⟨_, xchg_mem hm hs⟩
    | some r => exact .inr ⟨rfl, by rw [xchg_stop hm hs]⟩

/-- A read-modify-write without its hint that is stopped answers what stops it. -/
theorem hintedPlain_stop {h : Hinted} (hm : h.m.isMem = true) {s : State} {r : Result}
    (hs : s.rmwStop (s.memRef h.p h.m h.plain.length) h.op.width.bytes = some r) : hintedPlain h s = r := by
  obtain ⟨op, p, m⟩ := h
  cases op with
  | xadd w => exact xadd_stop hm hs
  | xchg w => exact xchg_stop hm hs

theorem hintedPlain_cases (h : Hinted) (s : State) :
    (∃ t, hintedPlain h s = .next t)
      ∨ (h.m.isMem = true ∧ s.rmwStop (s.memRef h.p h.m h.plain.length) h.op.width.bytes = some (hintedPlain h s)) := by
  obtain ⟨op, p, m⟩ := h
  cases op with
  | xadd w => exact xadd_cases w p m _ s
  | xchg w => exact xchg_cases w p m _ s

/-- A hint leaves what stops its instruction. -/
theorem onNext_of_stop {r : Result} (h : ∀ t, r ≠ .next t) (f : State → State) : onNext f r = r := by
  cases r with
  | next t => exact absurd rfl (h t)
  | fault e => rfl
  | refused e => rfl

section Forms

variable {h : Hinted} {i : Instr}

/-- Hinted or not, an instruction answers the next state of its meaning, but for `hle_elided`. -/
theorem exec_forms_next (hi : h.Forms i) {s t : State} (hx : exec i s = .next t) :
    ∃ u e, hintedPlain h s = .next u ∧ t = u.setElided e := by
  rcases hi with rfl | rfl | rfl
  · rw [← hintedPlain_eq] at hx; exact ⟨t, t.hleElided, hx, rfl⟩
  · obtain ⟨u, hu, rfl⟩ := onNext_next hx
    exact ⟨u, _, hu, acquireElision_eq _ _⟩
  · obtain ⟨u, hu, rfl⟩ := onNext_next hx
    exact ⟨u, _, hu, releaseElision_eq _ _⟩

/-- Hinted or not, a read-modify-write that is stopped answers what stops it. -/
theorem exec_forms_stop (hi : h.Forms i) (hm : h.m.isMem = true) {s : State} {r : Result}
    (hs : s.rmwStop (s.memRef h.p h.m i.length) h.op.width.bytes = some r) : exec i s = r := by
  rw [hi.length] at hs
  have hp := hintedPlain_stop hm hs
  have hn := State.rmwStop_not_next hs
  rcases hi with rfl | rfl | rfl
  · rw [← hintedPlain_eq, hp]
  · show onNext _ (hintedPlain h s) = r
    rw [hp, onNext_of_stop hn]
  · show onNext _ (hintedPlain h s) = r
    rw [hp, onNext_of_stop hn]

/-- Hinted or not, an instruction answers a next state or is a read-modify-write that is stopped. -/
theorem exec_forms_cases (hi : h.Forms i) (s : State) :
    (∃ t, exec i s = .next t)
      ∨ (h.m.isMem = true ∧ s.rmwStop (s.memRef h.p h.m i.length) h.op.width.bytes = some (exec i s)) := by
  rcases hintedPlain_cases h s with ⟨u, hu⟩ | ⟨hm, hs⟩
  · left
    rcases hi with rfl | rfl | rfl
    · exact ⟨u, by rw [← hintedPlain_eq, hu]⟩
    · exact ⟨acquireElision (hintedAddr h s) u, by show onNext _ (hintedPlain h s) = _; rw [hu]; rfl⟩
    · exact ⟨releaseElision (hintedAddr h s) u, by show onNext _ (hintedPlain h s) = _; rw [hu]; rfl⟩
  · rw [← hi.length] at hs
    exact .inr ⟨hm, by rw [exec_forms_stop hi hm hs, hs]⟩

end Forms

/-! Completing an instruction. -/

/-- The instruction `i` completed: the pc is `next_pc` (rule R31), the launch parameters and XCR0 are as they were, and so are the
flags but for XADD (rule R34). -/
structure State.Completes (s : State) (i : Instr) (t : State) : Prop where
  pc : t.pc = s.nextPc i.length
  params : t.params = s.params
  xcr0 : t.xcr0 = s.xcr0
  flags : i.addsFlags = false → t.flags = s.flags

/-- The pc, the launch parameters and XCR0 are as they were. -/
structure State.SameControl (s t : State) : Prop where
  pc : t.pc = s.pc
  params : t.params = s.params
  xcr0 : t.xcr0 = s.xcr0

theorem State.SameControl.trans {s t u : State} (h : s.SameControl t) (k : t.SameControl u) : s.SameControl u :=
  ⟨k.pc.trans h.pc, k.params.trans h.params, k.xcr0.trans h.xcr0⟩

theorem State.SameButMemory.control {s t : State} (h : s.SameButMemory t) : s.SameControl t := ⟨h.pc, h.params, h.xcr0⟩

theorem State.writeReg_sameControl (s : State) (w : Width) (n : RegNum) (rex : Bool) (v : Word) :
    s.SameControl (s.writeReg w n rex v) := ⟨rfl, rfl, rfl⟩

theorem State.setFlags_sameControl (s : State) (f : Flags) : s.SameControl (s.setFlags f) := ⟨rfl, rfl, rfl⟩

theorem State.SameControl.completes {s t : State} {i : Instr} (h : s.SameControl t) (hf : i.addsFlags = false → t.flags = s.flags) :
    s.Completes i (t.advance i.length) :=
  ⟨State.nextPc_congr h.params h.pc _, h.params, h.xcr0, hf⟩

/-- An update of the elided address after an instruction has completed. -/
theorem State.Completes.setElided {s t : State} {i : Instr} (h : s.Completes i t) (e : Option Word) : s.Completes i (t.setElided e) :=
  ⟨h.pc, h.params, h.xcr0, h.flags⟩

theorem xadd_completes {w : Width} {p : Pfx} {m : ModRM} {i : Instr} {s t : State} (hi : i.addsFlags = true)
    (h : xadd w p m i.length s = .next t) : s.Completes i t := by
  have hf : ∀ u : State, i.addsFlags = false → u.flags = s.flags := fun _ hi' => by simp [hi] at hi'
  rcases xadd_next h with ⟨-, rfl⟩ | ⟨-, -, rfl⟩
  · exact State.SameControl.completes ⟨rfl, rfl, rfl⟩ (hf _)
  · refine State.SameControl.completes ?_ (hf _)
    exact (s.afterLoad_sameButMemory ..).control.trans <| (State.writeReg_sameControl ..).trans <|
      (State.store_sameButMemory ..).control.trans (State.setFlags_sameControl ..)

theorem xchg_completes {w : Width} {p : Pfx} {m : ModRM} {i : Instr} {s t : State} (h : xchg w p m i.length s = .next t) :
    s.Completes i t := by
  rcases xchg_next h with ⟨-, rfl⟩ | ⟨-, -, rfl⟩
  · exact State.SameControl.completes ⟨rfl, rfl, rfl⟩ fun _ => rfl
  · have hmem := (s.afterLoad_sameButMemory .locked w.bytes (s.memRef p m i.length).addr).trans (State.store_sameButMemory _ .locked
      w.bytes (s.memRef p m i.length).addr (s.readReg w (m.regNum p) p.hasRex))
    exact State.SameControl.completes (hmem.control.trans ⟨rfl, rfl, rfl⟩) fun _ => hmem.flags

theorem xchgAcc_completes {w : Width} {p : Pfx} {r : BitVec 3} {i : Instr} {s t : State}
    (h : xchgAcc w p r i.length s = .next t) : s.Completes i t := by
  rw [xchgAcc_next] at h
  cases h
  split_ifs <;> exact State.SameControl.completes ⟨rfl, rfl, rfl⟩ fun _ => rfl

theorem hintedPlain_completes {h : Hinted} {s t : State} (hx : hintedPlain h s = .next t) : s.Completes h.plain t := by
  have hf := Hinted.plain_addsFlags h
  obtain ⟨op, p, m⟩ := h
  cases op with
  | xadd w => exact xadd_completes hf hx
  | xchg w => exact xchg_completes hx

/-- Every instruction outside RTM completes where it answers a next state. -/
theorem exec_completes {i : Instr} {s t : State} (hi : i.isRtm = false) (h : exec i s = .next t) : s.Completes i t := by
  rcases i.kinds with ⟨k, hk⟩ | ⟨o, p, r, rfl⟩ | hr | ⟨p, rfl⟩ | ⟨p, rfl⟩
  · obtain ⟨u, e, hu, rfl⟩ := exec_forms_next hk h
    obtain ⟨hpc, hparams, hxcr0, hflags⟩ := (hintedPlain_completes hu).setElided e
    exact ⟨hk.length ▸ hpc, hparams, hxcr0, hk.addsFlags ▸ hflags⟩
  · rw [exec_xchgAcc] at h
    cases o <;> exact xchgAcc_completes h
  · simp [hi] at hr
  · obtain ⟨-, -, rfl⟩ := execXgetbv_next h
    exact State.SameControl.completes (i := .xgetbv p) ⟨rfl, rfl, rfl⟩ fun _ => rfl
  · obtain ⟨-, rfl⟩ := execXlat_next h
    have hmem := s.afterLoad_sameButMemory .single 1 (s.xlatRef p).addr
    exact State.SameControl.completes (i := .xlat p) (hmem.control.trans ⟨rfl, rfl, rfl⟩) fun _ => hmem.flags

/-! Aborting a region. -/

/-- RTM abort processing took place (rule R164), the store buffer drained before it or not; the cause was in a region, or an XBEGIN
at the limit. -/
def State.Aborts (s t : State) : Prop :=
  (s.rtmActive = true ∨ s.rtmNest = s.params.maxNest) ∧
    ∃ r f status d u, s.rtmSaved = some r ∧ s.fallback = some f ∧ (u = s ∨ u = s.drain) ∧ t = (u.setDraws d).aborted r f status

theorem abortOther_aborts {s t : State} (hs : s.rtmActive = true ∨ s.rtmNest = s.params.maxNest) (h : abortOther s = .next t) :
    s.Aborts t := by
  obtain ⟨r, f, hr, hf, rfl⟩ := abortOther_next h
  exact ⟨hs, r, f, _, _, s, hr, hf, .inl rfl, rfl⟩

theorem execXabort_next_cases {p : Pfx} {imm8 : BitVec 8} {s t : State} (h : exec (.xabort p imm8) s = .next t) :
    (s.rtmActive = false ∧ t = s.advance (p.length + 3)) ∨ s.Aborts t := by
  obtain ⟨-, ⟨hs, rfl⟩ | ⟨hs, r, f, hr, hf, rfl⟩⟩ := execXabort_next h
  · exact .inl ⟨hs, rfl⟩
  · exact .inr ⟨.inl hs, r, f, _, _, s, hr, hf, .inl rfl, rfl⟩

theorem xbegin_next_cases {target : Word} {len : Nat} {s t : State} (h : xbegin target len s = .next t) :
    (s.rtmNest ≠ s.params.maxNest
      ∧ t = ((if s.rtmActive then s else s.beginRegion target).setNest (s.rtmNest + 1)).advance len) ∨ s.Aborts t := by
  obtain ⟨-, ⟨hn, r, f, hr, hf, rfl⟩ | ⟨hn, hs, rfl⟩ | ⟨hn, hs, rfl⟩⟩ := xbegin_next h
  · exact .inr ⟨.inr hn, r, f, _, _, s, hr, hf, .inl rfl, rfl⟩
  · exact .inl ⟨hn, by rw [if_pos hs]⟩
  · exact .inl ⟨hn, by rw [if_neg (by simp [hs])]⟩

/-- The state after the outermost XEND has committed (rules R77, R222). -/
def State.committed (s : State) : State := ((s.setNest 0).drain.afterDraw.publish).endRegion

section Committed

variable (s : State)

@[simp] theorem State.committed_regs : s.committed.regs = s.regs := by simp [State.committed]
@[simp] theorem State.committed_pc : s.committed.pc = s.pc := by simp [State.committed]
@[simp] theorem State.committed_flags : s.committed.flags = s.flags := by simp [State.committed]
@[simp] theorem State.committed_xcr0 : s.committed.xcr0 = s.xcr0 := by simp [State.committed]
@[simp] theorem State.committed_params : s.committed.params = s.params := by simp [State.committed]
@[simp] theorem State.committed_hleElided : s.committed.hleElided = s.hleElided := by simp [State.committed]
@[simp] theorem State.committed_bus : s.committed.bus = s.bus := by simp [State.committed]
@[simp] theorem State.committed_rtmActive : s.committed.rtmActive = false := by simp [State.committed]
@[simp] theorem State.committed_rtmNest : s.committed.rtmNest = 0 := by simp [State.committed]
@[simp] theorem State.committed_rtmSaved : s.committed.rtmSaved = none := by simp [State.committed]
@[simp] theorem State.committed_fallback : s.committed.fallback = none := by simp [State.committed]
@[simp] theorem State.committed_writeSet : s.committed.writeSet = [] := by simp [State.committed]
@[simp] theorem State.committed_readSet : s.committed.readSet = [] := by simp [State.committed]
@[simp] theorem State.committed_storeBuffer : s.committed.storeBuffer = [] := by simp [State.committed]
@[simp] theorem State.committed_mem : s.committed.mem = (s.mem.writeAll s.storeBuffer).writeAll s.writeSet := by
  simp [State.committed]
@[simp] theorem State.nextPc_committed (len : Nat) : s.committed.nextPc len = s.nextPc len := by simp [State.committed]

theorem State.committed_sameControl : s.SameControl s.committed := ⟨s.committed_pc, s.committed_params, s.committed_xcr0⟩

end Committed

/-- Abort processing looks at the count no more. -/
theorem State.aborted_of_commit (s : State) (n : Nat) (r : Saved) (f : Word) (status : BitVec 32) :
    (s.setNest n).drain.afterDraw.afterDraw.aborted r f status
      = (s.drain.setDraws s.afterDraw.afterDraw.draws).aborted r f status := rfl

theorem execXend_next_cases {p : Pfx} {s t : State} (h : exec (.xend p) s = .next t) :
    s.rtmActive = true ∧
      ((s.rtmNest - 1 ≠ 0 ∧ t = (s.setNest (s.rtmNest - 1)).advance (p.length + 3))
        ∨ (s.rtmNest - 1 = 0 ∧ t = s.committed.advance (p.length + 3)) ∨ s.Aborts t) := by
  obtain ⟨-, hs, ⟨hn, hc⟩ | ⟨hn, rfl⟩⟩ := execXend_next h
  · refine ⟨hs, .inr ?_⟩
    rw [hn] at hc
    rcases commit_next hc with ⟨-, -, rfl⟩ | ⟨-, r, f, hr, hf, rfl⟩
    · exact .inl ⟨hn, rfl⟩
    · exact .inr ⟨.inl hs, r, f, _, _, s.drain, hr, hf, .inr rfl, s.aborted_of_commit 0 r f _⟩
  · exact ⟨hs, .inl ⟨hn, rfl⟩⟩

theorem xbegin_completes {target : Word} {i : Instr} {s t : State}
    (h : xbegin target i.length s = .next t) : s.Completes i t ∨ s.Aborts t := by
  rcases xbegin_next_cases h with ⟨-, rfl⟩ | ha
  · left
    split_ifs <;> exact State.SameControl.completes ⟨rfl, rfl, rfl⟩ fun _ => rfl
  · exact .inr ha

/-- Every instruction that answers a next state completes or aborts a region. -/
theorem exec_next {i : Instr} {s t : State} (h : exec i s = .next t) : s.Completes i t ∨ s.Aborts t := by
  cases hi : i.isRtm with
  | false => exact .inl (exec_completes hi h)
  | true =>
    rcases Instr.isRtm_cases hi with ⟨p, imm8, rfl⟩ | ⟨p, rel, rfl⟩ | ⟨p, rel, rfl⟩ | ⟨p, rfl⟩
    · exact (execXabort_next_cases h).imp_left fun ⟨_, ht⟩ =>
        ht ▸ State.SameControl.completes (i := .xabort p imm8) ⟨rfl, rfl, rfl⟩ fun _ => rfl
    · exact xbegin_completes (i := .xbeginRel16 p rel) h
    · exact xbegin_completes (i := .xbeginRel32 p rel) h
    · obtain ⟨-, ⟨-, rfl⟩ | ⟨-, rfl⟩ | ha⟩ := execXend_next_cases h
      · exact .inl (State.SameControl.completes (i := .xend p) ⟨rfl, rfl, rfl⟩ fun _ => rfl)
      · exact .inl (s.committed_sameControl.completes (i := .xend p) fun _ => s.committed_flags)
      · exact .inr ha

/-! What the invariant says of an abort. -/

/-- Only inside a region is there a cause for an abort: the limit of the count is at least 1 (rule R43). -/
theorem State.RegionInv.active {s : State} (h : s.RegionInv) (hs : s.rtmActive = true ∨ s.rtmNest = s.params.maxNest) :
    s.rtmActive = true := by
  rcases hs with hs | hs
  · exact hs
  · exact h.active_iff.2 (hs ▸ h.limit_pos)

/-- What an abort leaves, from a state that meets the invariant: the parameters and XCR0 as they were, the region closed, the pc at
the fallback address, the saved flags. -/
theorem State.Aborts.outcome {s t : State} (h : s.Aborts t) (hi : s.RegionInv) :
    s.rtmActive = true ∧ t.rtmActive = false ∧ t.params = s.params ∧ t.xcr0 = s.xcr0 ∧ s.fallback = some t.pc
      ∧ ∃ r, s.rtmSaved = some r ∧ t.flags = r.flags := by
  obtain ⟨hs, r, f, status, d, u, hr, hf, hu, rfl⟩ := h
  have ha := hi.active hs
  obtain ⟨r', hr', hx⟩ := hi.saved ha
  rw [hr] at hr'
  cases hr'
  have hp : u.params = s.params := by rcases hu with rfl | rfl <;> rfl
  simp only [State.aborted_rtmActive, State.aborted_params, State.aborted_xcr0, State.aborted_pc, State.aborted_flags]
  exact ⟨ha, trivial, hp, hx, hf, r, hr, rfl⟩

/-- Settles O17: every instruction completes or aborts. -/
theorem onlyAbortsTransferControl : Obligations.OnlyAbortsTransferControl := by
  intro i s t hi h
  rcases exec_next h with hc | ha
  · exact .inl hc.pc
  · obtain ⟨hs, ht, -, -, hpc, -⟩ := ha.outcome hi.region
    exact .inr ⟨hs, ht, hpc⟩

/-- Settles O18: every instruction but XADD completes with the flags as they were, or aborts. -/
theorem onlyXaddAndAbortsWriteFlags : Obligations.OnlyXaddAndAbortsWriteFlags := by
  intro i s t hi hflags h
  rcases exec_next h with hc | ha
  · exact .inl (hc.flags hflags)
  · obtain ⟨hs, ht, -, -, hpc, hr⟩ := ha.outcome hi.region
    exact .inr ⟨hs, ht, hpc, hr⟩

/-- Settles O35: XCHG completes and is no XADD. -/
theorem xchgWritesNoFlag : Obligations.XchgWritesNoFlag := by
  intro i s t hi h
  rcases hi with ⟨w, p, m, rfl⟩ | ⟨o, p, r, rfl⟩
  · cases w <;> exact (exec_completes rfl h).flags rfl
  · cases o <;> exact (exec_completes rfl h).flags rfl

/-- Settles O57: XGETBV completes and is no XADD. -/
theorem xgetbvWritesNoFlag : Obligations.XgetbvWritesNoFlag :=
  fun _ _ _ h => (exec_completes rfl h).flags rfl

/-! Faults and refusals. -/

/-- The rows of 60_exceptions.md section 1's table: when the instruction `i` may raise the exception `e` with this code. -/
def State.TableRaises (s : State) (i : Instr) (e : Exc) (code : Option (BitVec 32)) : Prop :=
  (e = .ud ∧ code = none ∧ ((i.isRtm = true ∧ s.params.cpuidRtm = false) ∨ ((∃ p, i = .xgetbv p) ∧ s.params.osxsave = false)))
    ∨ (e = .gp ∧ code = some 0#32 ∧ (((∃ p, i = .xend p) ∧ s.rtmActive = false)
        ∨ ((∃ p, i = .xgetbv p) ∧ (s.getReg 1#4).toNat % 2 ^ 32 ≠ 0)))
    ∨ (∃ h : Hinted, h.Forms i ∧ h.m.isMem = true
        ∧ s.askAdmit .rmw (s.memRef h.p h.m i.length) h.op.width.bytes = some { exc := e, code := code })
    ∨ (∃ p, i = .xlat p ∧ s.askAdmit .read (s.xlatRef p) 1 = some { exc := e, code := code })

/-- A fault of the instruction `i`: a row of the table at the pc of the instruction, or an abort without a record (log entry 36). -/
def State.FaultOf (s : State) (i : Instr) (f : Fault) : Prop :=
  (∃ e code, f = .exception e code s.pc ∧ s.TableRaises i e code)
    ∨ (f = .abortWithoutRecord ∧ (s.rtmActive = true ∨ s.rtmNest = s.params.maxNest) ∧ (s.rtmSaved = none ∨ s.fallback = none))

theorem rtmAbort_fault {status : BitVec 32} {s : State} {f : Fault} (h : rtmAbort status s = .fault f) :
    f = .abortWithoutRecord ∧ (s.rtmSaved = none ∨ s.fallback = none) := by
  unfold rtmAbort at h
  cases hr : s.rtmSaved with
  | none => rw [hr] at h; cases h; exact ⟨rfl, .inl rfl⟩
  | some r =>
    cases hf : s.fallback with
    | none => rw [hr, hf] at h; cases h; exact ⟨rfl, .inr rfl⟩
    | some f => rw [hr, hf] at h; cases h

theorem needsRtm_fault {i : Instr} (hi : i.isRtm = true) {s : State} {r : Result} {f : Fault} (h : needsRtm s r = .fault f)
    (hr : r = .fault f → s.FaultOf i f) : s.FaultOf i f := by
  unfold needsRtm at h
  split_ifs at h with hc
  · exact hr h
  · cases h; exact .inl ⟨_, _, rfl, .inl ⟨rfl, rfl, .inl ⟨hi, by simpa using hc⟩⟩⟩

theorem xbegin_fault {target : Word} {len : Nat} {i : Instr} (hi : i.isRtm = true) {s : State} {f : Fault}
    (h : xbegin target len s = .fault f) : s.FaultOf i f := by
  refine needsRtm_fault hi h fun h => ?_
  split_ifs at h with hn
  obtain ⟨rfl, hrec⟩ := rtmAbort_fault h
  exact .inr ⟨rfl, .inr hn, hrec⟩

theorem execXabort_fault {p : Pfx} {imm8 : BitVec 8} {s : State} {f : Fault} (h : execXabort p imm8 s = .fault f) :
    s.FaultOf (.xabort p imm8) f := by
  refine needsRtm_fault rfl h fun h => ?_
  split_ifs at h with ha
  obtain ⟨rfl, hrec⟩ := rtmAbort_fault h
  exact .inr ⟨rfl, .inl ha, hrec⟩

theorem execXend_fault {p : Pfx} {s : State} {f : Fault} (h : execXend p s = .fault f) : s.FaultOf (.xend p) f := by
  refine needsRtm_fault rfl h fun h => ?_
  split_ifs at h with ha
  · simp only [commit] at h
    split_ifs at h
    obtain ⟨rfl, hrec⟩ := rtmAbort_fault h
    exact .inr ⟨rfl, .inl ha, hrec⟩
  · cases h
    exact .inl ⟨_, _, rfl, .inr (.inl ⟨rfl, rfl, .inl ⟨⟨p, rfl⟩, by simpa using ha⟩⟩)⟩

theorem execXgetbv_fault {p : Pfx} {s : State} {f : Fault} (h : execXgetbv p s = .fault f) : s.FaultOf (.xgetbv p) f := by
  unfold execXgetbv at h
  split_ifs at h with hos hecx <;> cases h
  · refine .inl ⟨_, _, rfl, .inr (.inl ⟨rfl, rfl, .inr ⟨⟨p, rfl⟩, fun h0 => hecx ?_⟩⟩)⟩
    exact BitVec.eq_of_toNat_eq (by simpa using h0)
  · exact .inl ⟨_, _, rfl, .inl ⟨rfl, rfl, .inr ⟨⟨p, rfl⟩, by simpa using hos⟩⟩⟩

theorem execXlat_of_denied {p : Pfx} {s : State} {e : Raised} (h : s.askAdmit .read (s.xlatRef p) 1 = some e) :
    execXlat p s = raise e s := by
  unfold execXlat; simp only [h]

theorem execXlat_of_admitted {p : Pfx} {s : State} (h : s.askAdmit .read (s.xlatRef p) 1 = none) :
    execXlat p s = .next (((s.afterLoad .single 1 (s.xlatRef p).addr).writeReg .w8 0#4 p.hasRex
        (s.loadValue .single 1 (s.xlatRef p).addr)).advance (p.length + 1)) := by
  unfold execXlat; simp only [h]; rfl

/-- Every fault of an instruction is one of the table's, or an abort without a record. -/
theorem exec_fault {i : Instr} {s : State} {f : Fault} (h : exec i s = .fault f) : s.FaultOf i f := by
  rcases i.kinds with ⟨k, hk⟩ | ⟨o, p, r, rfl⟩ | hr | ⟨p, rfl⟩ | ⟨p, rfl⟩
  · rcases exec_forms_cases hk s with ⟨t, ht⟩ | ⟨hm, hs⟩
    · rw [h] at ht; cases ht
    · rw [h] at hs
      rcases State.rmwStop_eq_some hs with ⟨e, he, hr⟩ | ⟨-, -, hr⟩ <;> cases hr
      exact .inl ⟨_, _, rfl, .inr (.inr (.inl ⟨k, hk, hm, he⟩))⟩
  · rw [exec_xchgAcc, xchgAcc_next] at h; cases h
  · rcases Instr.isRtm_cases hr with ⟨p, imm8, rfl⟩ | ⟨p, rel, rfl⟩ | ⟨p, rel, rfl⟩ | ⟨p, rfl⟩
    · exact execXabort_fault h
    · exact xbegin_fault rfl h
    · exact xbegin_fault rfl h
    · exact execXend_fault h
  · exact execXgetbv_fault h
  · cases ha : s.askAdmit .read (s.xlatRef p) 1 with
    | none => rw [exec, execXlat_of_admitted ha] at h; cases h
    | some e => rw [exec, execXlat_of_denied ha] at h; cases h; exact .inl ⟨_, _, rfl, .inr (.inr (.inr ⟨p, rfl, ha⟩))⟩

/-- Settles O19: an exception is no abort without a record. -/
theorem exceptionsAreThoseOfTheTable : Obligations.ExceptionsAreThoseOfTheTable := by
  intro i s e code pc h
  rcases exec_fault h with ⟨e, code, hf, htable⟩ | ⟨hf, -, -⟩ <;> cases hf
  exact ⟨rfl, htable⟩

theorem needsRtm_not_refused {s : State} {r : Result} (h : ∀ x, r ≠ .refused x) (x : Refusal) : needsRtm s r ≠ .refused x := by
  unfold needsRtm
  split_ifs
  · exact h x
  · simp [raise]

theorem rtmAbort_not_refused (status : BitVec 32) (s : State) (x : Refusal) : rtmAbort status s ≠ .refused x := by
  unfold rtmAbort
  split <;> simp

theorem xbegin_not_refused (target : Word) (len : Nat) (s : State) (x : Refusal) : xbegin target len s ≠ .refused x := by
  refine needsRtm_not_refused (fun x => ?_) x
  split_ifs
  · exact rtmAbort_not_refused _ _ x
  all_goals simp

theorem commit_not_refused (len : Nat) (s : State) (x : Refusal) : commit len s ≠ .refused x := by
  simp only [commit]
  split_ifs
  · simp
  · exact rtmAbort_not_refused _ _ x

/-- No instruction of RTM is refused. -/
theorem exec_rtm_not_refused {i : Instr} (hi : i.isRtm = true) (s : State) (x : Refusal) : exec i s ≠ .refused x := by
  rcases Instr.isRtm_cases hi with ⟨p, imm8, rfl⟩ | ⟨p, rel, rfl⟩ | ⟨p, rel, rfl⟩ | ⟨p, rfl⟩
  · refine needsRtm_not_refused (fun x => ?_) x
    split_ifs
    · exact rtmAbort_not_refused _ _ x
    · simp
  · exact xbegin_not_refused _ _ s x
  · exact xbegin_not_refused _ _ s x
  · refine needsRtm_not_refused (fun x => ?_) x
    by_cases ha : s.rtmActive = true
    · rw [if_pos ha]
      show (if s.rtmNest - 1 = 0 then commit _ (s.setNest (s.rtmNest - 1)) else _) ≠ _
      split_ifs
      · exact commit_not_refused _ _ x
      · simp
    · rw [if_neg ha]; simp [raise]

/-- Settles O20: only a stopped read-modify-write is refused. -/
theorem onlyStoresToTextAreRefused : Obligations.OnlyStoresToTextAreRefused := by
  intro i s r h
  rcases i.kinds with ⟨k, hk⟩ | ⟨o, p, x, rfl⟩ | hr | ⟨p, rfl⟩ | ⟨p, rfl⟩
  · rcases exec_forms_cases hk s with ⟨t, ht⟩ | ⟨hm, hs⟩
    · rw [h] at ht; cases ht
    · rw [h] at hs
      rcases State.rmwStop_eq_some hs with ⟨e, -, he⟩ | ⟨ha, ht, he⟩ <;> cases he
      exact ⟨rfl, k, hk, hm, ha, ht⟩
  · rw [exec_xchgAcc, xchgAcc_next] at h; cases h
  · exact absurd h (exec_rtm_not_refused hr s r)
  · simp only [exec, execXgetbv, raise] at h
    split_ifs at h
  · cases ha : s.askAdmit .read (s.xlatRef p) 1 with
    | none => rw [exec, execXlat_of_admitted ha] at h; cases h
    | some e => rw [exec, execXlat_of_denied ha] at h; cases h

/-- Settles O39: hinted or not, the access is asked about once, before anything else. -/
theorem deniedReadModifyWriteStops : Obligations.DeniedReadModifyWriteStops := by
  intro h s hm
  have stop : ∀ {i r}, h.Forms i → s.rmwStop (s.memRef h.p h.m h.plain.length) h.op.width.bytes = some r → exec i s = r :=
    fun hi hs => exec_forms_stop hi hm (hi.length ▸ hs)
  constructor
  · intro e he
    have hs := State.rmwStop_denied he
    exact ⟨stop (.inl rfl) hs, stop (.inr (.inl rfl)) hs, stop (.inr (.inr rfl)) hs⟩
  · intro ha ht
    have hs := State.rmwStop_text ha ht
    exact ⟨stop (.inl rfl) hs, stop (.inr (.inl rfl)) hs, stop (.inr (.inr rfl)) hs⟩

/-- Settles O60. -/
theorem deniedXlatFaults : Obligations.DeniedXlatFaults :=
  fun _ _ _ he => execXlat_of_denied he

/-- Settles O45: the feature is looked at first. -/
theorem rtmInstructionsNeedTheFeature : Obligations.RtmInstructionsNeedTheFeature := by
  intro i s hi hc
  have hud : ∀ r, needsRtm s r = .fault (.exception .ud none s.pc) := fun r => by
    unfold needsRtm; rw [if_neg (by simp [hc])]; rfl
  rcases Instr.isRtm_cases hi with ⟨p, imm8, rfl⟩ | ⟨p, rel, rfl⟩ | ⟨p, rel, rfl⟩ | ⟨p, rfl⟩
  all_goals exact hud _

/-- Settles O58: the feature is looked at before ECX. -/
theorem xgetbvNeedsTheFeature : Obligations.XgetbvNeedsTheFeature := by
  intro p s hos
  simp only [exec, execXgetbv, hos, Bool.false_eq_true, if_false]
  rfl

end Sys2Proof.Machine
end

section
/-! The step of the machine: what it executes, and the invariant that every step keeps (rules R30, R43 to R45, R76 to R80, R83). -/

namespace Sys2Proof.Machine

/-! What the step executes. -/

/-- The state in which a step fetches its instruction: after what landed and, inside a region, after the draw that decides a
spontaneous abort (rules R166, R264). -/
def State.fetching (s : State) : State := if s.rtmActive then s.land.afterDraw else s.land

theorem State.fetching_sameButMemory (s : State) : s.SameButMemory s.fetching := s.fetchState_sameButMemory

/-- A draw shows this processor nothing. -/
theorem State.fetching_viewByte (s : State) (a : Nat) : s.fetching.viewByte a = s.land.viewByte a := by
  unfold State.fetching; split_ifs <;> rfl

theorem State.askAdmit_congr {s t : State} (h : t.params = s.params) (k : AccessKind) (m : MemRef) (n : Nat) :
    t.askAdmit k m n = s.askAdmit k m n := by
  unfold State.askAdmit; rw [h]

/-- Where no store of another processor is to the program text and no spontaneous abort is chosen, a step runs the instruction at
the pc. -/
theorem step_eq_runInstr {s : State} (hb : s.busHitsText = false) (hc : s.rtmActive = true → s.land.chosen = false) :
    step s = runInstr s.fetching := by
  unfold step oneStep boundary State.fetching
  rw [if_neg (by simp [hb]), State.land_rtmActive]
  cases ha : s.rtmActive with
  | false => rfl
  | true => simp [hc ha]

theorem runInstr_of_decode {u : State} {i : Instr} (h : decode u.params.code (u.window maxLength u.pc.toNat).1 = .ok i) :
    runInstr u = exec i u := by
  unfold runInstr State.fetch; simp only [h]

/-- Settles O10. -/
theorem stepRunsTheDecodedInstruction : Obligations.StepRunsTheDecodedInstruction :=
  fun _ _ hb hc hd => (step_eq_runInstr hb hc).trans (runInstr_of_decode hd)

/-- Bytes that stand at an address, each admitted for fetch and below the top of the address space, begin the window there. -/
theorem State.window_of_bytes (u : State) {bs : List Byte} {n : Nat} (hn : bs.length ≤ n) {a : Nat}
    (h : ∀ (k : Nat) (hk : k < bs.length), a + k < 2 ^ Mode.linearBits u.mode
      ∧ u.askAdmit .fetch { seg := .cs, off := BitVec.ofNat 64 (a + k), addr := BitVec.ofNat 64 (a + k) } 1 = none
      ∧ u.viewByte (u.phys (BitVec.ofNat 64 (a + k))) = bs[k]) : ∃ rest, (u.window n a).1 = bs ++ rest := by
  induction bs generalizing n a with
  | nil => exact ⟨_, rfl⟩
  | cons b bs ih =>
    obtain ⟨n, rfl⟩ : ∃ n', n = n' + 1 := ⟨n - 1, by simp at hn; omega⟩
    obtain ⟨htop, hadmit, hbyte⟩ := h 0 (by simp)
    obtain ⟨rest, hrest⟩ := ih (n := n) (a := a + 1) (by simpa using hn) fun k hk => by
      have := h (k + 1) (by simpa using hk)
      rwa [show a + (k + 1) = a + 1 + k by omega, List.getElem_cons_succ] at this
    simp only [Nat.add_zero, List.getElem_cons_zero] at htop hadmit hbyte
    refine ⟨rest, ?_⟩
    unfold State.window
    simp only [if_neg (Nat.not_le.2 htop), hadmit, hbyte, hrest]
    rfl

theorem encode_length (i : Instr) : (encode i).length = i.length := by
  cases i with
  | xacquire h => exact Laws.EncodeLength.xacquire h
  | xrelease h => exact Laws.EncodeLength.xrelease h
  | xabort p imm8 => exact Laws.EncodeLength.xabort p imm8
  | xaddRm8 p m => exact Laws.EncodeLength.xaddRm8 p m
  | xaddRm16 p m => exact Laws.EncodeLength.xaddRm16 p m
  | xaddRm32 p m => exact Laws.EncodeLength.xaddRm32 p m
  | xaddRm64 p m => exact Laws.EncodeLength.xaddRm64 p m
  | xbeginRel16 p rel => exact Laws.EncodeLength.xbeginRel16 p rel
  | xbeginRel32 p rel => exact Laws.EncodeLength.xbeginRel32 p rel
  | xchgAcc16 p r => exact Laws.EncodeLength.xchgAcc16 p r
  | xchgAcc32 p r => exact Laws.EncodeLength.xchgAcc32 p r
  | xchgAcc64 p r => exact Laws.EncodeLength.xchgAcc64 p r
  | xchgRm8 p m => exact Laws.EncodeLength.xchgRm8 p m
  | xchgRm16 p m => exact Laws.EncodeLength.xchgRm16 p m
  | xchgRm32 p m => exact Laws.EncodeLength.xchgRm32 p m
  | xchgRm64 p m => exact Laws.EncodeLength.xchgRm64 p m
  | xend p => exact Laws.EncodeLength.xend p
  | xgetbv p => exact Laws.EncodeLength.xgetbv p
  | xlat p => exact Laws.EncodeLength.xlat p

/-- Settles O11: the window begins with the encoding, which decodes whatever follows it. -/
theorem stepRunsTheEncodedInstructionInMemory : Obligations.StepRunsTheEncodedInstructionInMemory := by
  intro s i hb hc hw hbytes
  have hsame := s.fetching_sameButMemory
  have hlen : (encode i).length ≤ maxLength := by
    rw [encode_length]; exact (Instr.wf_iff.1 hw).2.2.2
  obtain ⟨rest, hrest⟩ := s.fetching.window_of_bytes (a := s.pc.toNat) hlen fun k hk => by
    obtain ⟨htop, hadmit, hbyte⟩ := hbytes k hk
    refine ⟨?_, ?_, ?_⟩
    · unfold State.mode; rw [hsame.params]; exact htop
    · rw [State.askAdmit_congr hsame.params]; exact hadmit
    · rw [State.phys_congr hsame.params, State.fetching_viewByte]; exact hbyte
  rw [step_eq_runInstr hb hc]
  refine runInstr_of_decode (u := s.fetching) ?_
  rw [hsame.pc, hsame.params, hrest]
  exact decodeOfEncodeGivesTheInstruction _ i rest hw

/-- A denied first byte leaves nothing to decode. -/
theorem State.window_denied {u : State} {e : Raised} {a : Word} (ha : a.toNat < 2 ^ Mode.linearBits u.mode)
    (h : u.askAdmit .fetch { seg := .cs, off := a, addr := a } 1 = some e) (n : Nat) :
    u.window (n + 1) a.toNat = ([], .denied e) := by
  unfold State.window
  simp only [if_neg (Nat.not_le.2 ha), BitVec.ofNat_toNat, BitVec.setWidth_eq, h]

/-- Settles O12: no byte is fetched, and the instruction needs one. -/
theorem deniedFetchFaults : Obligations.DeniedFetchFaults := by
  intro s e hb hc htop he
  have hsame := s.fetching_sameButMemory
  have hw : s.fetching.window maxLength s.fetching.pc.toNat = ([], .denied e) := by
    refine State.window_denied ?_ ?_ 14
    · unfold State.mode; rw [hsame.params, hsame.pc]; exact htop
    · rw [State.askAdmit_congr hsame.params, hsame.pc]; exact he
  rw [step_eq_runInstr hb hc]
  unfold runInstr State.fetch
  simp only [hw]
  show Host.Outcome.fault (Fault.exception e.exc e.code s.fetching.pc) = _
  rw [hsame.pc]

/-! The data of the invariant: memory, the sets and the store buffer. -/

/-- Memory, the two sets and the store buffer are as the invariant has them. -/
structure State.DataInv (s : State) : Prop where
  memory : s.MemoryInv
  buffer : s.BufferInv

/-- Memory, the two sets and the store buffer are as they were, and so are the launch parameters and the active bit. -/
structure State.SameData (s t : State) : Prop where
  mem : t.mem = s.mem
  writeSet : t.writeSet = s.writeSet
  readSet : t.readSet = s.readSet
  storeBuffer : t.storeBuffer = s.storeBuffer
  active : t.rtmActive = s.rtmActive
  params : t.params = s.params

theorem State.DataInv.of_sameData {s t : State} (h : s.DataInv) (k : s.SameData t) : t.DataInv := by
  obtain ⟨⟨hwf, hwrite, hread, hempty, htext⟩, hsc, hbtext⟩ := h
  have hin := State.inText_congr k.params
  constructor
  · constructor
    · rw [k.mem]; exact hwf
    · rw [k.writeSet]; exact hwrite
    · rw [k.readSet]; exact hread
    · rw [k.active, k.writeSet, k.readSet]; exact hempty
    · rw [k.writeSet, hin]; exact htext
  · constructor
    · rw [k.params, k.storeBuffer]; exact hsc
    · rw [k.storeBuffer, hin]; exact hbtext

/-- What moves memory in its canonical form, leaves the sets and only takes from the store buffer keeps the data. -/
theorem State.DataInv.of_drained {s t : State} (h : s.DataInv) (hmem : t.mem.wf) (hw : t.writeSet = s.writeSet)
    (hr : t.readSet = s.readSet) (ha : t.rtmActive = s.rtmActive) (hp : t.params = s.params)
    (hb : t.storeBuffer <:+ s.storeBuffer) : t.DataInv := by
  obtain ⟨⟨-, hwrite, hread, hempty, htext⟩, hsc, hbtext⟩ := h
  have hin := State.inText_congr hp
  constructor
  · constructor
    · exact hmem
    · rw [hw]; exact hwrite
    · rw [hr]; exact hread
    · rw [ha, hw, hr]; exact hempty
    · rw [hw, hin]; exact htext
  · constructor
    · rw [hp]; exact fun hc => List.suffix_nil.1 (hsc hc ▸ hb)
    · rw [hin]; exact fun c hc => hbtext c (hb.subset hc)

theorem State.DataInv.land {s : State} (h : s.DataInv) : s.land.DataInv :=
  h.of_drained (s.land_mem_wf h.memory.mem_wf) s.land_writeSet s.land_readSet s.land_rtmActive s.land_params s.land_buffer_suffix

theorem State.DataInv.drain {s : State} (h : s.DataInv) : s.drain.DataInv :=
  h.of_drained ((s.drainTo_queued _).mem_wf h.memory.mem_wf) rfl rfl rfl rfl (by simp)

theorem State.DataInv.afterLoad {s : State} (h : s.DataInv) (k : Atomicity) (n : Nat) (a : Word) : (s.afterLoad k n a).DataInv := by
  have hsame := s.afterLoad_sameButMemory k n a
  have hsuffix := s.afterLoad_buffer_suffix k n a
  obtain ⟨⟨hwf, hwrite, hread, hempty, htext⟩, hsc, hbtext⟩ := h
  have hin := State.inText_congr hsame.params
  constructor
  · constructor
    · exact State.afterLoad_mem_wf hwf k n a
    · rw [State.afterLoad_writeSet]; exact hwrite
    · exact State.afterLoad_read_rising hread k n a
    · rw [hsame.region.active, State.afterLoad_writeSet]
      exact fun ha => by rw [State.afterLoad_readSet_inactive ha]; exact hempty ha
    · rw [State.afterLoad_writeSet, hin]; exact htext
  · constructor
    · rw [hsame.params]; exact fun hc => List.suffix_nil.1 (hsc hc ▸ hsuffix)
    · rw [hin]; exact fun c hc => hbtext c (hsuffix.subset hc)

theorem State.storeHitsText_congr {s t : State} (h : t.params = s.params) (n : Nat) (a : Word) :
    t.storeHitsText n a = s.storeHitsText n a := by
  unfold State.storeHitsText; rw [State.byteAddrs_congr h, State.inText_congr h]

/-- A store that changes no byte of the program text (rule R83) keeps the data. -/
theorem State.DataInv.store {s : State} (h : s.DataInv) {k : Atomicity} {n : Nat} {a : Word} (ht : s.storeHitsText n a = false)
    (v : Word) : (s.store k n a v).DataInv := by
  have hsame := s.store_sameButMemory k n a v
  obtain ⟨⟨hwf, hwrite, hread, hempty, htext⟩, hsc, hbtext⟩ := h
  have hin := State.inText_congr hsame.params
  have haddr : ∀ x ∈ s.byteAddrs (splitBytes n v).length a, s.inText x = false := by
    rw [splitBytes_length]; simpa [State.storeHitsText] using ht
  constructor
  · constructor
    · exact State.storeBytes_mem_wf hwf k _ a
    · exact State.storeBytes_write_rising hwrite k _ a
    · rw [State.store_readSet]; exact hread
    · rw [hsame.region.active, State.store_readSet]
      exact fun ha => ⟨(State.storeBytes_writeSet_inactive ha k _ a).trans (hempty ha).1, (hempty ha).2⟩
    · rw [hin]
      exact fun c hc => (State.storeBytes_writeSet_mem k _ a s hc).elim (htext c) (haddr _)
  · constructor
    · rw [hsame.params]
      exact fun hc => State.storeBytes_buffer_nil (by simp [State.storesAtOnce, hc]) (hsc hc) _ a
    · rw [hin]
      exact fun c hc => (State.storeBytes_buffer_mem k _ a s hc).elim (hbtext c) (haddr _)

/-- Once both sets are empty, memory alone has a form to keep. -/
theorem State.dataInv_of_emptySets {t : State} (hmem : t.mem.wf) (hw : t.writeSet = []) (hr : t.readSet = []) (hb : t.BufferInv) :
    t.DataInv where
  memory :=
    { mem_wf := hmem
      write_rising := by rw [hw]; exact Cells.rising_nil
      read_rising := by rw [hr]; exact Cells.rising_nil
      sets_empty := fun _ => ⟨hw, hr⟩
      text_kept := by simp [hw] }
  buffer := hb

/-! The bookkeeping of regions. -/

theorem State.fitsLinear_congr {s t : State} (h : t.params = s.params) (v : Word) : t.fitsLinear v ↔ s.fitsLinear v := by
  unfold State.fitsLinear; rw [State.wrap_congr h]

theorem State.RegionInv.of_same {s t : State} (h : s.RegionInv) (hr : s.SameRegion t) (hp : t.params = s.params)
    (hx : t.xcr0 = s.xcr0) : t.RegionInv := by
  obtain ⟨hactive, hle, hpos, hsaved, hfallback⟩ := h
  constructor
  · rw [hr.active, hr.nest]; exact hactive
  · rw [hr.nest, hp]; exact hle
  · rw [hp]; exact hpos
  · rw [hr.active, hr.saved, hx]; exact hsaved
  · simp only [hr.active, hr.fallback, State.fitsLinear_congr hp]; exact hfallback

/-- A closed region has no record to keep. -/
theorem State.regionInv_of_closed {t : State} (ha : t.rtmActive = false) (hn : t.rtmNest = 0) (hpos : 1 ≤ t.params.maxNest) :
    t.RegionInv where
  active_iff := by simp [ha, hn]
  nest_le := by omega
  limit_pos := hpos
  saved := by simp [ha]
  fallback := by simp [ha]

/-- An open region counts at least 1 and holds its record. -/
theorem State.regionInv_of_open {t : State} {r : Saved} {f : Word} (ha : t.rtmActive = true) (hn : 1 ≤ t.rtmNest)
    (hle : t.rtmNest ≤ t.params.maxNest) (hr : t.rtmSaved = some r) (hx : r.xcr0 = t.xcr0) (hf : t.fallback = some f)
    (hfits : t.fitsLinear f) : t.RegionInv where
  active_iff := by simp [ha, hn]
  nest_le := hle
  limit_pos := hn.trans hle
  saved := fun _ => ⟨r, hr, hx⟩
  fallback := fun _ => ⟨f, hf, hfits⟩

/-- A region that stays open keeps its record, whatever its count becomes within the limit. -/
theorem State.RegionInv.setNest {s : State} (h : s.RegionInv) (ha : s.rtmActive = true) {n : Nat} (hn : 1 ≤ n)
    (hle : n ≤ s.params.maxNest) : (s.setNest n).RegionInv := by
  obtain ⟨r, hr, hx⟩ := h.saved ha
  obtain ⟨f, hf, hfits⟩ := h.fallback ha
  exact State.regionInv_of_open ha hn hle hr hx hf hfits

/-- The outermost XBEGIN records what the invariant asks for (rule R194). -/
theorem State.RegionInv.beginRegion {s : State} (h : s.RegionInv) {target : Word} (ht : s.fitsLinear target) :
    ((s.beginRegion target).setNest 1).RegionInv :=
  State.regionInv_of_open (r := s.toSaved) (f := target) (by simp) (by simp) (by simpa using h.limit_pos) (by simp) (by simp; rfl)
    (by simp) ((State.fitsLinear_congr (s := s) (by simp) target).2 ht)

theorem State.RegionInv.advance {s : State} (h : s.RegionInv) (len : Nat) : (s.advance len).RegionInv :=
  h.of_same (s.advance_sameRegion len) rfl rfl

/-! Every instruction keeps the invariant. -/

theorem State.Completes.pc_fits {s t : State} {i : Instr} (h : s.Completes i t) : t.fitsLinear t.pc := by
  rw [State.fitsLinear_congr h.params, h.pc]; exact s.fitsLinear_nextPc _

theorem State.Inv.data {s : State} (h : s.Inv) : s.DataInv := ⟨h.memory, h.buffer⟩

theorem State.Inv.of_completes {s t : State} {i : Instr} (hr : t.RegionInv) (hd : t.DataInv) (hc : s.Completes i t) : t.Inv :=
  ⟨hr, hd.memory, hd.buffer, hc.pc_fits⟩

theorem State.Inv.of_aborts {s t : State} (h : s.Inv) (ha : s.Aborts t) : t.Inv := by
  obtain ⟨hactive, hclosed, hparams, -, hpc, -⟩ := ha.outcome h.region
  obtain ⟨f, hf, hfits⟩ := h.region.fallback hactive
  rw [hpc] at hf
  cases hf
  obtain ⟨-, r, f, status, d, u, -, -, hu, rfl⟩ := ha
  have hdata : u.DataInv := by
    rcases hu with rfl | rfl
    · exact h.data
    · exact h.data.drain
  have hbuffer : State.BufferInv ((u.setDraws d).aborted r f status) := ⟨hdata.buffer.sc_empty, hdata.buffer.text_kept⟩
  have hnew := State.dataInv_of_emptySets (t := (u.setDraws d).aborted r f status) hdata.memory.mem_wf rfl rfl hbuffer
  exact ⟨State.regionInv_of_closed hclosed rfl (hparams ▸ h.region.limit_pos), hnew.memory, hnew.buffer,
    (State.fitsLinear_congr hparams _).2 hfits⟩

theorem xadd_dataInv {w : Width} {p : Pfx} {m : ModRM} {len : Nat} {s t : State} (hs : s.DataInv) (h : xadd w p m len s = .next t) :
    t.DataInv := by
  rcases xadd_next h with ⟨-, rfl⟩ | ⟨-, hstop, rfl⟩
  · exact hs.of_sameData ⟨rfl, rfl, rfl, rfl, rfl, rfl⟩
  · have htext := (State.rmwStop_eq_none.1 hstop).2
    have hload := hs.afterLoad (xaddAtomicity p) w.bytes (s.memRef p m len).addr
    have hwrite := hload.of_sameData (t := (s.afterLoad _ _ _).writeReg w (m.regNum p) p.hasRex
      (s.loadValue (xaddAtomicity p) w.bytes (s.memRef p m len).addr)) ⟨rfl, rfl, rfl, rfl, rfl, rfl⟩
    refine (hwrite.store ?_ _).of_sameData ⟨rfl, rfl, rfl, rfl, rfl, rfl⟩
    rw [State.storeHitsText_congr (s := s)]
    · exact htext
    · rw [State.writeReg_params]; exact (s.afterLoad_sameButMemory ..).params

theorem xchg_dataInv {w : Width} {p : Pfx} {m : ModRM} {len : Nat} {s t : State} (hs : s.DataInv) (h : xchg w p m len s = .next t) :
    t.DataInv := by
  rcases xchg_next h with ⟨-, rfl⟩ | ⟨-, hstop, rfl⟩
  · exact hs.of_sameData ⟨rfl, rfl, rfl, rfl, rfl, rfl⟩
  · have htext := (State.rmwStop_eq_none.1 hstop).2
    have hload := hs.afterLoad .locked w.bytes (s.memRef p m len).addr
    refine (hload.store ?_ _).of_sameData ⟨rfl, rfl, rfl, rfl, rfl, rfl⟩
    rw [State.storeHitsText_congr (s := s) (s.afterLoad_sameButMemory ..).params]
    exact htext

/-- The instructions outside RTM keep the data. -/
theorem exec_dataInv {i : Instr} {s t : State} (hs : s.DataInv) (hi : i.isRtm = false) (h : exec i s = .next t) : t.DataInv := by
  rcases i.kinds with ⟨⟨op, p, m⟩, hk⟩ | ⟨o, p, r, rfl⟩ | hr | ⟨p, rfl⟩ | ⟨p, rfl⟩
  · obtain ⟨u, e, hu, rfl⟩ := exec_forms_next hk h
    have hdata : u.DataInv := by
      cases op with
      | xadd w => exact xadd_dataInv hs hu
      | xchg w => exact xchg_dataInv hs hu
    exact hdata.of_sameData ⟨rfl, rfl, rfl, rfl, rfl, rfl⟩
  · rw [exec_xchgAcc, xchgAcc_next] at h
    cases h
    split_ifs <;> exact hs.of_sameData ⟨rfl, rfl, rfl, rfl, rfl, rfl⟩
  · simp [hi] at hr
  · obtain ⟨-, -, rfl⟩ := execXgetbv_next h
    exact hs.of_sameData ⟨rfl, rfl, rfl, rfl, rfl, rfl⟩
  · obtain ⟨-, rfl⟩ := execXlat_next h
    exact (hs.afterLoad ..).of_sameData ⟨rfl, rfl, rfl, rfl, rfl, rfl⟩

theorem xbegin_inv {target : Word} {i : Instr} {s t : State} (hs : s.Inv) (ht : s.fitsLinear target)
    (h : xbegin target i.length s = .next t) : t.Inv := by
  rcases xbegin_next_cases h with ⟨hn, rfl⟩ | ha
  · have hle := hs.region.nest_le
    by_cases hactive : s.rtmActive = true
    · rw [if_pos hactive]
      exact .of_completes ((hs.region.setNest hactive (by omega) (by omega)).advance _)
        (hs.data.of_sameData ⟨rfl, rfl, rfl, rfl, rfl, rfl⟩) (i := i) (State.SameControl.completes ⟨rfl, rfl, rfl⟩ fun _ => rfl)
    · have hzero : s.rtmNest = 0 := by
        have := mt hs.region.active_iff.2 hactive
        omega
      rw [if_neg hactive, hzero]
      exact .of_completes ((hs.region.beginRegion ht).advance _)
        (State.dataInv_of_emptySets hs.memory.mem_wf rfl rfl ⟨hs.buffer.sc_empty, hs.buffer.text_kept⟩) (i := i)
        (State.SameControl.completes ⟨rfl, rfl, rfl⟩ fun _ => rfl)
  · exact hs.of_aborts ha

theorem execXend_inv {p : Pfx} {s t : State} (hs : s.Inv) (h : exec (.xend p) s = .next t) : t.Inv := by
  obtain ⟨hactive, ⟨hn, rfl⟩ | ⟨-, rfl⟩ | ha⟩ := execXend_next_cases h
  · have hle := hs.region.nest_le
    exact .of_completes ((hs.region.setNest hactive (by omega) (by omega)).advance _)
      (hs.data.of_sameData ⟨rfl, rfl, rfl, rfl, rfl, rfl⟩) (i := .xend p)
      (State.SameControl.completes ⟨rfl, rfl, rfl⟩ fun _ => rfl)
  · have hmem : s.committed.mem.wf := by
      rw [State.committed_mem]; exact Memory.wf_writeAll (Memory.wf_writeAll hs.memory.mem_wf _) _
    have hbuffer : s.committed.BufferInv := ⟨fun _ => s.committed_storeBuffer, by simp⟩
    have hdata := State.dataInv_of_emptySets hmem s.committed_writeSet s.committed_readSet hbuffer
    refine .of_completes (State.regionInv_of_closed (by simp) (by simp) (by simpa using hs.region.limit_pos))
      (hdata.of_sameData ⟨rfl, rfl, rfl, rfl, rfl, rfl⟩) (i := .xend p)
      (s.committed_sameControl.completes fun _ => s.committed_flags)
  · exact hs.of_aborts ha

theorem State.fitsLinear_low16 {s : State} (v : Word) : s.fitsLinear (v.low 16) := by
  apply BitVec.eq_of_toNat_eq
  unfold State.wrap
  rw [low_toNat, low_toNat]
  have := Nat.mod_lt v.toNat (show 0 < 2 ^ 16 by norm_num)
  cases s.mode <;> simp only [Mode.linearBits] <;> omega

theorem exec_inv {i : Instr} {s t : State} (hs : s.Inv) (h : exec i s = .next t) : t.Inv := by
  cases hi : i.isRtm with
  | false =>
    have hc := exec_completes hi h
    exact .of_completes (hs.region.of_same (exec_sameRegion hi h) hc.params hc.xcr0) (exec_dataInv hs.data hi h) hc
  | true =>
    rcases Instr.isRtm_cases hi with ⟨p, imm8, rfl⟩ | ⟨p, rel, rfl⟩ | ⟨p, rel, rfl⟩ | ⟨p, rfl⟩
    · rcases execXabort_next_cases h with ⟨-, rfl⟩ | ha
      · exact .of_completes (hs.region.of_same ⟨rfl, rfl, rfl, rfl⟩ rfl rfl) (hs.data.of_sameData ⟨rfl, rfl, rfl, rfl, rfl, rfl⟩)
          (i := .xabort p imm8) (State.SameControl.completes ⟨rfl, rfl, rfl⟩ fun _ => rfl)
      · exact hs.of_aborts ha
    · exact xbegin_inv (i := .xbeginRel16 p rel) hs (State.fitsLinear_low16 _) h
    · exact xbegin_inv (i := .xbeginRel32 p rel) hs (s.wrap_wrap _) h
    · exact execXend_inv hs h

/-! Every step keeps the invariant. -/

/-- What lands and what is drawn before an instruction keep the invariant. -/
theorem State.Inv.of_sameButMemory {s t : State} (hs : s.Inv) (h : s.SameButMemory t) (hd : t.DataInv) : t.Inv :=
  ⟨hs.region.of_same h.region h.params h.xcr0, hd.memory, hd.buffer, by
    rw [State.fitsLinear_congr h.params, h.pc]; exact hs.pc_fits⟩

theorem State.Inv.land {s : State} (hs : s.Inv) : s.land.Inv := hs.of_sameButMemory s.land_sameButMemory hs.data.land

theorem State.Inv.afterDraw {s : State} (hs : s.Inv) : s.afterDraw.Inv :=
  hs.of_sameButMemory s.afterDraw_sameButMemory (hs.data.of_sameData ⟨rfl, rfl, rfl, rfl, rfl, rfl⟩)

theorem State.Inv.fetching {s : State} (hs : s.Inv) : s.fetching.Inv := by
  unfold State.fetching
  split_ifs
  · exact hs.land.afterDraw
  · exact hs.land

/-- A step that goes on is an abort of the state that the landing leaves, or the execution of an instruction from the state in which
it was fetched. -/
theorem step_next_cases {s t : State} (h : step s = .next t) :
    s.land.afterDraw.Aborts t ∨ ∃ i, exec i s.fetching = .next t := by
  obtain ⟨-, ⟨ha, -, habort⟩ | ⟨u, rfl, -, i, -, hexec⟩⟩ := step_next h
  · exact .inl (abortOther_aborts (.inl (by simpa using ha)) habort)
  · exact .inr ⟨i, hexec⟩

/-- Settles O14: a landing keeps the invariant, and so do every instruction and every abort. -/
theorem everyStepKeepsTheInvariant : Obligations.EveryStepKeepsTheInvariant := by
  intro s t hs h
  rcases step_next_cases h with ha | ⟨i, hx⟩
  · exact hs.land.afterDraw.of_aborts ha
  · exact exec_inv hs.fetching hx

/-- Settles O15: an abort restores the XCR0 that the region began with, which the invariant holds to be this one. -/
theorem stepKeepsParametersAndXcr0 : Obligations.StepKeepsParametersAndXcr0 := by
  intro s t hs h
  rcases step_next_cases h with ha | ⟨i, hx⟩
  · obtain ⟨-, -, hp, hxcr0, -⟩ := ha.outcome hs.land.afterDraw.region
    exact ⟨hp.trans s.land_params, hxcr0.trans s.land_sameButMemory.xcr0⟩
  · have hsame := s.fetching_sameButMemory
    rcases exec_next hx with hc | ha
    · exact ⟨hc.params.trans hsame.params, hc.xcr0.trans hsame.xcr0⟩
    · obtain ⟨-, -, hp, hxcr0, -⟩ := ha.outcome hs.fetching.region
      exact ⟨hp.trans hsame.params, hxcr0.trans hsame.xcr0⟩

/-- Settles O13. -/
theorem resetMeetsTheInvariant : Obligations.ResetMeetsTheInvariant where
  region := State.regionInv_of_closed rfl rfl (by decide)
  memory := (State.dataInv_of_emptySets ⟨Cells.rising_nil, by simp [State.reset]⟩ rfl rfl ⟨fun _ => rfl, by simp [State.reset]⟩).memory
  buffer := ⟨fun _ => rfl, by simp [State.reset]⟩
  pc_fits := by unfold State.fitsLinear; decide

/-! No abort without a record. -/

/-- Inside a region the invariant holds a record. -/
theorem State.RegionInv.record {s : State} (h : s.RegionInv) (ha : s.rtmActive = true) : s.rtmSaved ≠ none ∧ s.fallback ≠ none := by
  obtain ⟨r, hr, -⟩ := h.saved ha
  obtain ⟨f, hf, -⟩ := h.fallback ha
  simp [hr, hf]

theorem exec_not_abortWithoutRecord {s : State} (hs : s.Inv) (i : Instr) : exec i s ≠ .fault .abortWithoutRecord := by
  intro h
  rcases exec_fault h with ⟨e, code, hf, -⟩ | ⟨-, hcause, hrec⟩
  · cases hf
  · obtain ⟨hr, hf⟩ := hs.region.record (hs.region.active hcause)
    exact hrec.elim hr hf

theorem State.windowStop_not_abortWithoutRecord (s : State) (w : WindowEnd) : s.windowStop w ≠ .fault .abortWithoutRecord := by
  cases w <;> simp [State.windowStop, raise]

theorem State.fetch_not_abortWithoutRecord (s : State) : s.fetch ≠ .stop (.fault .abortWithoutRecord) := by
  unfold State.fetch
  simp only
  split
  · simp
  · simpa using s.windowStop_not_abortWithoutRecord _
  · simp [raise]
  · simp

theorem runInstr_not_abortWithoutRecord {s : State} (hs : s.Inv) : runInstr s ≠ .fault .abortWithoutRecord := by
  unfold runInstr
  cases hf : s.fetch with
  | instr i => exact exec_not_abortWithoutRecord hs i
  | stop r => exact fun hr => s.fetch_not_abortWithoutRecord (hf.trans (congrArg _ hr))

/-- Settles O16. -/
theorem noAbortWithoutRecord : Obligations.NoAbortWithoutRecord := by
  intro s hs
  unfold step oneStep boundary
  split_ifs with hb ha hc
  · simp
  · intro h
    obtain ⟨-, hrec⟩ := rtmAbort_fault h
    obtain ⟨hr, hf⟩ := hs.land.region.record ha
    exact hrec.elim hr hf
  · exact runInstr_not_abortWithoutRecord hs.land.afterDraw
  · exact runInstr_not_abortWithoutRecord hs.land

end Sys2Proof.Machine
end

section
/-! Registers, flags and addresses as numbers (rules R23, R24, R33, R66, R104 to R107), and the addresses of an access. -/

namespace Sys2Proof

/-! Widths. -/

theorem Width.bits_le (w : Width) : w.bits ≤ 64 := by cases w <;> simp [Width.bits]

theorem Width.two_pow_bits (w : Width) : 2 ^ w.bits = 2 * 2 ^ (w.bits - 1) := by cases w <;> rfl

theorem AddrSize.bits_le (a : AddrSize) : a.bits ≤ 64 := by cases a <;> simp [AddrSize.bits]

end Sys2Proof

namespace Sys2Proof.Machine

/-! Sized registers (rules R22 to R24). -/

theorem append_toNat {m n : Nat} (x : BitVec m) (y : BitVec n) : (x ++ y).toNat = x.toNat * 2 ^ n + y.toNat := by
  rw [BitVec.toNat_append, ← Nat.shiftLeft_add_eq_or_of_lt y.isLt, Nat.shiftLeft_eq]

theorem withLow16_toNat (old v : Word) : (withLow16 old v).toNat = old.toNat / 2 ^ 16 * 2 ^ 16 + v.toNat % 2 ^ 16 := by
  have := old.isLt
  unfold withLow16
  rw [append_toNat, BitVec.extractLsb'_toNat, BitVec.extractLsb'_toNat, Nat.shiftRight_eq_div_pow, Nat.shiftRight_eq_div_pow]
  omega

theorem withLow8_toNat (old v : Word) : (withLow8 old v).toNat = old.toNat / 2 ^ 8 * 2 ^ 8 + v.toNat % 2 ^ 8 := by
  have := old.isLt
  unfold withLow8
  rw [append_toNat, BitVec.extractLsb'_toNat, BitVec.extractLsb'_toNat, Nat.shiftRight_eq_div_pow, Nat.shiftRight_eq_div_pow]
  omega

theorem withHigh8_toNat (old v : Word) :
    (withHigh8 old v).toNat = old.toNat / 2 ^ 16 * 2 ^ 16 + v.toNat % 2 ^ 8 * 2 ^ 8 + old.toNat % 2 ^ 8 := by
  have := old.isLt
  unfold withHigh8
  rw [append_toNat, append_toNat]
  simp only [BitVec.extractLsb'_toNat, Nat.shiftRight_eq_div_pow]
  omega

theorem isHighByte_iff {n : RegNum} {rex : Bool} : isHighByte n rex = true ↔ rex = false ∧ 4 ≤ n.toNat ∧ n.toNat ≤ 7 := by
  simp [isHighByte, and_assoc]

theorem homeReg_of_ne {w : Width} (h : w ≠ .w8) (n : RegNum) (rex : Bool) : homeReg w n rex = n := by
  simp [homeReg, h]

theorem State.writeReg_sameRegsBut (s : State) (w : Width) (n : RegNum) (rex : Bool) (v : Word) :
    s.SameRegsBut (s.writeReg w n rex v) [homeReg w n rex] :=
  fun _ hm => s.getReg_writeReg_other v (by simpa using hm)

/-- The register that holds the operand, after the write (rule R24). -/
theorem State.getReg_writeReg_home (s : State) (w : Width) (n : RegNum) (rex : Bool) (v : Word) :
    (s.writeReg w n rex v).getReg (homeReg w n rex) = mergeBits w (isHighByte n rex) (s.getReg (homeReg w n rex)) v := by
  rw [State.getReg_writeReg, if_pos rfl]

/-- Settles O21. -/
theorem sizedRegisterWrites : Obligations.SizedRegisterWrites := by
  intro s n rex v
  have home : ∀ w, w ≠ .w8 → (s.writeReg w n rex v).getReg n = mergeBits w (isHighByte n rex) (s.getReg n) v := fun w hw => by
    simpa only [homeReg_of_ne hw] using s.getReg_writeReg_home w n rex v
  have frame : ∀ w, w ≠ .w8 → s.SameRegsBut (s.writeReg w n rex v) [n] := fun w hw => by
    simpa only [homeReg_of_ne hw] using s.writeReg_sameRegsBut w n rex v
  have home8 := s.getReg_writeReg_home .w8 n rex v
  have frame8 := s.writeReg_sameRegsBut .w8 n rex v
  refine ⟨home .w64 (by simp), ?_, ?_, ?_, frame .w64 (by simp), frame .w32 (by simp), frame .w16 (by simp)⟩
  · rw [home .w32 (by simp)]; exact low_toNat 32 v
  · rw [home .w16 (by simp)]; exact withLow16_toNat _ v
  · by_cases hh : isHighByte n rex = true
    · have hreg : homeReg .w8 n rex = n - 4 := by simp [homeReg, hh]
      rw [hreg, hh] at home8
      rw [hreg] at frame8
      rw [if_pos (isHighByte_iff.1 hh), home8]
      exact ⟨withHigh8_toNat _ v, frame8⟩
    · have hreg : homeReg .w8 n rex = n := by simp [homeReg, hh]
      rw [hreg, Bool.eq_false_iff.2 hh] at home8
      rw [hreg] at frame8
      rw [if_neg (mt isHighByte_iff.2 hh), home8]
      exact ⟨withLow8_toNat _ v, frame8⟩

/-- Settles O22. -/
theorem sizedRegisterReads : Obligations.SizedRegisterReads := by
  intro s n rex
  have home : ∀ w, w ≠ .w8 → s.readReg w n rex = pickBits w (isHighByte n rex) (s.getReg n) := fun w hw => by
    unfold State.readReg; rw [homeReg_of_ne hw]
  refine ⟨home .w64 (by simp), ?_, ?_, ?_⟩
  · rw [home .w32 (by simp)]; exact low_toNat 32 _
  · rw [home .w16 (by simp)]; exact low_toNat 16 _
  · unfold State.readReg
    by_cases hh : isHighByte n rex = true
    · rw [if_pos (isHighByte_iff.1 hh)]
      simp [homeReg, pickBits, hh, Nat.shiftRight_eq_div_pow]
    · rw [if_neg (mt isHighByte_iff.2 hh)]
      simp [homeReg, pickBits, hh]

/-! The flags of an addition (rule R33). -/

@[simp] theorem addValue_toNat (w : Width) (a b : Word) : (addValue w a b).toNat = (a.toNat + b.toNat) % 2 ^ w.bits := by
  unfold addValue
  rw [low_toNat, BitVec.toNat_add, Nat.mod_mod_of_dvd _ (pow_dvd_pow 2 w.bits_le)]

/-- An even number of eight bits. -/
theorem even_count_iff (f : Nat → Bool) :
    (!(f 0 ^^ f 1 ^^ f 2 ^^ f 3 ^^ f 4 ^^ f 5 ^^ f 6 ^^ f 7)) = true ↔ (List.range 8).countP f % 2 = 0 := by
  have hrange : List.range 8 = [0, 1, 2, 3, 4, 5, 6, 7] := rfl
  simp only [hrange, List.countP_cons, List.countP_nil]
  generalize f 0 = b0, f 1 = b1, f 2 = b2, f 3 = b3, f 4 = b4, f 5 = b5, f 6 = b6, f 7 = b7
  revert b0 b1 b2 b3 b4 b5 b6 b7
  decide

/-- The sign bit of a value of `w` bits. -/
theorem testBit_sign {w : Width} {x : Nat} (h : x < 2 ^ w.bits) : x.testBit (w.bits - 1) = decide (2 ^ (w.bits - 1) ≤ x) := by
  rw [Nat.testBit_eq_decide_div_mod_eq]
  cases w <;> simp only [Width.bits] at h ⊢ <;> congr 1 <;> apply propext <;> omega

/-- Signed overflow, by the sign bits and by the values. -/
theorem signed_overflow_iff {n h a b : Nat} (hn : n = 2 * h) (ha : a < n) (hb : b < n) :
    (decide (h ≤ a) = decide (h ≤ b) ∧ decide (h ≤ (a + b) % n) ≠ decide (h ≤ a)) ↔
      ((if a < h then (a : Int) else a - n) + (if b < h then (b : Int) else b - n) < -h
        ∨ (h : Int) ≤ (if a < h then (a : Int) else a - n) + (if b < h then (b : Int) else b - n)) := by
  have hr : (a + b) % n = if a + b < n then a + b else a + b - n := by
    split_ifs with hlt
    · exact Nat.mod_eq_of_lt hlt
    · rw [Nat.mod_eq_sub_mod (by omega), Nat.mod_eq_of_lt (by omega)]
  rw [hr]
  simp only [ne_eq, decide_eq_decide]
  split_ifs <;> omega

/-- Settles O23. -/
theorem flagsOfAnAddition : Obligations.FlagsOfAnAddition := by
  intro w a b ha hb r signed f
  have hr : (addValue w a b).toNat = r := addValue_toNat w a b
  have hrlt : r < 2 ^ w.bits := Nat.mod_lt _ (by positivity)
  have hbit : ∀ k, (addValue w a b).getLsbD k = r.testBit k := fun k => by rw [← hr]; rfl
  have hof : f.of = true ↔ a.toNat.testBit (w.bits - 1) = b.toNat.testBit (w.bits - 1)
      ∧ r.testBit (w.bits - 1) ≠ a.toNat.testBit (w.bits - 1) := by
    simp only [f, addFlags, hbit, Bool.and_eq_true, beq_iff_eq, bne_iff_ne]
    rfl
  refine ⟨by simp [f, addFlags], ?_, by simp [f, addFlags], ?_, hbit _, hof, hof.trans ?_⟩
  · rw [← even_count_iff]
    simp only [f, addFlags, evenParity, hbit]
  · simp only [f, addFlags, beq_iff_eq, ← hr]
    exact ⟨fun h => by rw [h]; rfl, fun h => BitVec.eq_of_toNat_eq h⟩
  · rw [testBit_sign ha, testBit_sign hb, testBit_sign hrlt]
    have := signed_overflow_iff w.two_pow_bits ha hb
    simpa [signed, r] using this

/-! Addresses (rules R65, R66, R104 to R107). -/

theorem Mode.linearBits_le (m : Mode) : Mode.linearBits m ≤ 64 := by cases m <;> simp [Mode.linearBits]

/-- Words are added modulo 2^64. -/
theorem word_add_modEq (x y : Word) : ((x + y).toNat : Int) ≡ x.toNat + y.toNat [ZMOD 2 ^ 64] := by
  rw [BitVec.toNat_add]; push_cast; exact Int.mod_modEq _ _

theorem dispValue_toInt (d : Disp) : (dispValue d).toInt = dispSigned d := by
  cases d with
  | none => rfl
  | d8 v | d16 v | d32 v => exact BitVec.toInt_signExtend_of_le (by norm_num)

theorem toNat_modEq_toInt (x : Word) : (x.toNat : Int) ≡ x.toInt [ZMOD 2 ^ 64] := by
  rw [BitVec.toInt_eq_toNat_cond]
  split_ifs
  · rfl
  · exact (Int.modEq_iff_dvd.2 ⟨-1, by push_cast; ring⟩)

/-- The low bits of a word are its value modulo the address size. -/
theorem low_toNat_of_modEq {n : Nat} (hn : n ≤ 64) {x : Word} {z : Int} (h : (x.toNat : Int) ≡ z [ZMOD 2 ^ 64]) :
    ((x.low n).toNat : Int) = z % 2 ^ n := by
  rw [low_toNat]
  push_cast
  exact h.of_dvd (pow_dvd_pow 2 hn)

/-- An offset is the base and the signed displacement, modulo the address size (rule R65). -/
theorem offset_toNat {n : Nat} (hn : n ≤ 64) {x : Word} {base : Int} (h : (x.toNat : Int) ≡ base [ZMOD 2 ^ 64]) (d : Disp) :
    (((x + dispValue d).low n).toNat : Int) = (base + dispSigned d) % 2 ^ n :=
  low_toNat_of_modEq hn <| (word_add_modEq _ _).trans <|
    h.add <| (toNat_modEq_toInt _).trans (by rw [dispValue_toInt])

theorem State.reg16_toNat (s : State) (n : RegNum) : (s.reg16 n).toNat = (s.getReg n).toNat % 2 ^ 16 := by
  unfold State.reg16 State.readReg
  rw [homeReg_of_ne (by simp)]
  exact low_toNat 16 _

theorem rm_cases (x : BitVec 3) :
    x = 0#3 ∨ x = 1#3 ∨ x = 2#3 ∨ x = 3#3 ∨ x = 4#3 ∨ x = 5#3 ∨ x = 6#3 ∨ x = 7#3 := by
  revert x; decide

/-- Settles O24: one case for each value of `rm`. -/
theorem sixteenBitAddresses : Obligations.SixteenBitAddresses := by
  intro s p m next has hm bx bp si di base
  have hbase : ((s.base16 m).toNat : Int) ≡ base [ZMOD 2 ^ 64] := by
    have hadd : ∀ x y : RegNum, ((s.reg16 x + s.reg16 y).toNat : Int) ≡
        (((s.getReg x).toNat % 2 ^ 16 + (s.getReg y).toNat % 2 ^ 16 : Nat) : Int) [ZMOD 2 ^ 64] := fun x y => by
      simpa [State.reg16_toNat] using word_add_modEq (s.reg16 x) (s.reg16 y)
    have hone : ∀ x : RegNum, ((s.reg16 x).toNat : Int) ≡ (((s.getReg x).toNat % 2 ^ 16 : Nat) : Int) [ZMOD 2 ^ 64] := fun x => by
      rw [State.reg16_toNat]
    rcases rm_cases m.rm with h | h | h | h | h | h | h | h
    · simp only [State.base16, base, h]; exact hadd 3#4 6#4
    · simp only [State.base16, base, h]; exact hadd 3#4 7#4
    · simp only [State.base16, base, h]; exact hadd 5#4 6#4
    · simp only [State.base16, base, h]; exact hadd 5#4 7#4
    · simp only [State.base16, base, h]; exact hone 6#4
    · simp only [State.base16, base, h]; exact hone 7#4
    · by_cases hmod : m.mod = 0#2
      · simp [State.base16, base, h, hmod]
      · simp only [State.base16, base, h, hmod]; exact hone 5#4
    · simp only [State.base16, base, h]; exact hone 3#4
  have hseg : s.defaultSeg p m = defaultSeg16 m := by simp [State.defaultSeg, has]
  refine ⟨?_, ?_, ?_⟩
  · have := offset_toNat (n := 16) (by norm_num) hbase m.disp
    simpa [State.memOffset, has, AddrSize.bits] using this
  · rw [hseg]; unfold defaultSeg16; split_ifs with h <;> simp [h]
  · rw [hseg]; unfold defaultSeg16; split_ifs <;> simp

/-- Settles O25. -/
theorem addressesWithoutSib : Obligations.AddressesWithoutSib := by
  intro s p m next as has hm hsib base
  have hbase : ((s.baseNoSib as.width p m next).toNat : Int) ≡ base [ZMOD 2 ^ 64] := by
    simp only [base, State.baseNoSib]
    split_ifs <;> rfl
  constructor
  · have := offset_toNat as.bits_le hbase m.disp
    simpa [State.memOffset, as, has, hsib] using this
  · simp [State.defaultSeg, as, has, hsib, defaultSegNoSib]

theorem shiftLeft_modEq (x : Word) (k : Nat) : ((x <<< k).toNat : Int) ≡ ((x.toNat * 2 ^ k : Nat) : Int) [ZMOD 2 ^ 64] := by
  rw [BitVec.toNat_shiftLeft, Nat.shiftLeft_eq]; push_cast; exact Int.mod_modEq _ _

/-- Settles O26. -/
theorem addressesWithSib : Obligations.AddressesWithSib := by
  intro s p m b next as has hm hsib i n index base
  have hbase : ((s.sibBase as.width p m b).toNat : Int) = base := by
    simp only [base, State.sibBase]
    split_ifs <;> rfl
  have hindex : ((s.indexTerm as.width p b).toNat : Int) ≡ index [ZMOD 2 ^ 64] := by
    simp only [index, State.indexTerm]
    by_cases h4 : i = 4#4
    · rw [if_pos h4, if_pos (show regNum p.rexX b.index = 4#4 from h4)]; rfl
    · rw [if_neg h4, if_neg (show regNum p.rexX b.index ≠ 4#4 from h4)]; exact shiftLeft_modEq _ _
  constructor
  · have hsum : ((s.sibBase as.width p m b + s.indexTerm as.width p b).toNat : Int) ≡ base + index [ZMOD 2 ^ 64] := by
      rw [← hbase]
      exact (word_add_modEq _ _).trans (hindex.add_left _)
    have := offset_toNat as.bits_le hsum m.disp
    simpa [State.memOffset, as, has, hsib] using this
  · unfold State.defaultSeg
    rw [if_neg has, hsib]
    rfl

theorem Seg.flatIn64_iff (g : Seg) : Seg.flatIn64 g = true ↔ g ≠ .fs ∧ g ≠ .gs := by cases g <;> simp [Seg.flatIn64]

/-- The linear address as a number (rule R66). -/
theorem State.linear_toNat (s : State) (g : Seg) (off : Word) :
    (s.linear g off).toNat =
      ((if s.mode = .mode64 ∧ g ≠ .fs ∧ g ≠ .gs then 0 else (segBaseOf s.params.segBase g).toNat) + off.toNat)
        % 2 ^ Mode.linearBits s.mode := by
  have hbase : (s.segBase g).toNat
      = if s.mode = .mode64 ∧ g ≠ .fs ∧ g ≠ .gs then 0 else (segBaseOf s.params.segBase g).toNat := by
    unfold State.segBase
    rw [apply_ite BitVec.toNat]
    simp only [Seg.flatIn64_iff]
    rfl
  unfold State.linear State.wrap
  rw [low_toNat, BitVec.toNat_add, Nat.mod_mod_of_dvd _ (pow_dvd_pow 2 (Mode.linearBits_le _)), hbase]

/-- Settles O27. -/
theorem linearAddressOfAnOperand : Obligations.LinearAddressOfAnOperand :=
  fun s _ _ _ => ⟨rfl, s.linear_toNat _ _⟩

/-! The bytes of an access. -/

theorem State.wrap_toNat (s : State) (v : Word) : (s.wrap v).toNat = v.toNat % 2 ^ Mode.linearBits s.mode := low_toNat _ _

theorem State.wrap_succ_toNat (s : State) (a : Word) : (s.wrap (a + 1)).toNat = (a.toNat + 1) % 2 ^ Mode.linearBits s.mode := by
  rw [State.wrap_toNat, BitVec.toNat_add, Nat.mod_mod_of_dvd _ (pow_dvd_pow 2 (Mode.linearBits_le _))]
  rfl

/-- With the identity translation the bytes of an access stand at consecutive addresses, wrapping. -/
theorem State.byteAddrs_of_identity {s : State} (hs : s.params.translate = []) (n : Nat) {a : Word} (ha : s.fitsLinear a) :
    s.byteAddrs n a = (List.range n).map fun k => (a.toNat + k) % 2 ^ Mode.linearBits s.mode := by
  induction n generalizing a with
  | zero => rfl
  | succ n ih =>
    have hphys : s.phys a = a.toNat := by unfold State.phys; rw [hs]; rfl
    have hlt : a.toNat % 2 ^ Mode.linearBits s.mode = a.toNat := by rw [← State.wrap_toNat]; exact congrArg _ ha
    rw [State.byteAddrs, ih (s.wrap_wrap _), hphys, List.range_succ_eq_map, List.map_cons, List.map_map, Nat.add_zero, hlt]
    congr 1
    refine List.map_congr_left fun k _ => ?_
    rw [State.wrap_succ_toNat, Nat.mod_add_mod]
    simp only [Function.comp, Nat.succ_eq_add_one]
    congr 1
    omega

theorem mod_add_left_inj {n a j k : Nat} (hj : j < n) (hk : k < n) (h : (a + j) % n = (a + k) % n) : j = k := by
  have := Nat.ModEq.add_left_cancel' a h
  exact Nat.ModEq.eq_of_lt_of_lt this hj hk

/-- Settles O28: fewer addresses than the width wraps at. -/
theorem bytesOfAnAccessAreDistinct : Obligations.BytesOfAnAccessAreDistinct := by
  intro s n a hs hn ha
  have haddr := State.byteAddrs_of_identity hs n ha
  refine ⟨haddr, haddr ▸ List.Nodup.map_on (fun j hj k hk h => ?_) List.nodup_range⟩
  have hwidth : 8 < 2 ^ Mode.linearBits s.mode := by cases s.mode <;> simp [Mode.linearBits]
  rw [List.mem_range] at hj hk
  exact mod_add_left_inj (by omega) (by omega) h

/-- Settles O29: the bytes stored are what this processor sees at their addresses, and a load gives what it sees. -/
theorem loadsSeeTheStoredBytes : Obligations.LoadsSeeTheStoredBytes := by
  intro s j k n a v hbus hn hnodup
  have hj : s.Quiet j := fun h => hbus (.inl h)
  have hk : (s.store j n a v).Quiet k := fun h => (State.storeBytes_bus hj _ a).trans (hbus (.inr h))
  have hview : (s.byteAddrs n a).map (s.store j n a v).viewByte = splitBytes n v := by
    simpa [State.store] using State.storeBytes_viewByte hj (splitBytes n v) a (by simpa using hnodup)
  constructor
  · rw [State.loadValue_quiet hk, State.byteAddrs_congr (s.store_sameButMemory j n a v).params, hview, joinBytes_splitBytes n v hn]
  · intro i h
    have hi := congrArg (·[i]?) hview
    simp only [List.getElem?_map, List.getElem?_eq_getElem h, splitBytes_getElem n v i (by simpa using h), Option.map_some,
      Option.some.injEq] at hi
    exact hi

/-! The store buffer (rule R80). -/

/-- Every amount is a draw's (log entry 53). -/
theorem State.drainSome_drawing (s : State) {n : Nat} (h64 : n < 2 ^ 64) (c : Nat) :
    (s.setDraws { given := [BitVec.ofNat 64 n], count := c }).drainSome.storeBuffer = s.storeBuffer.drop n
      ∧ (s.setDraws { given := [BitVec.ofNat 64 n], count := c }).drainSome.mem = s.mem.writeAll (s.storeBuffer.take n) := by
  unfold State.drainSome
  by_cases h : s.storeBuffer = []
  · simp [h]
  · have hd : (s.setDraws { given := [BitVec.ofNat 64 n], count := c }).drawn.toNat = n := by
      rw [State.drawn_given rfl]; exact Nat.mod_eq_of_lt h64
    rw [if_neg (by simpa using h), State.drainTo_storeBuffer, State.drainTo_mem, hd]
    exact ⟨rfl, rfl⟩

/-- Settles O30: a landing with nothing pending is one draw's worth of draining. -/
theorem storeBufferDrainsInOrder : Obligations.StoreBufferDrainsInOrder := by
  intro s hbus hlen
  constructor
  · rw [State.land_of_bus_nil hbus]
    obtain ⟨n, hn, hb, hm⟩ := s.drainSome_queued
    simp only [List.append_nil] at hn hb hm
    exact ⟨n, hn, hb, fun a => by rw [hm, Memory.read_writeAll_newest]⟩
  · intro n hn
    obtain ⟨hb, hm⟩ := s.drainSome_drawing (n := n) (by omega) 0
    refine ⟨{ given := [BitVec.ofNat 64 n], count := 0 }, ?_⟩
    rw [State.land_of_bus_nil (by simpa using hbus)]
    exact ⟨hb, fun a => by rw [hm, Memory.read_writeAll_newest]⟩

/-- Settles O31. -/
theorem landingKeepsOwnView : Obligations.LandingKeepsOwnView := by
  intro s
  refine ⟨fun a ha => State.viewByte_congr s.land_rtmActive s.land_writeSet (s.land_ownByte_other ha), fun b a x k hs => ?_⟩
  refine ⟨s.storeByte_viewByte k a b x, ?_⟩
  unfold State.viewByte
  rw [hs]
  rfl

end Sys2Proof.Machine
end

section
/-! XADD and XCHG of registers: sums and exchanges (rules R178, R208, R211, R212). -/

namespace Sys2Proof.Machine

/-! Registers alone. -/

@[simp] theorem addValue_low (w : Width) (a b : Word) : (addValue w a b).low w.bits = addValue w a b := low_low _ _

/-- Two writes leave every register but the two they write. -/
theorem State.writeReg_writeReg_sameRegsBut (s : State) (w : Width) (n m : RegNum) (rex : Bool) (u v : Word) :
    s.SameRegsBut ((s.writeReg w n rex u).writeReg w m rex v) [homeReg w n rex, homeReg w m rex] := by
  intro x hx
  obtain ⟨hn, hm⟩ : x ≠ homeReg w n rex ∧ x ≠ homeReg w m rex := by simpa using hx
  rw [State.getReg_writeReg_other _ v hm, State.getReg_writeReg_other _ u hn]

theorem State.SameRegsBut.mono {s t : State} {ns ms : List RegNum} (h : s.SameRegsBut t ns) (hsub : ns ⊆ ms) : s.SameRegsBut t ms :=
  fun x hx => h x fun hn => hx (hsub hn)

/-- Writing two operands with each other's values exchanges them, the same operand twice included (rule R208). -/
theorem State.exchange (s : State) (w : Width) (n m : RegNum) (rex : Bool) :
    let t := (s.writeReg w n rex (s.readReg w m rex)).writeReg w m rex (s.readReg w n rex)
    t.readReg w n rex = s.readReg w m rex ∧ t.readReg w m rex = s.readReg w n rex := by
  constructor
  · by_cases h : n = m
    · subst h; simp
    · rw [State.readReg_writeReg_other _ _ h]; simp
  · simp

/-- Settles O32. -/
theorem xaddRegisterForm : Obligations.XaddRegisterForm := by
  intro w p m s hm d r a b
  refine ⟨_, addValue w a b, (exec_xaddRm w p m s).trans (xadd_reg hm w p _ s), addValue_toNat w a b, rfl, ?_, ?_, rfl, rfl, ?_,
    fun _ => rfl, ⟨rfl, rfl, rfl, rfl⟩, ⟨rfl, rfl⟩, ⟨⟨rfl, rfl, rfl⟩, rfl, rfl, rfl⟩⟩
  · show ((s.writeReg w r p.hasRex a).writeReg w d p.hasRex (addValue w a b)).readReg w d p.hasRex = _
    simp
  · intro hne
    show ((s.writeReg w r p.hasRex a).writeReg w d p.hasRex (addValue w a b)).readReg w r p.hasRex = _
    rw [State.readReg_writeReg_other _ _ hne]
    simp [a]
  · exact (s.writeReg_writeReg_sameRegsBut w r d p.hasRex a (addValue w a b)).mono (by simp)

/-- Settles O36. -/
theorem xchgRegisterForm : Obligations.XchgRegisterForm := by
  intro w p m s hm d r a b
  obtain ⟨hd, hr⟩ := s.exchange w d r p.hasRex
  exact ⟨_, (exec_xchgRm w p m s).trans (xchg_reg hm w p _ s), rfl, hd, hr, rfl, rfl,
    s.writeReg_writeReg_sameRegsBut w d r p.hasRex b a,
    fun _ => rfl, ⟨rfl, rfl, rfl, rfl⟩, ⟨rfl, rfl⟩, ⟨⟨rfl, rfl, rfl⟩, rfl, rfl, rfl⟩⟩

/-- Settles O37: opcode 90 is told apart from an exchange before anything is written. -/
theorem xchgAccumulatorForm : Obligations.XchgAccumulatorForm := by
  intro o p r s w n a b
  refine ⟨_, (exec_xchgAcc o p r s).trans (xchgAcc_next w p r _ s), ?_⟩
  by_cases h : p.rexB = false ∧ r = 0#3
  · rw [if_pos h, if_pos h]
    exact ⟨rfl, rfl, rfl, fun _ _ => rfl, fun _ => rfl, ⟨rfl, rfl, rfl, rfl⟩, ⟨rfl, rfl⟩, ⟨⟨rfl, rfl, rfl⟩, rfl, rfl, rfl⟩⟩
  · rw [if_neg h, if_neg h]
    obtain ⟨h0, hn⟩ := s.exchange w 0#4 n p.hasRex
    have frame := s.writeReg_writeReg_sameRegsBut w 0#4 n p.hasRex b a
    rw [homeReg_of_ne o.width_ne_w8, homeReg_of_ne o.width_ne_w8] at frame
    exact ⟨rfl, ⟨rfl, h0, hn⟩, rfl, frame, fun _ => rfl, ⟨rfl, rfl, rfl, rfl⟩, ⟨rfl, rfl⟩, ⟨⟨rfl, rfl, rfl⟩, rfl, rfl, rfl⟩⟩

end Sys2Proof.Machine
end

section
/-! A read-modify-write as a load and a store of the same bytes, apart from what it writes to registers and flags (rules R69 to R72,
R178, R208). -/

namespace Sys2Proof.Machine

/-! Landings and stores look at no register. -/

theorem State.drainSome_setRegs (s : State) (v : RegFile) : (s.setRegs v).drainSome = s.drainSome.setRegs v := by
  unfold State.drainSome
  rw [State.setRegs_storeBuffer]
  split_ifs <;> rfl

theorem State.landStores_setRegs (cs : List Host.Cell) (s : State) (v : RegFile) :
    State.landStores cs (s.setRegs v) = (State.landStores cs s).setRegs v := by
  induction cs generalizing s with
  | nil => exact s.drainSome_setRegs v
  | cons c cs ih => rw [State.landStores, State.drainSome_setRegs]; exact ih (s.drainSome.landByte c)

theorem State.point_setRegs (s : State) (k : Atomicity) (v : RegFile) : (s.setRegs v).point k = (s.point k).setRegs v := by
  cases k with
  | locked | single => rfl
  | plain =>
    show State.land _ = (State.land _).setRegs v
    unfold State.land
    rw [State.setRegs_bus, State.landStores_setRegs]
    rfl

theorem State.storeByte_setRegs (s : State) (k : Atomicity) (a : Nat) (b : Byte) (v : RegFile) :
    (s.setRegs v).storeByte k a b = (s.storeByte k a b).setRegs v := by
  unfold State.storeByte
  rw [State.setRegs_rtmActive, show (s.setRegs v).storesAtOnce k = s.storesAtOnce k from rfl]
  split_ifs <;> rfl

theorem State.storeBytes_setRegs (k : Atomicity) (bs : List Byte) (a : Word) (s : State) (v : RegFile) :
    State.storeBytes k bs a (s.setRegs v) = (State.storeBytes k bs a s).setRegs v := by
  induction bs generalizing a s with
  | nil => rfl
  | cons b bs ih =>
    simp only [State.storeBytes]
    rw [State.point_setRegs, State.storeByte_setRegs]
    exact ih _ _

/-- The load and the store of a read-modify-write: `n` bytes at `a`, `v` stored. -/
def State.rmw (s : State) (k : Atomicity) (n : Nat) (a v : Word) : State := (s.afterLoad k n a).store k n a v

theorem State.writeReg_regs_congr {s t : State} (h : t.regs = s.regs) (w : Width) (n : RegNum) (rex : Bool) (v : Word) :
    (t.writeReg w n rex v).regs = (s.writeReg w n rex v).regs := by
  unfold State.writeReg State.setReg State.getReg
  simp only [State.setRegs_regs, h]

section Rmw

variable (s : State) (k : Atomicity) (n : Nat) (a v : Word)

theorem State.rmw_sameButMemory : s.SameButMemory (s.rmw k n a v) :=
  (s.afterLoad_sameButMemory k n a).trans (State.store_sameButMemory _ k n a v)

/-- XADD's next state with a memory destination: its read-modify-write, the source register and the flags (rule R178). -/
theorem xaddMemBody_eq (w : Width) (p : Pfx) (m : ModRM) (len : Nat) :
    let k := xaddAtomicity p
    let addr := (s.memRef p m len).addr
    let a := s.loadValue k w.bytes addr
    let b := s.readReg w (m.regNum p) p.hasRex
    xaddMemBody w p m len s =
      (((s.rmw k w.bytes addr (addValue w a b)).setRegs (s.writeReg w (m.regNum p) p.hasRex a).regs).setFlags
        (addFlags w a b)).setPc (s.nextPc len) := by
  intro k addr a b
  have hload := s.afterLoad_sameButMemory k w.bytes addr
  have hwrite : (s.afterLoad k w.bytes addr).writeReg w (m.regNum p) p.hasRex a =
      (s.afterLoad k w.bytes addr).setRegs (s.writeReg w (m.regNum p) p.hasRex a).regs := by
    rw [State.writeReg_eq, State.writeReg_regs_congr hload.regs]
  have hpc := State.nextPc_congr (s.rmw_sameButMemory k w.bytes addr (addValue w a b)).params
    (s.rmw_sameButMemory k w.bytes addr (addValue w a b)).pc len
  unfold xaddMemBody
  simp only
  rw [show (s.afterLoad (xaddAtomicity p) w.bytes (s.memRef p m len).addr).writeReg w (m.regNum p) p.hasRex
    (s.loadValue (xaddAtomicity p) w.bytes (s.memRef p m len).addr) = _ from hwrite]
  unfold State.store
  rw [State.storeBytes_setRegs, ← hpc]
  rfl

/-- XCHG's next state with a memory operand: its read-modify-write and the register (rule R208). -/
theorem xchgMemBody_eq (w : Width) (p : Pfx) (m : ModRM) (len : Nat) :
    let addr := (s.memRef p m len).addr
    let a := s.loadValue .locked w.bytes addr
    let b := s.readReg w (m.regNum p) p.hasRex
    xchgMemBody w p m len s =
      ((s.rmw .locked w.bytes addr b).setRegs (s.writeReg w (m.regNum p) p.hasRex a).regs).setPc (s.nextPc len) := by
  intro addr a b
  have hrmw := s.rmw_sameButMemory .locked w.bytes addr b
  unfold xchgMemBody
  simp only
  show ((s.rmw .locked w.bytes addr b).writeReg w (m.regNum p) p.hasRex a).setPc ((s.rmw .locked w.bytes addr b).nextPc len) = _
  rw [State.writeReg_eq, State.writeReg_regs_congr hrmw.regs, State.nextPc_congr hrmw.params hrmw.pc]

/-! Where no store of another processor lands in it. -/

variable {s k}

theorem State.afterLoad_quiet (h : s.Quiet k) : (s.afterLoad k n a).Quiet k := h.of_bus (State.afterLoad_bus h n a)

/-- The bytes of the access hold what was stored. -/
theorem State.rmw_viewByte (h : s.Quiet k) (hn : (s.byteAddrs n a).Nodup) :
    (s.byteAddrs n a).map (s.rmw k n a v).viewByte = splitBytes n v := by
  have haddr := State.byteAddrs_congr (s.afterLoad_sameButMemory k n a).params n a
  have := State.storeBytes_viewByte (State.afterLoad_quiet n a h) (splitBytes n v) a (by rwa [splitBytes_length, haddr])
  rwa [splitBytes_length, haddr] at this

/-- Every other byte reads as before. -/
theorem State.rmw_sameViewBut (h : s.Quiet k) : s.SameViewBut (s.rmw k n a v) (s.byteAddrs n a) := by
  intro x hx
  have haddr := State.byteAddrs_congr (s.afterLoad_sameButMemory k n a).params n a
  have := State.storeBytes_viewByte_other (State.afterLoad_quiet n a h) (splitBytes n v) a (x := x)
    (by rwa [splitBytes_length, haddr])
  exact this.trans (State.afterLoad_viewByte h n a x)

/-- The stores of this processor that a read-modify-write makes outside a region (rules R76, R80). -/
def State.rmwStores (s : State) (n : Nat) (a v : Word) : List Host.Cell :=
  if s.rtmActive then [] else (s.byteAddrs n a).zip (splitBytes n v)

theorem State.rmw_queued (h : s.Quiet k) : s.Queued (s.rmwStores n a v) (s.rmw k n a v) := by
  have hload := s.afterLoad_sameButMemory k n a
  have haddr := State.byteAddrs_congr hload.params n a
  have hquiet := State.afterLoad_quiet n a h
  refine (State.afterLoad_queued h n a).trans (q := []) (r := s.rmwStores n a v) ?_
  unfold State.rmwStores
  cases ha : s.rtmActive with
  | true => exact State.storeBytes_queued_active hquiet (hload.region.active.trans ha) _ a
  | false =>
    have := State.storeBytes_queued hquiet (hload.region.active.trans ha) (splitBytes n v) a
    rwa [splitBytes_length, haddr] at this

theorem State.rmw_bus (h : s.Quiet k) : (s.rmw k n a v).bus = s.bus :=
  (State.storeBytes_bus (State.afterLoad_quiet n a h) _ a).trans (State.afterLoad_bus h n a)

variable (s k)

theorem State.rmw_readSet : (s.rmw k n a v).readSet = (s.afterLoad k n a).readSet := State.store_readSet ..

/-- Outside a region a read-modify-write leaves the sets. -/
theorem State.rmw_sameSets (ha : s.rtmActive = false) : s.SameSets (s.rmw k n a v) where
  writeSet := (State.storeBytes_writeSet_inactive ((s.afterLoad_sameButMemory k n a).region.active.trans ha) k _ a).trans
    (s.afterLoad_writeSet k n a)
  readSet := (s.rmw_readSet k n a v).trans (State.afterLoad_readSet_inactive ha k n a)

end Rmw

/-! What waits after it. -/

theorem splitBytes_ne_nil {n : Nat} (hn : 0 < n) (v : Word) : splitBytes n v ≠ [] := by
  rw [← List.length_pos_iff, splitBytes_length]; exact hn

theorem State.rmw_locked_buffer (s : State) {n : Nat} (hn : 0 < n) (a v : Word) : (s.rmw .locked n a v).storeBuffer = [] :=
  State.storeBytes_locked_buffer _ (splitBytes_ne_nil hn v) a

/-- Outside a region, a store that reaches shared memory at once takes with it what waited (rule R80). -/
theorem State.storeBytes_at_once_buffer {s : State} {k : Atomicity} (h : s.storesAtOnce k = true) (ha : s.rtmActive = false)
    {bs : List Byte} (hb : bs ≠ []) (a : Word) : (State.storeBytes k bs a s).storeBuffer = [] := by
  cases bs with
  | nil => exact absurd rfl hb
  | cons b bs =>
    have hk : ∀ u : State, u.params = s.params → u.storesAtOnce k = true := fun u hu => by
      unfold State.storesAtOnce; rw [hu]; exact h
    refine State.storeBytes_buffer_nil (hk _ (by simp)) ?_ bs _
    rcases (s.point k).storeByte_cases k ((s.point k).phys a) b with ⟨hactive, -⟩ | ⟨-, -, e⟩ | ⟨-, hlater, -⟩
    · simp [ha] at hactive
    · rw [e]; exact State.drain_storeBuffer _
    · rw [hk _ (s.point_params k)] at hlater; cases hlater

theorem State.rmw_sc_buffer {s : State} (hc : s.params.consistency = .sc) (ha : s.rtmActive = false) (k : Atomicity) {n : Nat}
    (hn : 0 < n) (a v : Word) : (s.rmw k n a v).storeBuffer = [] := by
  have hload := s.afterLoad_sameButMemory k n a
  refine State.storeBytes_at_once_buffer ?_ (hload.region.active.trans ha) (splitBytes_ne_nil hn v) a
  simp [State.storesAtOnce, hload.params, hc]

theorem State.rmw_locked_draws (s : State) (n : Nat) (a v : Word) : (s.rmw .locked n a v).draws = s.draws :=
  (State.storeBytes_locked_draws _ a _).trans (s.afterLoad_locked_draws n a)

theorem State.rmw_sc_draws {s : State} (hc : s.params.consistency = .sc) (hb : s.storeBuffer = []) (n : Nat) (a v : Word) :
    (s.rmw .plain n a v).draws = s.draws := by
  obtain ⟨-, hbuf, hdraws⟩ := State.afterLoad_plain_sc hb n a
  have hp := (s.afterLoad_sameButMemory .plain n a).params
  exact (State.storeBytes_plain_sc (hp ▸ hc) hbuf (splitBytes n v) a).2.1.trans hdraws

/-! The read set of a load, whatever its atomicity. -/

/-- What a noted read enters depends on the sets, the active bit and the byte read. -/
theorem State.noteRead_readSet_congr {s t : State} (hr : t.readSet = s.readSet) (hw : t.writeSet = s.writeSet)
    (ha : t.rtmActive = s.rtmActive) (a : Nat) (ho : t.ownByte a = s.ownByte a) :
    (t.noteRead a).readSet = (s.noteRead a).readSet := by
  unfold State.noteRead
  rw [ha, hw, hr, ho]
  split_ifs
  · rfl
  · exact hr

/-- A load that no store of another processor interrupts notes the bytes that a single access notes. -/
theorem State.afterLoad_readSet_single {s t : State} {k : Atomicity} (hk : s.Quiet k) (hr : s.readSet = t.readSet)
    (hw : s.writeSet = t.writeSet) (hp : s.params = t.params) (ha : s.rtmActive = t.rtmActive) (ho : ∀ x, s.ownByte x = t.ownByte x)
    (n : Nat) (a : Word) : (s.afterLoad k n a).readSet = (t.afterLoad .single n a).readSet := by
  unfold State.afterLoad
  induction n generalizing a s t with
  | zero => exact hr
  | succ n ih =>
    have hpoint : ∀ x, (s.point k).ownByte x = t.ownByte x := fun x => (State.point_ownByte hk x).trans (ho x)
    have hparams : (s.point k).params = t.params := (s.point_params k).trans hp
    simp only [State.loadBytes, State.point_single, State.phys_congr hparams, State.wrap_congr hparams]
    refine ih (hk.of_bus (by simp [State.point_bus hk])) ?_ (by simp [hw]) (by simp [hp]) (by simp [ha]) (by simp [hpoint]) _
    exact State.noteRead_readSet_congr (by simp [hr]) (by simp [hw]) (by simp [ha]) _ (hpoint _)

end Sys2Proof.Machine
end

section
/-! XADD and XCHG with a memory operand (rules R69 to R72, R76, R80, R178, R183, R208). -/

namespace Sys2Proof

theorem Width.bytes_le (w : Width) : w.bytes ≤ 8 := by cases w <;> simp [Width.bytes]

theorem Width.bytes_pos (w : Width) : 0 < w.bytes := by cases w <;> simp [Width.bytes]

theorem Width.bits_eq (w : Width) : w.bits = 8 * w.bytes := by cases w <;> rfl

end Sys2Proof

namespace Sys2Proof.Machine

/-- The value of as many bytes as a width has fits the width. -/
theorem joinBytes_lt_width {w : Width} {bs : List Byte} (h : bs.length = w.bytes) : (joinBytes bs).toNat < 2 ^ w.bits := by
  have := joinBytes_toNat_lt bs (h ▸ w.bytes_le)
  rwa [h, ← w.bits_eq] at this

theorem low_of_lt {n : Nat} {x : Word} (h : x.toNat < 2 ^ n) : x.low n = x := by
  apply BitVec.eq_of_toNat_eq
  rw [low_toNat, Nat.mod_eq_of_lt h]

/-- What the source register holds once a value of its width is written, and what the others hold. -/
theorem State.readReg_of_regs {s t : State} {w : Width} {n : RegNum} {rex : Bool} {v : Word} (h : t.regs = (s.writeReg w n rex v).regs)
    (hv : v.toNat < 2 ^ w.bits) : t.readReg w n rex = v ∧ s.SameRegsBut t [homeReg w n rex] := by
  constructor
  · rw [State.readReg_congr h, State.readReg_writeReg_same, low_of_lt hv]
  · intro x hx
    rw [show t.getReg x = (s.writeReg w n rex v).getReg x by unfold State.getReg; simp only [h]]
    exact s.writeReg_sameRegsBut w n rex v x hx

/-- XADD is quiet where it is locked or nothing is pending. -/
theorem xaddAtomicity_quiet {p : Pfx} {s : State} (h : p.lock = true ∨ s.bus = []) : s.Quiet (xaddAtomicity p) := by
  intro hplain
  rcases h with h | h
  · simp [xaddAtomicity, h] at hplain
  · exact h

theorem xaddAtomicity_locked {p : Pfx} (h : p.lock = true) : xaddAtomicity p = .locked := by simp [xaddAtomicity, h]

theorem xaddAtomicity_plain {p : Pfx} (h : p.lock = false) : xaddAtomicity p = .plain := by simp [xaddAtomicity, h]

/-- XADD with a memory destination completes where the access is admitted and stores to no program text. -/
theorem exec_xaddRm_mem {w : Width} {p : Pfx} {m : ModRM} {s : State} (hm : m.isMem = true)
    (ha : s.askAdmit .rmw (s.memRef p m (p.length + 2 + m.length)) w.bytes = none)
    (ht : s.storeHitsText w.bytes (s.memRef p m (p.length + 2 + m.length)).addr = false) :
    exec (Instr.xaddRm w p m) s = .next (xaddMemBody w p m (p.length + 2 + m.length) s) :=
  (exec_xaddRm w p m s).trans (xadd_mem hm (State.rmwStop_eq_none.2 ⟨ha, ht⟩))

theorem exec_xchgRm_mem {w : Width} {p : Pfx} {m : ModRM} {s : State} (hm : m.isMem = true)
    (ha : s.askAdmit .rmw (s.memRef p m (p.length + 1 + m.length)) w.bytes = none)
    (ht : s.storeHitsText w.bytes (s.memRef p m (p.length + 1 + m.length)).addr = false) :
    exec (Instr.xchgRm w p m) s = .next (xchgMemBody w p m (p.length + 1 + m.length) s) :=
  (exec_xchgRm w p m s).trans (xchg_mem hm (State.rmwStop_eq_none.2 ⟨ha, ht⟩))

/-- All that waited and was stored has drained, where nothing waits any more. -/
theorem length_le_of_drop_eq_nil {q b : List Host.Cell} {n : Nat} (h : b = q.drop n) (hb : b = []) : q.length ≤ n :=
  List.drop_eq_nil_iff.1 (h.symm.trans hb)

/-- Settles O33. -/
theorem xaddMemoryForm : Obligations.XaddMemoryForm := by
  intro w p m s hm ref addrs a b queue hquiet hadmit htext hnodup
  have hk := xaddAtomicity_quiet hquiet
  have hload : s.loadValue (xaddAtomicity p) w.bytes ref.addr = a := State.loadValue_quiet hk w.bytes ref.addr
  have hbody := xaddMemBody_eq s w p m (p.length + 2 + m.length)
  simp only [show (s.memRef p m (p.length + 2 + m.length)).addr = ref.addr from rfl, hload] at hbody
  have hrmw := s.rmw_sameButMemory (xaddAtomicity p) w.bytes ref.addr (addValue w a b)
  have hqueue : queue (addValue w a b) = s.storeBuffer ++ s.rmwStores w.bytes ref.addr (addValue w a b) := rfl
  obtain ⟨n, -, hbuffer, hmem⟩ := State.rmw_queued w.bytes ref.addr (addValue w a b) hk
  rw [← hqueue] at hbuffer hmem
  have hreg := State.readReg_of_regs (s := s) (v := a)
    (t := xaddMemBody w p m (p.length + 2 + m.length) s) (by rw [hbody]; rfl) (joinBytes_lt_width (by simp [addrs]))
  refine ⟨_, addValue w a b, n, exec_xaddRm_mem hm hadmit htext, addValue_toNat w a b, ?_⟩
  rw [hbody] at hreg ⊢
  refine ⟨State.rmw_viewByte w.bytes ref.addr _ hk hnodup, State.rmw_sameViewBut w.bytes ref.addr _ hk, hbuffer,
    fun x => by rw [← Memory.read_writeAll_newest, ← hmem]; rfl, ?_, fun ha => ?_, ?_, rfl, hreg.1, hreg.2, rfl, rfl, ?_, ?_,
    State.rmw_bus w.bytes ref.addr _ hk, ?_⟩
  · rintro (hlock | ⟨hsc, ha⟩)
    · exact length_le_of_drop_eq_nil hbuffer (by rw [xaddAtomicity_locked hlock]; exact s.rmw_locked_buffer w.bytes_pos _ _)
    · exact length_le_of_drop_eq_nil hbuffer (State.rmw_sc_buffer hsc ha _ w.bytes_pos _ _)
  · obtain ⟨hwrite, hread⟩ := s.rmw_sameSets (xaddAtomicity p) w.bytes ref.addr (addValue w a b) ha
    exact ⟨hwrite, hread⟩
  · exact (s.rmw_readSet ..).trans (State.afterLoad_readSet_single hk rfl rfl rfl rfl (fun _ => rfl) _ _)
  · obtain ⟨hactive, hnest, hfallback, hsaved⟩ := hrmw.region
    exact ⟨hactive, hnest, hfallback, hsaved⟩
  · exact ⟨hrmw.xcr0, hrmw.elided, hrmw.params⟩
  · intro h
    cases hlock : p.lock with
    | true => rw [xaddAtomicity_locked hlock]; exact s.rmw_locked_draws _ _ _
    | false =>
      obtain ⟨hsc, hempty⟩ := h.resolve_left (by simp [hlock])
      rw [xaddAtomicity_plain hlock]; exact State.rmw_sc_draws hsc hempty _ _ _

/-- Settles O38. -/
theorem xchgMemoryForm : Obligations.XchgMemoryForm := by
  intro w p m s hm ref addrs a b hadmit htext hnodup
  have hk := s.quiet_locked
  have hload : s.loadValue .locked w.bytes ref.addr = a := State.loadValue_quiet hk w.bytes ref.addr
  have hbody := xchgMemBody_eq s w p m (p.length + 1 + m.length)
  simp only [show (s.memRef p m (p.length + 1 + m.length)).addr = ref.addr from rfl, hload] at hbody
  have hrmw := s.rmw_sameButMemory .locked w.bytes ref.addr b
  have hempty := s.rmw_locked_buffer w.bytes_pos ref.addr b
  have hreg := State.readReg_of_regs (s := s) (v := a)
    (t := xchgMemBody w p m (p.length + 1 + m.length) s) (by rw [hbody]; rfl) (joinBytes_lt_width (by simp [addrs]))
  refine ⟨_, exec_xchgRm_mem hm hadmit htext, ?_⟩
  rw [hbody] at hreg ⊢
  refine ⟨State.rmw_viewByte w.bytes ref.addr _ hk hnodup, State.rmw_sameViewBut w.bytes ref.addr _ hk, hempty, fun x hx => ?_,
    fun ha => ?_, ?_, rfl, hreg.1, hreg.2, hrmw.flags, rfl, ?_, ?_, State.rmw_bus w.bytes ref.addr _ hk, s.rmw_locked_draws _ _ _⟩
  · have hnone : Cells.newest (s.rmwStores w.bytes ref.addr b) x = none := by
      unfold State.rmwStores
      split_ifs with ha
      · rfl
      · exact Cells.newest_zip_other _ (hx.resolve_left ha)
    have hown := (State.rmw_queued w.bytes ref.addr b hk).ownByte x
    rw [hnone, State.ownByte_of_buffer_nil hempty] at hown
    exact hown
  · obtain ⟨hwrite, hread⟩ := s.rmw_sameSets .locked w.bytes ref.addr b ha
    exact ⟨hwrite, hread⟩
  · exact (s.rmw_readSet ..).trans (State.afterLoad_readSet_single hk rfl rfl rfl rfl (fun _ => rfl) _ _)
  · obtain ⟨hactive, hnest, hfallback, hsaved⟩ := hrmw.region
    exact ⟨hactive, hnest, hfallback, hsaved⟩
  · exact ⟨hrmw.xcr0, hrmw.elided, hrmw.params⟩

/-! Interleaved with the stores of other processors. -/

/-- The batches that land during the store of a plain read-modify-write, after its load has taken its own. -/
theorem bus_of_store (bus : List (List Host.Cell)) (n k : Nat) :
    ((bus.drop n).take n).drop (k + 1) = (bus.take (2 * n)).drop (n + k + 1) := by
  rw [List.take_drop, List.drop_drop, Nat.two_mul, Nat.add_assoc]

theorem flatten_take_two_mul (bus : List (List Host.Cell)) (n : Nat) :
    (bus.take (2 * n)).flatten = (bus.take n).flatten ++ ((bus.drop n).take n).flatten := by
  rw [Nat.two_mul, List.take_add, List.flatten_append]

theorem exists_drop_of_suffix {l q : List Host.Cell} (h : l <:+ q) : ∃ n, l = q.drop n := ⟨_, List.suffix_iff_eq_drop.1 h⟩

section Plain

variable (s : State) (n : Nat) (a v : Word)

theorem State.rmw_plain_bus : (s.rmw .plain n a v).bus = s.bus.drop (2 * n) := by
  unfold State.rmw State.store
  rw [State.storeBytes_plain_bus, State.afterLoad_plain_bus, splitBytes_length, List.drop_drop, Nat.two_mul]

theorem State.rmw_buffer_suffix (k : Atomicity) : (s.rmw k n a v).storeBuffer <:+ s.storeBuffer ++ s.rmwStores n a v := by
  have hload := s.afterLoad_sameButMemory k n a
  have h := State.storeBytes_buffer_suffix k (splitBytes n v) a (s.afterLoad k n a)
  rw [hload.region.active, splitBytes_length, State.byteAddrs_congr hload.params] at h
  obtain ⟨l, hl⟩ := s.afterLoad_buffer_suffix k n a
  refine h.trans ⟨l, ?_⟩
  rw [← List.append_assoc, hl]
  rfl

variable {s n a}

/-- What becomes of byte `k` outside a region: only what lands after it is stored can overwrite it (rules R72, R183). -/
theorem State.rmw_plain_tracks (ha : s.rtmActive = false) (hn : (s.byteAddrs n a).Nodup) {k : Nat} (hk : k < (s.byteAddrs n a).length) :
    (s.rmw .plain n a v).Tracks (s.byteAddrs n a)[k] (v.extractLsb' (8 * k) 8)
      ((s.bus.take (2 * n)).drop (n + k + 1)).flatten := by
  have hload := s.afterLoad_sameButMemory .plain n a
  have haddr := State.byteAddrs_congr hload.params n a
  have hlt : k < (splitBytes n v).length := by simpa using hk
  have h := State.storeBytes_tracks (hload.region.active.trans ha) (splitBytes n v) a (by rwa [splitBytes_length, haddr]) k hlt
  have hbyte : (splitBytes n v)[k] = v.extractLsb' (8 * k) 8 := by
    have := splitBytes_getElem n v k (by simpa using hk)
    rwa [List.getElem?_eq_getElem hlt, Option.some.injEq] at this
  simp only [splitBytes_length, haddr, hbyte, State.afterLoad_plain_bus, bus_of_store] at h
  exact h

/-- What the write set holds of the access inside a region, and of every other byte (rule R76). -/
theorem State.rmw_writeSet_lookup (k : Atomicity) (ha : s.rtmActive = true) (hn : (s.byteAddrs n a).Nodup) :
    (∀ x ∉ s.byteAddrs n a, Cells.lookup (s.rmw k n a v).writeSet x = Cells.lookup s.writeSet x)
      ∧ ∀ (i : Nat) (h : i < (s.byteAddrs n a).length),
        Cells.lookup (s.rmw k n a v).writeSet (s.byteAddrs n a)[i] = some (v.extractLsb' (8 * i) 8) := by
  have hload := s.afterLoad_sameButMemory k n a
  have haddr := State.byteAddrs_congr hload.params n a
  obtain ⟨hother, heach⟩ := State.storeBytes_lookup k (splitBytes n v) a (s.afterLoad k n a) (hload.region.active.trans ha)
    (by rwa [splitBytes_length, haddr])
  simp only [splitBytes_length, haddr, State.afterLoad_writeSet] at hother heach
  refine ⟨hother, fun i h => ?_⟩
  have hi : i < n := by simpa using h
  have hbyte := splitBytes_getElem n v i hi
  rw [List.getElem?_eq_getElem (by simpa using hi), Option.some.injEq] at hbyte
  exact (heach i hi).trans (congrArg some hbyte)

/-- Under sequential consistency, with nothing waiting, the batches are written in order but where the sum is stored. -/
theorem State.rmw_plain_sc (hc : s.params.consistency = .sc) (hb : s.storeBuffer = []) :
    (s.rmw .plain n a v).storeBuffer = [] ∧ (s.rmw .plain n a v).draws = s.draws
      ∧ ∀ x, s.rtmActive = true ∨ x ∉ s.byteAddrs n a →
        (s.rmw .plain n a v).mem.read x = (Cells.newest (s.bus.take (2 * n)).flatten x).getD (s.mem.read x) := by
  have hload := s.afterLoad_sameButMemory .plain n a
  obtain ⟨hmem, hbuf, hdraws⟩ := State.afterLoad_plain_sc hb n a
  obtain ⟨hempty, hdraws', hread⟩ := State.storeBytes_plain_sc (hload.params ▸ hc) hbuf (splitBytes n v) a
  refine ⟨hempty, hdraws'.trans hdraws, fun x hx => ?_⟩
  simp only [splitBytes_length, hload.region.active, State.byteAddrs_congr hload.params, State.afterLoad_plain_bus, hmem,
    Memory.read_writeAll_newest] at hread
  rw [flatten_take_two_mul, Cells.newest_append, Option.getD_or]
  exact hread x hx

variable (s n a)

/-- Shared memory changes at the bytes stored, outside a region, and where stores land or drain (rules R76, R79). -/
theorem State.rmw_sameMemoryBut (k : Atomicity) :
    s.SameMemoryBut (s.rmw k n a v) ((if s.rtmActive then [] else s.byteAddrs n a) ++ s.busAddrs ++ s.bufferAddrs) := by
  intro x hx
  simp only [List.mem_append, not_or] at hx
  obtain ⟨⟨hown, hbus⟩, hbuf⟩ := hx
  have hload := s.afterLoad_sameButMemory k n a
  have hread := s.afterLoad_read_other k n a hbus hbuf
  have hbus' := State.afterLoad_busAddrs k n a hbus
  have hbuf' := State.afterLoad_bufferAddrs k n a hbuf
  cases ha : s.rtmActive with
  | true => exact (State.storeBytes_read_active k _ a (hload.region.active.trans ha) hbus' hbuf').trans hread
  | false =>
    refine (State.storeBytes_read_other k _ a _ ?_ hbus' hbuf').trans hread
    rw [splitBytes_length, State.byteAddrs_congr hload.params]
    simpa [ha] using hown

end Plain

/-- Byte `k` of a plain load (rule R72). -/
theorem State.loadValue_plain_byte (s : State) {n : Nat} (hn : n ≤ 8) (a : Word) {k : Nat} (hk : k < (s.byteAddrs n a).length) :
    (s.loadValue .plain n a).extractLsb' (8 * k) 8 = (State.land^[k + 1] s).viewByte (s.byteAddrs n a)[k] := by
  have hk' : k < n := by simpa using hk
  have hbyte := State.loadBytes_plain n a s k hk'
  rw [List.getElem?_eq_getElem (by simpa using hk'), Option.some.injEq] at hbyte
  unfold State.loadValue
  rw [joinBytes_extract _ (by simpa using hn) k (by simpa using hk'), hbyte]

/-- Inside a region a byte that the write set does not hold is read from outside it. -/
theorem State.land_viewByte_of_lookup_none {s : State} {x : Nat} (h : Cells.lookup s.writeSet x = none) (k : Nat) :
    (State.land^[k] s).viewByte x = (State.land^[k] s).ownByte x := by
  unfold State.viewByte
  rw [State.iterate_land_writeSet, h]
  split_ifs <;> rfl

/-- What the read set holds of the access, once its bytes have been read apart (rule R75). -/
theorem State.rmw_plain_readSet_lookup {s : State} {n : Nat} (hn8 : n ≤ 8) {a : Word} (v : Word) (ha : s.rtmActive = true)
    (hn : (s.byteAddrs n a).Nodup) {k : Nat} (hk : k < (s.byteAddrs n a).length) :
    Cells.lookup (s.rmw .plain n a v).readSet (s.byteAddrs n a)[k] =
      if Cells.lookup s.writeSet (s.byteAddrs n a)[k] = none ∧ Cells.lookup s.readSet (s.byteAddrs n a)[k] = none
      then some ((s.loadValue .plain n a).extractLsb' (8 * k) 8) else Cells.lookup s.readSet (s.byteAddrs n a)[k] := by
  rw [State.rmw_readSet, State.afterLoad_plain_lookup n a s ha hn k hk]
  split_ifs with h
  · rw [s.loadValue_plain_byte hn8 a hk, State.land_viewByte_of_lookup_none h.1]
  · rfl

/-- Settles O34. -/
theorem unlockedXaddIsInterleaved : Obligations.UnlockedXaddIsInterleaved := by
  intro w p m s hm hlock ref addrs b later hadmit htext hnodup
  set a := s.loadValue .plain w.bytes ref.addr with hload
  have hbody := xaddMemBody_eq s w p m (p.length + 2 + m.length)
  simp only [xaddAtomicity_plain hlock, show (s.memRef p m (p.length + 2 + m.length)).addr = ref.addr from rfl, ← hload] at hbody
  have hrmw := s.rmw_sameButMemory .plain w.bytes ref.addr (addValue w a b)
  have hsuffix := s.rmw_buffer_suffix w.bytes ref.addr (addValue w a b) .plain
  refine ⟨_, a, addValue w a b, exec_xaddRm_mem hm hadmit htext, fun k hk => s.loadValue_plain_byte w.bytes_le _ hk,
    joinBytes_lt_width (by simp), addValue_toNat w a b, ?_⟩
  rw [hbody]
  refine ⟨fun ha => ⟨?_, ?_, fun k hk => ?_⟩, fun ha => ⟨?_, fun x hx => ⟨?_, ?_⟩, fun k hk => ⟨?_, ?_⟩⟩,
    fun hsc hempty => State.rmw_plain_sc (addValue w a b) hsc hempty,
    s.rmw_sameMemoryBut w.bytes ref.addr (addValue w a b) .plain, rfl, rfl, rfl, s.rmw_plain_bus w.bytes ref.addr _, ?_, ?_⟩
  · obtain ⟨hwrite, hread⟩ := s.rmw_sameSets .plain w.bytes ref.addr (addValue w a b) ha
    exact ⟨hwrite, hread⟩
  · rw [State.rmwStores, ha] at hsuffix
    exact exists_drop_of_suffix hsuffix
  · obtain ⟨j, hj, hown⟩ := (State.rmw_plain_tracks (addValue w a b) ha hnodup hk).ownByte
    rw [hrmw.params] at hj
    refine ⟨j, hj, ?_⟩
    show (s.rmw .plain w.bytes ref.addr (addValue w a b)).viewByte addrs[k] = _
    unfold State.viewByte
    rw [hrmw.region.active, ha]
    exact hown
  · rw [State.rmwStores, ha] at hsuffix
    exact exists_drop_of_suffix (by simpa using hsuffix)
  · exact (State.rmw_writeSet_lookup (addValue w a b) .plain ha hnodup).1 x hx
  · exact (congrArg (Cells.lookup · x) (s.rmw_readSet ..)).trans (State.afterLoad_lookup_other .plain w.bytes ref.addr s hx)
  · exact (State.rmw_writeSet_lookup (addValue w a b) .plain ha hnodup).2 k hk
  · exact State.rmw_plain_readSet_lookup w.bytes_le (addValue w a b) ha hnodup hk
  · obtain ⟨hactive, hnest, hfallback, hsaved⟩ := hrmw.region
    exact ⟨hactive, hnest, hfallback, hsaved⟩
  · exact ⟨hrmw.xcr0, hrmw.elided, hrmw.params⟩

/-! Hinted (rules R145, R147, R148). -/

theorem hintedPlain_elided {h : Hinted} {s t : State} (hx : hintedPlain h s = .next t) : t.hleElided = s.hleElided := by
  obtain ⟨op, p, m⟩ := h
  cases op with
  | xadd w =>
    rcases xadd_next hx with ⟨-, rfl⟩ | ⟨-, -, rfl⟩
    · rfl
    · rw [xaddMemBody_eq]; exact (s.rmw_sameButMemory ..).elided
  | xchg w =>
    rcases xchg_next hx with ⟨-, rfl⟩ | ⟨-, -, rfl⟩
    · rfl
    · rw [xchgMemBody_eq]; exact (s.rmw_sameButMemory ..).elided

/-- The instruction that a hint is before completes where its access is admitted and stores to no program text; it keeps the launch
parameters and the elided address. -/
theorem hintedPlain_admitted {h : Hinted} {s : State}
    (ha : s.askAdmit .rmw (s.memRef h.p h.m h.plain.length) h.op.width.bytes = none)
    (ht : s.storeHitsText h.op.width.bytes (s.memRef h.p h.m h.plain.length).addr = false) :
    ∃ u, hintedPlain h s = .next u ∧ u.params = s.params ∧ u.hleElided = s.hleElided := by
  rcases hintedPlain_cases h s with ⟨u, hu⟩ | ⟨-, hstop⟩
  · exact ⟨u, hu, (hintedPlain_completes hu).params, hintedPlain_elided hu⟩
  · rw [State.rmwStop_eq_none.2 ⟨ha, ht⟩] at hstop; cases hstop

/-- Settles O40. -/
theorem xacquireRunsItsInstruction : Obligations.XacquireRunsItsInstruction := by
  intro h s hm ref ha ht
  obtain ⟨u, hu, hp, he⟩ := hintedPlain_admitted ha ht
  refine ⟨u, acquireElision ref.addr u, hintedPlain_eq h s ▸ hu, ?_, ?_, he, ?_⟩
  · show onNext _ (hintedPlain h s) = _
    rw [hu]; rfl
  · rw [acquireElision_eq, hp, he]; rfl
  · rw [acquireElision_eq]; rfl

/-- Settles O41. -/
theorem xreleaseRunsItsInstruction : Obligations.XreleaseRunsItsInstruction := by
  intro h s hm ref ha ht
  obtain ⟨u, hu, hp, he⟩ := hintedPlain_admitted ha ht
  refine ⟨u, releaseElision ref.addr u, hintedPlain_eq h s ▸ hu, ?_, ?_, he, ?_⟩
  · show onNext _ (hintedPlain h s) = _
    rw [hu]; rfl
  · rw [releaseElision_eq, hp, he]
    simp
  · rw [releaseElision_eq]; rfl

end Sys2Proof.Machine
end

section
/-! XABORT and XBEGIN, and the aborts that any instruction may give way to (rules R163 to R166, R193, R194). -/

namespace Sys2Proof.Machine

/-! Aborts with a status of the model's choice. -/

/-- An abort is one of the state before its draws. -/
theorem State.aborted_setDraws_abortedTo (s : State) (d : Draws) (r : Saved) (f : Word) (status : BitVec 32) :
    s.AbortedTo r f status ((s.setDraws d).aborted r f status) :=
  ((s.setDraws d).aborted_abortedTo r f status).of_same rfl rfl rfl rfl rfl

/-- An abort for a cause other than XABORT, with the status that the next draw gives. -/
theorem abortOther_abortedTo {s : State} {r : Saved} {f : Word} (hr : s.rtmSaved = some r) (hf : s.fallback = some f) :
    ∃ t, abortOther s = .next t ∧ s.AbortedTo r f s.abortStatusOther t :=
  ⟨_, abortOther_of_record hr hf, s.aborted_setDraws_abortedTo _ r f _⟩

theorem State.abortStatusOther_given (s : State) (status : BitVec 32) (c : Nat) :
    (s.setDraws { given := [status.setWidth 64], count := c }).abortStatusOther = status := status_drawn status

/-- Abort processing does not look at the draws. -/
theorem State.AbortedTo.of_setDraws {s t : State} {d : Draws} {r : Saved} {f : Word} {status : BitVec 32}
    (h : (s.setDraws d).AbortedTo r f status t) : s.AbortedTo r f status t := h.of_same rfl rfl rfl rfl rfl

/-- Every status is admitted. -/
theorem abortOther_any_status {s : State} {r : Saved} {f : Word} (hr : s.rtmSaved = some r) (hf : s.fallback = some f)
    (status : BitVec 32) (c : Nat) :
    ∃ t, abortOther (s.setDraws { given := [status.setWidth 64], count := c }) = .next t ∧ s.AbortedTo r f status t := by
  obtain ⟨t, ht, habort⟩ := abortOther_abortedTo (s := s.setDraws { given := [status.setWidth 64], count := c }) hr hf
  rw [State.abortStatusOther_given] at habort
  exact ⟨t, ht, habort.of_setDraws⟩

/-! XABORT. -/

/-- Settles O42. -/
theorem xabortOutsideARegionIsANop : Obligations.XabortOutsideARegionIsANop := by
  intro p imm8 s hrtm ha
  have hexec : exec (.xabort p imm8) s = .next (s.advance (p.length + 3)) := by
    show needsRtm s _ = _
    rw [needsRtm_of hrtm, if_neg (by simp [ha])]
    rfl
  exact ⟨_, hexec, rfl, rfl, rfl, fun _ => rfl, ⟨rfl, rfl, rfl, rfl⟩, ⟨rfl, rfl⟩, ⟨⟨rfl, rfl, rfl⟩, rfl, rfl, rfl⟩⟩

theorem exec_xabort_of_record {s : State} {r : Saved} {f : Word} (hrtm : s.params.cpuidRtm = true) (ha : s.rtmActive = true)
    (hr : s.rtmSaved = some r) (hf : s.fallback = some f) (p : Pfx) (imm8 : BitVec 8) :
    exec (.xabort p imm8) s = .next (s.afterDraw.aborted r f (s.abortStatusXabort imm8)) := by
  show needsRtm s _ = _
  rw [needsRtm_of hrtm, if_pos ha]
  exact rtmAbort_of_record (s := s.afterDraw) hr hf _

/-- The free bits of XABORT's status are the low bits of some draw (rule R165). -/
theorem low_status_drawn (low : BitVec 24) : (low.setWidth 64).extractLsb' 0 24 = low := by
  apply BitVec.eq_of_toNat_eq
  have := low.isLt
  simp
  omega

/-- Settles O43. -/
theorem xabortInsideARegionAborts : Obligations.XabortInsideARegionAborts := by
  intro p imm8 s r f hrtm ha hr hf
  refine ⟨⟨_, _, exec_xabort_of_record hrtm ha hr hf p imm8, s.aborted_setDraws_abortedTo _ r f _, ?_⟩, fun low => ?_⟩
  · exact BitVec.extractLsb'_append_eq_left
  · refine ⟨{ given := [low.setWidth 64], count := 0 }, _,
      exec_xabort_of_record (s := s.setDraws { given := [low.setWidth 64], count := 0 }) hrtm ha hr hf p imm8, ?_⟩
    have hstatus : (s.setDraws { given := [low.setWidth 64], count := 0 }).abortStatusXabort imm8 = imm8 ++ low :=
      congrArg (imm8 ++ ·) (low_status_drawn low)
    rw [hstatus]
    exact s.aborted_setDraws_abortedTo _ r f _

/-! XBEGIN. -/

theorem xbegin_at_limit {s : State} (hrtm : s.params.cpuidRtm = true) (hn : s.rtmNest = s.params.maxNest) (target : Word) (len : Nat) :
    xbegin target len s = abortOther s := by
  unfold xbegin
  rw [needsRtm_of hrtm, if_pos hn]

theorem xbegin_below_limit {s : State} (hrtm : s.params.cpuidRtm = true) (hn : s.rtmNest ≠ s.params.maxNest) (target : Word)
    (len : Nat) :
    xbegin target len s
      = .next (((if s.rtmActive then s else s.beginRegion target).setNest (s.rtmNest + 1)).advance len) := by
  unfold xbegin
  rw [needsRtm_of hrtm, if_neg hn]

/-- A code address plus a signed offset, modulo 2^P (rule R193). -/
theorem State.wrap_add_rel_toNat (s : State) (x : Word) {n : Nat} (hn : n ≤ 64) (rel : BitVec n) :
    ((s.wrap (x + rel.signExtend 64)).toNat : Int) = (x.toNat + rel.toInt) % 2 ^ Mode.linearBits s.mode :=
  low_toNat_of_modEq (Mode.linearBits_le _) <| (word_add_modEq _ _).trans <|
    Int.ModEq.rfl.add <| (toNat_modEq_toInt _).trans (by rw [BitVec.toInt_signExtend_of_le hn])

/-- What an outermost XBEGIN leaves, whatever its target. -/
theorem xbegin_opens {s : State} (hrtm : s.params.cpuidRtm = true) (ha : s.rtmActive = false) (hn : s.rtmNest ≠ s.params.maxNest)
    (target : Word) (len : Nat) : xbegin target len s = .next (((s.beginRegion target).setNest (s.rtmNest + 1)).advance len) := by
  rw [xbegin_below_limit hrtm hn, if_neg (by simp [ha])]

theorem exec_xbeginRel16 (p : Pfx) (rel : BitVec 16) (s : State) :
    exec (.xbeginRel16 p rel) s
      = xbegin ((s.wrap (s.nextPc (p.length + 4) + rel.signExtend 64)).low 16) (p.length + 4) s := rfl

theorem exec_xbeginRel32 (p : Pfx) (rel : BitVec 32) (s : State) :
    exec (.xbeginRel32 p rel) s = xbegin (s.wrap (s.nextPc (p.length + 6) + rel.signExtend 64)) (p.length + 6) s := rfl

theorem State.beginRegion_sameSystem (s : State) (target : Word) (len : Nat) :
    s.SameSystem (((s.beginRegion target).setNest (s.rtmNest + 1)).advance len) where
  xcr0 := s.beginRegion_xcr0 target
  elided := s.beginRegion_hleElided target
  params := s.beginRegion_params target
  storeBuffer := s.beginRegion_storeBuffer target
  bus := s.beginRegion_bus target
  draws := s.beginRegion_draws target

/-- Settles O46. -/
theorem outermostXbeginOpensARegion : Obligations.OutermostXbeginOpensARegion := by
  intro p s hrtm ha hn opened
  have hopened : ∀ (target : Word) (len : Nat) (z : Int), (target.toNat : Int) = z →
      opened (((s.beginRegion target).setNest (s.rtmNest + 1)).advance len) len z := fun target len z hz =>
    ⟨rfl, rfl, ⟨target, rfl, hz⟩, by simp [State.advance, State.toSaved], rfl, rfl, by simp [State.advance], rfl, rfl, fun _ => rfl,
      s.beginRegion_sameSystem target len⟩
  refine ⟨fun rel => ⟨_, (exec_xbeginRel16 p rel s).trans (xbegin_opens hrtm ha hn _ _), hopened _ _ _ ?_⟩,
    fun rel => ⟨_, (exec_xbeginRel32 p rel s).trans (xbegin_opens hrtm ha hn _ _), hopened _ _ _ ?_⟩⟩
  · rw [low_toNat, Int.natCast_mod, s.wrap_add_rel_toNat _ (by norm_num) rel]
    norm_cast
  · exact s.wrap_add_rel_toNat _ (by norm_num) rel

/-- Both encodings of XBEGIN are one meaning, each with its target. -/
theorem exec_xbegin {i : Instr} (hi : (∃ p rel, i = .xbeginRel16 p rel) ∨ ∃ p rel, i = .xbeginRel32 p rel) (s : State) :
    ∃ target, exec i s = xbegin target i.length s := by
  rcases hi with ⟨p, rel, rfl⟩ | ⟨p, rel, rfl⟩
  · exact ⟨_, exec_xbeginRel16 p rel s⟩
  · exact ⟨_, exec_xbeginRel32 p rel s⟩

/-- Settles O47. -/
theorem nestedXbeginCountsOrAborts : Obligations.NestedXbeginCountsOrAborts := by
  intro i s hi hrtm ha
  obtain ⟨target, hexec⟩ := exec_xbegin hi s
  refine ⟨fun hn => ?_, fun hn r f hr hf => ⟨?_, fun status => ?_⟩⟩
  · refine ⟨(s.setNest (s.rtmNest + 1)).advance i.length, ?_, rfl, ha, rfl, rfl, rfl, rfl, rfl, fun _ => rfl, ⟨rfl, rfl⟩,
      ⟨⟨rfl, rfl, rfl⟩, rfl, rfl, rfl⟩⟩
    rw [hexec, xbegin_below_limit hrtm hn, if_pos ha]
  · obtain ⟨t, ht, habort⟩ := abortOther_abortedTo hr hf
    exact ⟨t, _, by rw [hexec, xbegin_at_limit hrtm hn, ht], habort⟩
  · obtain ⟨t, ht, habort⟩ := abortOther_any_status hr hf status 0
    obtain ⟨target', hexec'⟩ := exec_xbegin hi (s.setDraws { given := [status.setWidth 64], count := 0 })
    exact ⟨_, t, by rw [hexec', xbegin_at_limit (s := s.setDraws { given := [status.setWidth 64], count := 0 }) hrtm hn, ht], habort⟩

/-! Boundaries. -/

theorem State.busHitsText_setDraws (s : State) (d : Draws) : (s.setDraws d).busHitsText = s.busHitsText := rfl

/-- A draw of 1 chooses. -/
theorem State.chosen_given (s : State) (vs : List Word) (c : Nat) :
    (s.setDraws { given := 1#64 :: vs, count := c }).chosen = true := by
  rw [State.chosen, State.drawn_given (v := 1#64) rfl]
  decide

/-- Settles O52: the draws that the landing takes come first, then the choice to abort, then the status. -/
theorem regionMayAbortAtEveryBoundary : Obligations.RegionMayAbortAtEveryBoundary := by
  intro s r f status ha hr hf hbus
  obtain ⟨g, hland⟩ := s.land_setDraws [1#64, status.setWidth 64]
  obtain ⟨c, hc⟩ := hland 0
  have hregion := s.land_sameButMemory.region
  obtain ⟨t, ht, habort⟩ := abortOther_any_status (hregion.saved.trans hr) (hregion.fallback.trans hf) status (c + 1)
  refine ⟨{ given := g ++ [1#64, status.setWidth 64], count := 0 }, t, ?_, habort⟩
  rw [← ht]
  unfold step oneStep
  rw [State.busHitsText_setDraws, if_neg (by simp [hbus]), hc]
  unfold boundary
  rw [State.setDraws_rtmActive, hregion.active, ha, if_pos rfl, if_pos (s.land.chosen_given _ _)]
  rfl

end Sys2Proof.Machine
end

section
/-! XEND (rules R77, R222, R223). -/

namespace Sys2Proof.Machine

/-- Settles O48. -/
theorem xendOutsideARegionFaults : Obligations.XendOutsideARegionFaults := by
  intro p s hrtm ha
  show needsRtm s _ = _
  rw [needsRtm_of hrtm, if_neg (by simp [ha])]
  rfl

/-- Settles O49. -/
theorem innerXendCountsDown : Obligations.InnerXendCountsDown := by
  intro p s hrtm ha hn
  refine ⟨(s.setNest (s.rtmNest - 1)).advance (p.length + 3), ?_, Nat.sub_add_cancel (by omega), ha, rfl, rfl, rfl, rfl, rfl,
    fun _ => rfl, ⟨rfl, rfl⟩, ⟨⟨rfl, rfl, rfl⟩, rfl, rfl, rfl⟩⟩
  exact (execXend_active hrtm ha).trans (if_neg (by omega))

/-! The outermost XEND. -/

section Outermost

variable {s : State} (hrtm : s.params.cpuidRtm = true) (ha : s.rtmActive = true) (hn : s.rtmNest = 1)

include hrtm ha hn

theorem exec_xend_outermost (p : Pfx) : exec (.xend p) s = commit (p.length + 3) (s.setNest 0) := by
  show execXend p s = _
  rw [execXend_active hrtm ha, hn]
  rfl

/-- A commit that validates and is not chosen to fail. -/
theorem exec_xend_commits (p : Pfx) (hv : ∀ c ∈ s.readSet, s.ownByte c.1 = c.2) (hc : s.chosen = false) :
    exec (.xend p) s = .next (s.committed.advance (p.length + 3)) := by
  rw [exec_xend_outermost hrtm ha hn]
  unfold commit
  have hvalid : (s.setNest 0).drain.readSetValid = true := (s.setNest 0).drain_readSetValid.2 hv
  have hchosen : (s.setNest 0).drain.chosen = false := hc
  simp only [hvalid, hchosen]
  rfl

/-- A commit that does not validate or is chosen to fail is an abort, the store buffer drained (decision D33). -/
theorem exec_xend_fails (p : Pfx) (hf : (∃ c ∈ s.readSet, s.ownByte c.1 ≠ c.2) ∨ s.chosen = true) :
    exec (.xend p) s = abortOther ((s.setNest 0).drain.afterDraw) := by
  rw [exec_xend_outermost hrtm ha hn]
  unfold commit
  refine if_neg fun h => ?_
  obtain ⟨hvalid, hchosen⟩ : (s.setNest 0).drain.readSetValid = true ∧ (s.setNest 0).drain.chosen = false := by simpa using h
  rcases hf with ⟨c, hmem, hne⟩ | hc
  · exact hne ((s.setNest 0).drain_readSetValid.1 hvalid c hmem)
  · exact Bool.false_ne_true (hchosen.symm.trans hc)

/-- What a failed commit leaves (rules R77, R164). -/
theorem exec_xend_abortedTo (p : Pfx) (hfail : (∃ c ∈ s.readSet, s.ownByte c.1 ≠ c.2) ∨ s.chosen = true) {r : Saved} {f : Word}
    (hr : s.rtmSaved = some r) (hf : s.fallback = some f) :
    ∃ t, exec (.xend p) s = .next t ∧ s.drain.AbortedTo r f s.afterDraw.abortStatusOther t := by
  refine ⟨_, (exec_xend_fails hrtm ha hn p hfail).trans (abortOther_of_record (r := r) (f := f) hr hf), ?_⟩
  rw [s.aborted_of_commit]
  exact s.drain.aborted_setDraws_abortedTo _ r f _

end Outermost

/-- Settles O50. -/
theorem outermostXendCommits : Obligations.OutermostXendCommits := by
  intro p s hrtm ha hn hrising hvalid hchosen
  refine ⟨_, exec_xend_commits hrtm ha hn p hvalid hchosen, fun a => ?_, s.committed_storeBuffer, s.committed_writeSet,
    s.committed_readSet, s.committed_rtmActive, s.committed_rtmNest, s.committed_rtmSaved, s.committed_fallback,
    s.nextPc_committed _, s.committed_regs, s.committed_flags, ⟨s.committed_xcr0, s.committed_hleElided, s.committed_params⟩,
    s.committed_bus⟩
  show s.committed.mem.read a = _
  rw [State.committed_mem, Memory.read_writeAll _ hrising, Memory.read_writeAll_newest]

/-- Settles O51: the first draw decides the commit, the second is the status. -/
theorem outermostXendMayFail : Obligations.OutermostXendMayFail := by
  intro p s r f hrtm ha hn hr hf
  refine ⟨fun hfail => ?_, fun status => ?_, fun hvalid => ?_⟩
  · obtain ⟨t, ht, habort⟩ := exec_xend_abortedTo hrtm ha hn p hfail hr hf
    exact ⟨t, _, ht, habort⟩
  · obtain ⟨t, ht, habort⟩ := exec_xend_abortedTo (s := s.setDraws { given := [1#64, status.setWidth 64], count := 0 }) hrtm ha hn p
      (.inr (s.chosen_given _ _)) hr hf
    have hstatus : (s.setDraws { given := [1#64, status.setWidth 64], count := 0 }).afterDraw.abortStatusOther = status :=
      status_drawn status
    rw [hstatus] at habort
    exact ⟨_, t, ht, habort.of_same rfl rfl rfl rfl rfl⟩
  · refine ⟨{ given := [0#64], count := 0 }, _,
      exec_xend_commits (s := s.setDraws { given := [0#64], count := 0 }) hrtm ha hn p hvalid ?_, ?_, ?_, ?_⟩
    · rw [State.chosen, State.drawn_given (v := 0#64) rfl]
      decide
    all_goals simp [State.advance]

end Sys2Proof.Machine
end

section
/-! Loads and stores inside a region, and what an instruction there leaves of shared memory (rules R75, R76, R79). -/

namespace Sys2Proof.Machine

theorem State.viewByte_active {s : State} (ha : s.rtmActive = true) (x : Nat) :
    s.viewByte x = (Cells.lookup s.writeSet x).getD (s.ownByte x) := by
  unfold State.viewByte
  rw [ha]
  cases Cells.lookup s.writeSet x <;> rfl

/-- Settles O53. -/
theorem transactionalReadsAreNoted : Obligations.TransactionalReadsAreNoted := by
  intro s k n a ha hk
  refine ⟨?_, s.afterLoad_writeSet k n a, fun x => ?_⟩
  · rw [State.loadValue_quiet hk, List.map_congr_left fun x _ => State.viewByte_active ha x]
    rfl
  · rw [State.afterLoad_lookup hk]
    simp only [ha, true_and]
    rfl

/-- Settles O54. -/
theorem transactionalWritesAreBuffered : Obligations.TransactionalWritesAreBuffered := by
  intro s k n a v ha hk hn
  obtain ⟨d, -, hbuf, hmem⟩ := State.storeBytes_queued_active hk ha (splitBytes n v) a
  obtain ⟨hother, heach⟩ := State.storeBytes_lookup k (splitBytes n v) a s ha (by rwa [splitBytes_length])
  simp only [List.append_nil, splitBytes_length] at hbuf hmem hother heach
  refine ⟨⟨d, hbuf, fun x => ?_⟩, s.store_readSet k n a v, hother, fun i h => ?_⟩
  · rw [← Memory.read_writeAll_newest, ← hmem]
    rfl
  · have hi : i < n := by simpa using h
    have hbyte := splitBytes_getElem n v i hi
    rw [List.getElem?_eq_getElem (by simpa using hi), Option.some.injEq] at hbyte
    exact (heach i hi).trans (congrArg some hbyte)

/-! Shared memory. -/

theorem State.SameMemoryBut.of_mem {s t : State} (h : t.mem = s.mem) (as : List Nat) : s.SameMemoryBut t as := fun x _ => by rw [h]

/-- Inside a region a read-modify-write leaves shared memory, but where stores land or drain. -/
theorem State.rmw_sameMemoryBut_active {s : State} (ha : s.rtmActive = true) (k : Atomicity) (n : Nat) (a v : Word) :
    s.SameMemoryBut (s.rmw k n a v) (s.busAddrs ++ s.bufferAddrs) := by
  have h := s.rmw_sameMemoryBut n a v k
  rwa [ha, if_pos rfl, List.nil_append] at h

theorem hintedPlain_sameMemoryBut {h : Hinted} {s t : State} (ha : s.rtmActive = true) (hx : hintedPlain h s = .next t) :
    s.SameMemoryBut t (s.busAddrs ++ s.bufferAddrs) := by
  obtain ⟨op, p, m⟩ := h
  cases op with
  | xadd w =>
    rcases xadd_next hx with ⟨-, rfl⟩ | ⟨-, -, rfl⟩
    · exact .of_mem rfl _
    · rw [xaddMemBody_eq]; exact State.rmw_sameMemoryBut_active ha _ _ _ _
  | xchg w =>
    rcases xchg_next hx with ⟨-, rfl⟩ | ⟨-, -, rfl⟩
    · exact .of_mem rfl _
    · rw [xchgMemBody_eq]; exact State.rmw_sameMemoryBut_active ha _ _ _ _

/-- An abort leaves shared memory, but where the store buffer drains. -/
theorem State.Aborts.sameMemoryBut {s t : State} (h : s.Aborts t) (as : List Nat) : s.SameMemoryBut t (as ++ s.bufferAddrs) := by
  obtain ⟨-, r, f, status, d, u, -, -, hu, rfl⟩ := h
  intro x hx
  rw [State.aborted_mem]
  rcases hu with rfl | rfl
  · rfl
  · exact (s.drainTo_queued _).read_other (fun hb => hx (List.mem_append_right _ hb)) (by simp)

theorem xbegin_sameMemoryBut {target : Word} {len : Nat} {s t : State} (ha : s.rtmActive = true)
    (h : xbegin target len s = .next t) : s.SameMemoryBut t (s.busAddrs ++ s.bufferAddrs) := by
  rcases xbegin_next_cases h with ⟨-, rfl⟩ | habort
  · rw [if_pos ha]; exact .of_mem rfl _
  · exact habort.sameMemoryBut _

/-- Settles O55. -/
theorem regionLeavesSharedMemory : Obligations.RegionLeavesSharedMemory := by
  intro i s t ha h hinner
  rcases i.kinds with ⟨k, hk⟩ | ⟨o, p, r, rfl⟩ | hr | ⟨p, rfl⟩ | ⟨p, rfl⟩
  · obtain ⟨u, e, hu, rfl⟩ := exec_forms_next hk h
    have hsame : s.SameMemoryBut u (s.busAddrs ++ s.bufferAddrs) := hintedPlain_sameMemoryBut ha hu
    exact hsame
  · rw [exec_xchgAcc, xchgAcc_next] at h
    cases h
    split_ifs <;> exact .of_mem rfl _
  · rcases Instr.isRtm_cases hr with ⟨p, imm8, rfl⟩ | ⟨p, rel, rfl⟩ | ⟨p, rel, rfl⟩ | ⟨p, rfl⟩
    · rcases execXabort_next_cases h with ⟨-, rfl⟩ | habort
      · exact .of_mem rfl _
      · exact habort.sameMemoryBut _
    · exact xbegin_sameMemoryBut ha h
    · exact xbegin_sameMemoryBut ha h
    · obtain ⟨-, ⟨-, rfl⟩ | ⟨hn, -⟩ | habort⟩ := execXend_next_cases h
      · exact .of_mem rfl _
      · have := hinner ⟨p, rfl⟩
        omega
      · exact habort.sameMemoryBut _
  · obtain ⟨-, -, rfl⟩ := execXgetbv_next h
    exact .of_mem rfl _
  · obtain ⟨-, rfl⟩ := execXlat_next h
    exact .of_mem (s.afterLoad_single 1 _).1 _

end Sys2Proof.Machine
end

section
/-! XGETBV (rules R232, R233, R235). -/

namespace Sys2Proof.Machine

/-- The value read: XCR0 in its implemented bits, the drawn value in the others. -/
theorem State.xcr0Value_getLsbD (s : State) {k : Nat} (hk : k < 64) :
    s.xcr0Value.getLsbD k = if s.params.xcr0ImplMask.getLsbD k then s.xcr0.getLsbD k else s.drawn.getLsbD k := by
  unfold State.xcr0Value
  by_cases hall : s.params.xcr0ImplMask = BitVec.allOnes 64
  · rw [if_pos hall, hall, BitVec.getLsbD_allOnes, decide_eq_true hk, if_pos rfl]
  · rw [if_neg hall, BitVec.getLsbD_or, BitVec.getLsbD_and, BitVec.getLsbD_and, BitVec.getLsbD_not, decide_eq_true hk]
    cases s.params.xcr0ImplMask.getLsbD k <;> simp

/-- Register 0 holds the low half. -/
theorem State.writeEdxEax_getReg_eax (s : State) (v : Word) : (s.writeEdxEax v).getReg 0#4 = v.low 32 := by
  unfold State.writeEdxEax
  rw [State.getReg_setReg_other _ _ (by decide), State.getReg_setReg_same]

/-- Register 2 holds the high half. -/
theorem State.writeEdxEax_getReg_edx (s : State) (v : Word) : (s.writeEdxEax v).getReg 2#4 = Word.low 32 (v >>> 32) :=
  State.getReg_setReg_same _ _ _

theorem State.writeEdxEax_sameRegsBut (s : State) (v : Word) : s.SameRegsBut (s.writeEdxEax v) [0#4, 2#4] := by
  intro n hn
  obtain ⟨h0, h2⟩ : n ≠ 0#4 ∧ n ≠ 2#4 := by simpa using hn
  unfold State.writeEdxEax
  rw [State.getReg_setReg_other _ _ h2, State.getReg_setReg_other _ _ h0]

theorem low32_lt (v : Word) : (v.low 32).toNat < 2 ^ 32 := by
  rw [low_toNat]; exact Nat.mod_lt _ (by norm_num)

/-- XGETBV's next state, with the values drawn from `d`. -/
def State.xgetbvState (s : State) (p : Pfx) (d : Draws) : State :=
  ((s.setDraws d).afterDraw.writeEdxEax (s.setDraws d).xcr0Value).advance (p.length + 3)

theorem exec_xgetbv {s : State} (hos : s.params.osxsave = true) (hecx : (s.getReg 1#4).toNat % 2 ^ 32 = 0) (p : Pfx) (d : Draws) :
    exec (.xgetbv p) (s.setDraws d) = .next (s.xgetbvState p d) := by
  have hzero : ((s.setDraws d).getReg 1#4).low 32 = 0 := BitVec.eq_of_toNat_eq (by rw [low_toNat]; exact hecx)
  show execXgetbv p (s.setDraws d) = _
  unfold execXgetbv
  rw [if_pos (show (s.setDraws d).params.osxsave = true from hos), if_pos hzero]
  rfl

/-- What XGETBV leaves in its low half and its high half, bit by bit. -/
theorem State.xgetbvState_bits (s : State) (p : Pfx) (d : Draws) {k : Nat} (hk : k < 32) :
    ((s.xgetbvState p d).getReg 0#4).getLsbD k
        = (if s.params.xcr0ImplMask.getLsbD k then s.xcr0.getLsbD k else (s.setDraws d).drawn.getLsbD k)
      ∧ ((s.xgetbvState p d).getReg 2#4).getLsbD k
        = (if s.params.xcr0ImplMask.getLsbD (32 + k) then s.xcr0.getLsbD (32 + k) else (s.setDraws d).drawn.getLsbD (32 + k)) := by
  have heax : (s.xgetbvState p d).getReg 0#4 = (s.setDraws d).xcr0Value.low 32 := State.writeEdxEax_getReg_eax _ _
  have hedx : (s.xgetbvState p d).getReg 2#4 = Word.low 32 ((s.setDraws d).xcr0Value >>> 32) := State.writeEdxEax_getReg_edx _ _
  rw [heax, hedx, getLsbD_low, getLsbD_low, BitVec.getLsbD_ushiftRight, State.xcr0Value_getLsbD _ (by omega),
    State.xcr0Value_getLsbD _ (by omega), decide_eq_true hk]
  exact ⟨rfl, rfl⟩

/-- Settles O56. -/
theorem xgetbvReadsXcr0 : Obligations.XgetbvReadsXcr0 := by
  intro p s hos mask reads
  have hreads : ∀ d, reads (s.xgetbvState p d) := fun d =>
    ⟨by rw [show (s.xgetbvState p d).getReg 0#4 = _ from State.writeEdxEax_getReg_eax _ _]; exact low32_lt _,
      by rw [show (s.xgetbvState p d).getReg 2#4 = _ from State.writeEdxEax_getReg_edx _ _]; exact low32_lt _,
      fun k hk hmask => (s.xgetbvState_bits p d hk).1.trans (if_pos hmask),
      fun k hk hmask => (s.xgetbvState_bits p d hk).2.trans (if_pos hmask),
      State.writeEdxEax_sameRegsBut _ _,
      rfl, rfl, fun _ => rfl, rfl, ⟨rfl, rfl, rfl, rfl⟩, ⟨rfl, rfl⟩, ⟨rfl, rfl, rfl⟩, rfl⟩
  refine ⟨fun hecx => ⟨⟨_, exec_xgetbv hos hecx p s.draws, hreads _⟩, fun v => ?_⟩, fun hecx => ?_⟩
  · refine ⟨{ given := [v], count := 0 }, _, exec_xgetbv hos hecx p _, hreads _, fun k hk hmask => ?_, fun k hk hmask => ?_⟩
    · exact (s.xgetbvState_bits p _ hk).1.trans (if_neg (by simpa using hmask))
    · exact (s.xgetbvState_bits p _ hk).2.trans (if_neg (by simpa using hmask))
  · have hne : (s.getReg 1#4).low 32 ≠ 0 := fun h => hecx (by rw [← low_toNat, h]; rfl)
    show execXgetbv p s = _
    unfold execXgetbv
    rw [if_pos hos, if_neg hne]
    rfl

end Sys2Proof.Machine
end

section
/-! XLAT (rules R241, R242). -/

namespace Sys2Proof.Machine

/-- AL is no high byte. -/
theorem isHighByte_zero (rex : Bool) : isHighByte 0#4 rex = false := by cases rex <;> rfl

theorem homeReg_zero (w : Width) (rex : Bool) : homeReg w 0#4 rex = 0#4 := by simp [homeReg, isHighByte_zero]

theorem AddrSize.width_bits (a : AddrSize) : a.width.bits = a.bits := by cases a <;> rfl

/-- A whole register read at the width of an address, as a number. -/
theorem State.readReg_addr_toNat (s : State) (a : AddrSize) (n : RegNum) (rex : Bool) :
    (s.readReg a.width n rex).toNat = (s.getReg n).toNat % 2 ^ a.bits := by
  unfold State.readReg
  rw [homeReg_of_ne (by cases a <;> simp [AddrSize.width])]
  cases a with
  | a16 => exact low_toNat 16 _
  | a32 => exact low_toNat 32 _
  | a64 => exact (Nat.mod_eq_of_lt (BitVec.isLt _)).symm

theorem State.readReg_al_toNat (s : State) (rex : Bool) : (s.readReg .w8 0#4 rex).toNat = (s.getReg 0#4).toNat % 2 ^ 8 := by
  unfold State.readReg
  rw [homeReg_zero, isHighByte_zero]
  exact low_toNat 8 _

/-- The offset of the table's entry as a number (rule R241). -/
theorem State.xlatOffset_toNat (s : State) (p : Pfx) :
    (s.xlatOffset p).toNat =
      ((s.getReg 3#4).toNat % 2 ^ (s.params.code.addrSize p).bits + (s.getReg 0#4).toNat % 2 ^ 8)
        % 2 ^ (s.params.code.addrSize p).bits := by
  unfold State.xlatOffset
  simp only
  rw [low_toNat, BitVec.toNat_add, State.readReg_addr_toNat, State.readReg_al_toNat,
    Nat.mod_mod_of_dvd _ (pow_dvd_pow 2 (AddrSize.bits_le _))]

theorem ofNat_toNat_of_eq {x : Word} {n : Nat} (h : x.toNat = n) : x = BitVec.ofNat 64 n := by
  rw [← h, BitVec.ofNat_toNat, BitVec.setWidth_eq]

/-- A write of AL keeps the rest of RAX (rule R24). -/
theorem State.getReg_writeReg_al (s : State) (rex : Bool) (v : Word) :
    (s.writeReg .w8 0#4 rex v).getReg 0#4 = withLow8 (s.getReg 0#4) v := by
  have h := s.getReg_writeReg_home .w8 0#4 rex v
  rw [homeReg_zero, isHighByte_zero] at h
  exact h

/-- A 1-byte access reads the byte that this processor sees there. -/
theorem State.loadValue_single_byte (s : State) (a : Word) : (s.loadValue .single 1 a).toNat = (s.viewByte (s.phys a)).toNat := by
  rw [State.loadValue_quiet s.quiet_single]
  have hlt := (s.viewByte (s.phys a)).isLt
  simp [State.byteAddrs, joinBytes]
  omega

/-- XLAT's next state. -/
def State.xlatState (s : State) (p : Pfx) (a : Word) : State :=
  ((s.afterLoad .single 1 a).writeReg .w8 0#4 p.hasRex (s.loadValue .single 1 a)).advance (p.length + 1)

/-- Settles O59. -/
theorem xlatReadsTheTable : Obligations.XlatReadsTheTable := by
  intro p s as rbx rax off seg base addr hadmit
  have hoff : s.xlatOffset p = BitVec.ofNat 64 off := ofNat_toNat_of_eq (s.xlatOffset_toNat p)
  have haddr : s.linear seg (s.xlatOffset p) = BitVec.ofNat 64 addr := by
    refine ofNat_toNat_of_eq ((s.linear_toNat seg _).trans ?_)
    rw [s.xlatOffset_toNat p]
  have href : s.xlatRef p = { seg := seg, off := BitVec.ofNat 64 off, addr := BitVec.ofNat 64 addr } := by
    rw [← haddr, ← hoff]; rfl
  rw [← href] at hadmit
  have hexec : exec (.xlat p) s = .next (s.xlatState p (BitVec.ofNat 64 addr)) := by
    show execXlat p s = _
    rw [execXlat_of_admitted hadmit, href]
    rfl
  have hload := s.afterLoad_sameButMemory .single 1 (BitVec.ofNat 64 addr)
  obtain ⟨hmem, hbuffer, hdraws, hbus⟩ := s.afterLoad_single 1 (BitVec.ofNat 64 addr)
  have hregs : ∀ n, (s.afterLoad .single 1 (BitVec.ofNat 64 addr)).getReg n = s.getReg n := fun n => by
    unfold State.getReg; simp only [hload.regs]
  refine ⟨_, hexec, ?_, fun n hn => ?_, hload.flags, State.nextPc_congr hload.params hload.pc _, fun x => ?_, fun x _ => ?_,
    fun ha => ⟨s.afterLoad_writeSet _ _ _, State.afterLoad_readSet_inactive ha _ _ _⟩, s.afterLoad_writeSet _ _ _, rfl, ?_,
    ⟨⟨hload.xcr0, hload.elided, hload.params⟩, hbuffer, hbus, hdraws⟩⟩
  · show (((s.afterLoad .single 1 _).writeReg .w8 0#4 p.hasRex _).getReg 0#4).toNat = _
    rw [State.getReg_writeReg_al, hregs, withLow8_toNat, State.loadValue_single_byte, Nat.mod_eq_of_lt (BitVec.isLt _)]
  · show ((s.afterLoad .single 1 _).writeReg .w8 0#4 p.hasRex _).getReg n = _
    rw [State.getReg_writeReg_other _ _ (by rw [homeReg_zero]; simpa using hn), hregs]
  · exact congrArg (Memory.read · x) hmem
  · exact State.afterLoad_viewByte s.quiet_single 1 _ x
  · obtain ⟨hactive, hnest, hfallback, hsaved⟩ := hload.region
    exact ⟨hactive, hnest, hfallback, hsaved⟩

end Sys2Proof.Machine
end
